-- ==== Sys2Proof/Word.lean ====
section
/-!
DEFINITION. The block's plainest data: bits, levels, bytes, command frames, and naturals that are at least one.
-/

namespace Sys2Proof

/-- A bit (00_scope.md R17): `false` is 0, `true` is 1. As a pixel 0 is active and 1 inactive (R23). -/
abbrev Bit := Bool

/-- A level on a line (R17): 1 (`true`) is the electrically high level. -/
abbrev Level := Bool

/-- A byte `b[7:0]` (R17). -/
abbrev Byte := BitVec 8

/-- A natural number that is at least 1, kept as its predecessor, so that no smaller value can be written down
(`WIDTH`, `HEIGHT`, `N_POLL_MAX`: R10, R12, R305). -/
structure Pos where
  pred : Nat
deriving DecidableEq, Repr, Inhabited

/-- The number itself. -/
def Pos.val (p : Pos) : Nat := p.pred + 1

/-- A CommandFrame: a command byte and zero or more data bytes (R11, R23; 30_encoding.md R104). -/
structure CommandFrame where
  op   : Byte
  data : List Byte
deriving DecidableEq, Repr, Inhabited

end Sys2Proof
end

