-- ==== Sys2Proof/Machine/Bits.lean ====
section
/-!
DEFINITION. Cells and bytes: a packed byte from its eight cells, most significant bit first, and back
(20_memory.md R77; 30_encoding.md R106, R107).
-/

namespace Sys2Proof.Machine

/-- Byte assembly (R107): cell `k` from the left, `0 <= k <= 7`, weighs `2^(7 - k)`. -/
def cellsByte (a b c d e f g h : Bit) : Byte :=
  BitVec.ofNat 8 (a.toNat * 128 + b.toNat * 64 + c.toNat * 32 + d.toNat * 16
    + e.toNat * 8 + f.toNat * 4 + g.toNat * 2 + h.toNat)

/-- Cell `k` from the left of a byte is its bit `7 - k` (R77). -/
def byteCell (b : Byte) (k : Nat) : Bit := b.getLsbD (7 - k)

/-- The eight cells of a byte, left to right (R106). -/
def byteCells (b : Byte) : List Bit :=
  [byteCell b 0, byteCell b 1, byteCell b 2, byteCell b 3, byteCell b 4, byteCell b 5, byteCell b 6, byteCell b 7]

/-- `ceil(n / 8) = (n + 7) div 8` (42_frame_packer.md R176). -/
def ceilDiv8 (n : Nat) : Nat := (n + 7) / 8

end Sys2Proof.Machine
end

