-- ==== Sys2Proof/Syntax.lean ====
section
/-!
DEFINITION. The operations of the block: one constructor of `Instr` for each row of spec/opcode_table.json, with the
operand forms of 30_encoding.md R112 as typed values.
-/

namespace Sys2Proof

/-- A PixelPlane operand (20_memory.md R70): its width, its height and its `h * w` bits in row-major order, the pixel
`(r, c)` at index `r * w + c` (R71). `Plane.wellFormed` says that `px` has that length. -/
structure Plane where
  w  : Nat
  h  : Nat
  px : List Bit
deriving DecidableEq, Repr, Inhabited

/-- One pixel of an externally supplied pixel source (44_surface_api.md R243): already a single bit in the plane
convention, or any other value, which only `TO_MONO` (R15) can read. DESIGN CHOICE: log entry 15. -/
inductive SrcPixel where
  | bit   (b : Bit)
  | value (v : Nat)
deriving DecidableEq, Repr

/-- A pixel source (R243): `h` rows of `w` source pixels, row-major as a plane is. -/
structure Image where
  w  : Nat
  h  : Nat
  px : List SrcPixel
deriving DecidableEq, Repr

/-- The lines `setGpio` can name (40_bus_transport.md R134): reset and data/command. The busy line is an input and
chip-select belongs to the SPI device, so neither is a value of this type. -/
inductive GpioLine where
  | rst
  | dc
deriving DecidableEq, Repr

/-- The operations, in the order of spec/opcode_table.json. -/
inductive Instr where
  -- surface operations (30_encoding.md R110)
  | init
  | clear
  | display      (black red : Plane)
  | displayBlack (black : Plane)
  | sleep
  | exit
  | getbuffer    (image : Image)
  -- layer operations (R111): transport
  | writeBytes   (data : List Byte)
  | readBusy
  | setGpio      (line : GpioLine) (level : Level)
  | reset
  | delay        (ticks : Nat)
  | acquire
  | release
  -- framer
  | sendCommand  (opcode : Byte)
  | sendData     (bytes : List Byte)
  | sendFrame    (frame : CommandFrame)
  -- packer
  | pack         (plane : Plane)
  | packRaw      (plane : Plane)
  | allInactive
  -- sequencer helper
  | waitNotBusy
  -- the wire and data formats, rows without fixed bits (R100, R103, R104, R106)
  | wireCmdFrame   (frame : CommandFrame)
  | wirePlaneWrite (op : Byte) (frame : List Byte)
  | packedByte     (a b c d e f g h : Bit)
  | cfgFrame       (frame : CommandFrame)
deriving DecidableEq, Repr

/-- Which encoding bytes are read by (30_encoding.md R100 to R109): the 8-bit operation codes (SURFACE-OP, LAYER-OP), or
one of the four formats that have no fixed bits, told apart by where the bytes stand and not by the bytes. -/
inductive Format where
  | op
  | wireCmdFrame
  | wirePlaneWrite
  | packedByte
  | cfgFrame
deriving DecidableEq, Repr

end Sys2Proof
end

