-- ==== Sys2Proof/Decode.lean ====
section
/-!
DEFINITION. The decoder, total on any bytes and rejecting by name, and after it the encoder. The operation codes are
those of 30_encoding.md R110 and R111, matched on all eight bits (R113); the four formats without fixed bits are those
of R100, R103, R104 and R106. The serial form of an operand is the model's own choice, since R112 says a model needs
none: DESIGN CHOICE, log entry 6.
-/

namespace Sys2Proof

/-- Why bytes spell no operation. -/
inductive DecodeError where
  /-- An 8-bit code outside R110 and R111 (30_encoding.md R114; 93_implementation_defined.md U2). -/
  | reservedCode (code : Byte)
  /-- The bytes end before the operation's operands do. -/
  | truncated
  /-- `SET_GPIO` names the busy line (2) or a line that does not exist (R112, R134). -/
  | notAnOutputLine (line : Byte)
  /-- `SET_GPIO`'s level byte is neither 0 nor 1 (R112: one bit). -/
  | badLevel (level : Byte)
  /-- A natural number with a redundant last group. -/
  | nonMinimalNumber
  /-- Bits after a plane's last pixel that are not zero. -/
  | badPadding
deriving DecidableEq, Repr

/-- What a decoder of part of the bytes answers: a value and the bytes after it, or why not. -/
abbrev Dec (α : Type) := Except DecodeError (α × List Byte)

/-- Decode one part, then go on with the bytes after it. -/
def thenDec {α β : Type} (d : Dec α) (f : α → List Byte → Dec β) : Dec β :=
  match d with
  | .error e => .error e
  | .ok (a, rest) => f a rest

/-- One byte. -/
def decodeByte : List Byte → Dec Byte
  | [] => .error .truncated
  | b :: rest => .ok (b, rest)

/-- A natural number of any size (R17: no upper bound): groups of seven bits, the least first, bit 7 of a byte saying
that another group follows; no redundant last group. -/
def decodeNat : List Byte → Dec Nat
  | [] => .error .truncated
  | b :: rest =>
    if b.toNat < 128 then .ok (b.toNat, rest)
    else
      match decodeNat rest with
      | .error e => .error e
      | .ok (n, after) => if n = 0 then .error .nonMinimalNumber else .ok (b.toNat - 128 + 128 * n, after)

/-- The next `n` bytes. -/
def takeBytes (n : Nat) (bs : List Byte) : Dec (List Byte) :=
  if n ≤ bs.length then .ok (bs.take n, bs.drop n) else .error .truncated

/-- "A byte sequence is its length followed by its bytes" (R112). -/
def decodeBytes (bs : List Byte) : Dec (List Byte) :=
  thenDec (decodeNat bs) takeBytes

/-- The cells of the next `k` bytes, left to right. -/
def cellsOfBytes : Nat → List Byte → Dec (List Bit)
  | 0, bs => .ok ([], bs)
  | _ + 1, [] => .error .truncated
  | k + 1, b :: bs =>
    thenDec (cellsOfBytes k bs) fun cells rest => .ok (Machine.byteCells b ++ cells, rest)

/-- `n` bits, eight to a byte, most significant bit first, zeros after the last. -/
def decodeBits (n : Nat) (bs : List Byte) : Dec (List Bit) :=
  thenDec (cellsOfBytes (Machine.ceilDiv8 n) bs) fun cells rest =>
    if (cells.drop n).all (fun b => !b) then .ok (cells.take n, rest) else .error .badPadding

/-- "A PixelPlane is `w`, `h`, then `w * h` bits in row-major order" (R112). -/
def decodePlane (bs : List Byte) : Dec Plane :=
  thenDec (decodeNat bs) fun w bs =>
  thenDec (decodeNat bs) fun h bs =>
  thenDec (decodeBits (w * h) bs) fun px bs =>
  .ok (⟨w, h, px⟩, bs)

/-- A source pixel as a number: 0 and 1 are single bits, a greater number is another value. -/
def pixelOfNat : Nat → SrcPixel
  | 0 => .bit false
  | 1 => .bit true
  | v + 2 => .value v

/-- The next `n` source pixels. -/
def decodePixels : Nat → List Byte → Dec (List SrcPixel)
  | 0, bs => .ok ([], bs)
  | n + 1, bs =>
    thenDec (decodeNat bs) fun v bs =>
    thenDec (decodePixels n bs) fun px bs =>
    .ok (pixelOfNat v :: px, bs)

/-- A pixel source, laid out as a plane is: `w`, `h`, then its pixels in row-major order. -/
def decodeImage (bs : List Byte) : Dec Image :=
  thenDec (decodeNat bs) fun w bs =>
  thenDec (decodeNat bs) fun h bs =>
  thenDec (decodePixels (w * h) bs) fun px bs =>
  .ok (⟨w, h, px⟩, bs)

/-- "`line` in `SET_GPIO`: 0 = RST, 1 = DC; 2 = BUSY is an input and may not be named" (R112). -/
def decodeLine (bs : List Byte) : Dec GpioLine :=
  thenDec (decodeByte bs) fun b bs =>
    if b = 0x00#8 then .ok (.rst, bs) else if b = 0x01#8 then .ok (.dc, bs) else .error (.notAnOutputLine b)

/-- "`level`: one bit" (R112), in a byte of its own. -/
def decodeLevel (bs : List Byte) : Dec Level :=
  thenDec (decodeByte bs) fun b bs =>
    if b = 0x00#8 then .ok (false, bs) else if b = 0x01#8 then .ok (true, bs) else .error (.badLevel b)

/-- "A CommandFrame is `op` then a byte sequence" (R112). -/
def decodeFrame (bs : List Byte) : Dec CommandFrame :=
  thenDec (decodeByte bs) fun op bs =>
  thenDec (decodeBytes bs) fun data bs =>
  .ok (⟨op, data⟩, bs)

/-- The operand bytes of the operation whose code is `code` (R110, R111). -/
def decodeOperands (code : Byte) (bs : List Byte) : Dec Instr :=
  match code.toNat with
  | 0x01 => .ok (.init, bs)
  | 0x02 => .ok (.clear, bs)
  | 0x03 => thenDec (decodePlane bs) fun black bs => thenDec (decodePlane bs) fun red bs => .ok (.display black red, bs)
  | 0x04 => thenDec (decodePlane bs) fun black bs => .ok (.displayBlack black, bs)
  | 0x05 => .ok (.sleep, bs)
  | 0x06 => .ok (.exit, bs)
  | 0x07 => thenDec (decodeImage bs) fun image bs => .ok (.getbuffer image, bs)
  | 0x10 => thenDec (decodeBytes bs) fun data bs => .ok (.writeBytes data, bs)
  | 0x11 => .ok (.readBusy, bs)
  | 0x12 => thenDec (decodeLine bs) fun line bs => thenDec (decodeLevel bs) fun level bs => .ok (.setGpio line level, bs)
  | 0x13 => .ok (.reset, bs)
  | 0x14 => thenDec (decodeNat bs) fun ticks bs => .ok (.delay ticks, bs)
  | 0x15 => .ok (.acquire, bs)
  | 0x16 => .ok (.release, bs)
  | 0x20 => thenDec (decodeByte bs) fun opcode bs => .ok (.sendCommand opcode, bs)
  | 0x21 => thenDec (decodeBytes bs) fun data bs => .ok (.sendData data, bs)
  | 0x22 => thenDec (decodeFrame bs) fun frame bs => .ok (.sendFrame frame, bs)
  | 0x30 => thenDec (decodePlane bs) fun plane bs => .ok (.pack plane, bs)
  | 0x31 => thenDec (decodePlane bs) fun plane bs => .ok (.packRaw plane, bs)
  | 0x32 => .ok (.allInactive, bs)
  | 0x40 => .ok (.waitNotBusy, bs)
  | _ => .error (.reservedCode code)

/-- An operation code and its operands (R109). -/
def decodeOp (bs : List Byte) : Dec Instr :=
  thenDec (decodeByte bs) decodeOperands

/-- The eight cells of a packed byte: bit 7 is the leftmost (R106). -/
def packedByteOf (b : Byte) : Instr :=
  .packedByte (Machine.byteCell b 0) (Machine.byteCell b 1) (Machine.byteCell b 2) (Machine.byteCell b 3)
    (Machine.byteCell b 4) (Machine.byteCell b 5) (Machine.byteCell b 6) (Machine.byteCell b 7)

/-- The operation the bytes spell in the given format, and the bytes after it. A frame on the wire has no length in its
bytes: it is the whole sequence (R101). -/
def decode (f : Format) (bs : List Byte) : Dec Instr :=
  match f with
  | .op => decodeOp bs
  | .wireCmdFrame => thenDec (decodeByte bs) fun op data => .ok (.wireCmdFrame ⟨op, data⟩, [])
  | .wirePlaneWrite => thenDec (decodeByte bs) fun op frame => .ok (.wirePlaneWrite op frame, [])
  | .packedByte => thenDec (decodeByte bs) fun b bs => .ok (packedByteOf b, bs)
  | .cfgFrame => thenDec (decodeFrame bs) fun frame bs => .ok (.cfgFrame frame, bs)

/-- The bytes of a table word: bits 7..0 are the first byte, and zeros stand above the word's bits. -/
def tableBytes (nbits w : Nat) : List Byte :=
  (List.range (nbits / 8)).map (fun i => BitVec.ofNat 8 (w / 2 ^ (8 * i))) ++ List.replicate 8 0x00#8

/-- The operation the decoder reads from a word numbered as spec/opcode_table.json numbers it. -/
def decodeTableWord (nbits w : Nat) : Option Instr :=
  match decode .op (tableBytes nbits w) with
  | .ok (i, _) => some i
  | .error _ => none

/-! ### The encoder -/

/-- A natural number as `decodeNat` reads it, with fuel for its groups. -/
def encodeNatGroups : Nat → Nat → List Byte
  | 0, _ => []
  | fuel + 1, n =>
    if n < 128 then [BitVec.ofNat 8 n] else BitVec.ofNat 8 (128 + n % 128) :: encodeNatGroups fuel (n / 128)

/-- A natural number as `decodeNat` reads it. -/
def encodeNat (n : Nat) : List Byte := encodeNatGroups (n + 1) n

/-- A byte sequence: its length, then its bytes (R112). -/
def encodeBytes (data : List Byte) : List Byte := encodeNat data.length ++ data

/-- The bits of `k` bytes, most significant bit first, zeros after the last bit. -/
def bytesOfCells : Nat → List Bit → List Byte
  | 0, _ => []
  | k + 1, px =>
    Machine.cellsByte (px.getD 0 false) (px.getD 1 false) (px.getD 2 false) (px.getD 3 false)
      (px.getD 4 false) (px.getD 5 false) (px.getD 6 false) (px.getD 7 false) :: bytesOfCells k (px.drop 8)

/-- Bits as `decodeBits` reads them. -/
def encodeBits (px : List Bit) : List Byte := bytesOfCells (Machine.ceilDiv8 px.length) px

/-- A plane: `w`, `h`, then its bits (R112). -/
def encodePlane (p : Plane) : List Byte := encodeNat p.w ++ encodeNat p.h ++ encodeBits p.px

/-- A source pixel's number. -/
def natOfPixel : SrcPixel → Nat
  | .bit b => b.toNat
  | .value v => v + 2

/-- A pixel source: `w`, `h`, then its pixels. -/
def encodeImage (i : Image) : List Byte :=
  encodeNat i.w ++ encodeNat i.h ++ i.px.flatMap (fun p => encodeNat (natOfPixel p))

/-- A CommandFrame: `op`, then a byte sequence (R112). -/
def encodeFrame (f : CommandFrame) : List Byte := f.op :: encodeBytes f.data

/-- A line's number (R112). -/
def lineCode : GpioLine → Byte
  | .rst => 0x00
  | .dc => 0x01

/-- A level in a byte of its own. -/
def levelByte (l : Level) : Byte := if l then 0x01 else 0x00

/-- The bytes of an operation, in the format `formatOf` names. -/
def encode : Instr → List Byte
  | .init => [0x01]
  | .clear => [0x02]
  | .display black red => 0x03 :: (encodePlane black ++ encodePlane red)
  | .displayBlack black => 0x04 :: encodePlane black
  | .sleep => [0x05]
  | .exit => [0x06]
  | .getbuffer image => 0x07 :: encodeImage image
  | .writeBytes data => 0x10 :: encodeBytes data
  | .readBusy => [0x11]
  | .setGpio line level => [0x12, lineCode line, levelByte level]
  | .reset => [0x13]
  | .delay ticks => 0x14 :: encodeNat ticks
  | .acquire => [0x15]
  | .release => [0x16]
  | .sendCommand opcode => [0x20, opcode]
  | .sendData bytes => 0x21 :: encodeBytes bytes
  | .sendFrame frame => 0x22 :: encodeFrame frame
  | .pack plane => 0x30 :: encodePlane plane
  | .packRaw plane => 0x31 :: encodePlane plane
  | .allInactive => [0x32]
  | .waitNotBusy => [0x40]
  | .wireCmdFrame frame => frame.op :: frame.data
  | .wirePlaneWrite op frame => op :: frame
  | .packedByte a b c d e f g h => [Machine.cellsByte a b c d e f g h]
  | .cfgFrame frame => encodeFrame frame

/-- The format an operation's bytes are in. -/
def formatOf : Instr → Format
  | .init => .op
  | .clear => .op
  | .display _ _ => .op
  | .displayBlack _ => .op
  | .sleep => .op
  | .exit => .op
  | .getbuffer _ => .op
  | .writeBytes _ => .op
  | .readBusy => .op
  | .setGpio _ _ => .op
  | .reset => .op
  | .delay _ => .op
  | .acquire => .op
  | .release => .op
  | .sendCommand _ => .op
  | .sendData _ => .op
  | .sendFrame _ => .op
  | .pack _ => .op
  | .packRaw _ => .op
  | .allInactive => .op
  | .waitNotBusy => .op
  | .wireCmdFrame _ => .wireCmdFrame
  | .wirePlaneWrite _ _ => .wirePlaneWrite
  | .packedByte _ _ _ _ _ _ _ _ => .packedByte
  | .cfgFrame _ => .cfgFrame

/-- The 8-bit operation code (R110, R111); none for the four formats without fixed bits. -/
def opCode : Instr → Option Byte
  | .init => some 0x01
  | .clear => some 0x02
  | .display _ _ => some 0x03
  | .displayBlack _ => some 0x04
  | .sleep => some 0x05
  | .exit => some 0x06
  | .getbuffer _ => some 0x07
  | .writeBytes _ => some 0x10
  | .readBusy => some 0x11
  | .setGpio _ _ => some 0x12
  | .reset => some 0x13
  | .delay _ => some 0x14
  | .acquire => some 0x15
  | .release => some 0x16
  | .sendCommand _ => some 0x20
  | .sendData _ => some 0x21
  | .sendFrame _ => some 0x22
  | .pack _ => some 0x30
  | .packRaw _ => some 0x31
  | .allInactive => some 0x32
  | .waitNotBusy => some 0x40
  | .wireCmdFrame _ => none
  | .wirePlaneWrite _ _ => none
  | .packedByte _ _ _ _ _ _ _ _ => none
  | .cfgFrame _ => none

/-- The seven operations of the host port (R110). -/
def isSurface : Instr → Bool
  | .init => true
  | .clear => true
  | .display _ _ => true
  | .displayBlack _ => true
  | .sleep => true
  | .exit => true
  | .getbuffer _ => true
  | .writeBytes _ => false
  | .readBusy => false
  | .setGpio _ _ => false
  | .reset => false
  | .delay _ => false
  | .acquire => false
  | .release => false
  | .sendCommand _ => false
  | .sendData _ => false
  | .sendFrame _ => false
  | .pack _ => false
  | .packRaw _ => false
  | .allInactive => false
  | .waitNotBusy => false
  | .wireCmdFrame _ => false
  | .wirePlaneWrite _ _ => false
  | .packedByte _ _ _ _ _ _ _ _ => false
  | .cfgFrame _ => false

end Sys2Proof
end

