-- ==== Sys2Proof/Config.lean ====
section
/-!
DEFINITION. The configuration record `CFG`, all of whose values the spec leaves open, and the free values: opaque
constants without a body, so that nothing can be proved of what they are.
-/

namespace Sys2Proof

/-- `CFG` (00_scope.md R9 to R14): everything that differs between panel models, as plain data. `TO_MONO`, a
function, is `Config.toMono` below. The bounds of R305 (`WIDTH`, `HEIGHT`, `N_POLL_MAX` at least 1) hold by type. -/
structure Cfg where
  /-- `CFG.WIDTH` (R10). -/
  width : Pos
  /-- `CFG.HEIGHT` (R10). -/
  height : Pos
  /-- `CFG.INIT_SEQ` (R11): the set-up command sequence, look-up tables included (R204). -/
  initSeq : List CommandFrame
  /-- `CFG.CMD_BLACK` (R11). -/
  cmdBlack : Byte
  /-- `CFG.CMD_RED` (R11). -/
  cmdRed : Byte
  /-- `CFG.REFRESH` (R11). -/
  refresh : CommandFrame
  /-- `CFG.SLEEP` (R11). -/
  sleep : CommandFrame
  /-- `CFG.T_RST_PULSE` (R12). -/
  tRstPulse : Nat
  /-- `CFG.T_RST_SETTLE` (R12). -/
  tRstSettle : Nat
  /-- `CFG.T_POLL` (R12). -/
  tPoll : Nat
  /-- `CFG.N_POLL_MAX` (R12). -/
  nPollMax : Pos
  /-- `CFG.RST_ACTIVE` (R13). -/
  rstActive : Level
  /-- `CFG.DC_CMD` (R13); `DC_DATA` is the other level. -/
  dcCmd : Level
  /-- `CFG.CS_ACTIVE` (R13). -/
  csActive : Level
  /-- `CFG.BUSY_ACTIVE` (R13). -/
  busyActive : Level
  /-- `CFG.SAFE_RST` (R14). -/
  safeRst : Level
  /-- `CFG.SAFE_DC` (R14). -/
  safeDc : Level
deriving DecidableEq, Repr, Inhabited

/-- The configuration of the block at its first reset: every value OPEN (92_eei_decisions.md, the collected list), so a
constant without a body. DESIGN CHOICE, safe: log entry 1. -/
opaque Config.cfg : Cfg

/-- `CFG.TO_MONO` (R15) on a source pixel that is not a single bit already. OPEN; safe: log entry 15. -/
opaque Config.toMono : Nat → Bit

/-- `env.busy_raw()` (10_state.md R43; 93_implementation_defined.md U12): the level the busy line shows at the n-th
draw, where the state lists no answer. A free value; safe: log entry 2. -/
opaque Config.busyRaw : Nat → Level

/-- `env.spi_ok()` (40_bus_transport.md R132; D38): whether the n-th non-empty bus write succeeds, where the state lists
no answer. A free value; safe: log entry 2. -/
opaque Config.spiOk : Nat → Bool

/-- `env.intr()` (R141; D22): whether the user interrupt is there at the n-th wait point, where the state lists no
answer. A free value; safe: log entry 2. -/
opaque Config.intr : Nat → Bool

end Sys2Proof
end

