-- ==== Sys2Proof/Machine/Operands.lean ====
section
/-!
DEFINITION. The operand forms: pixels of a plane (20_memory.md R70, R71), packed frames (42_frame_packer.md) and pixel
sources (44_surface_api.md R243).
-/

namespace Sys2Proof.Machine

/-- The pixel `(r, c)` of a plane, at linear index `r * w + c` (R71). "Reading outside the bounds has no meaning and no
rule does it": of a well-formed plane nothing here reads there. Log entry 16. -/
def pixelAt (p : Plane) (r c : Nat) : Bit := p.px.getD (r * p.w + c) true

/-- `bit(r, c)` (30_encoding.md R107): the pixel inside the scanline, the inactive value 1 past its end (R82). -/
def cellAt (p : Plane) (r c : Nat) : Bit := if c < p.w then pixelAt p r c else true

/-- Byte `j` of scanline `r` (R106). -/
def packedByteAt (p : Plane) (r j : Nat) : Byte :=
  cellsByte (cellAt p r (8 * j)) (cellAt p r (8 * j + 1)) (cellAt p r (8 * j + 2)) (cellAt p r (8 * j + 3))
    (cellAt p r (8 * j + 4)) (cellAt p r (8 * j + 5)) (cellAt p r (8 * j + 6)) (cellAt p r (8 * j + 7))

/-- The bytes of scanline `r`, left to right (20_memory.md R78). -/
def packedLine (p : Plane) (r : Nat) : List Byte :=
  (List.range (ceilDiv8 p.w)).map (packedByteAt p r)

/-- `pack_raw(p)` (R170): the scanlines in row order. -/
def packRaw (p : Plane) : List Byte := (List.range p.h).flatMap (packedLine p)

/-- `STRIDE` (00_scope.md R10). -/
def stride (c : Cfg) : Nat := ceilDiv8 c.width.val

/-- `FRAME_LEN` (R10). -/
def frameLen (c : Cfg) : Nat := stride c * c.height.val

/-- Cell `x` of scanline `r`, read off the packed frame of a plane of width `w` (R106; 42_frame_packer.md R178). -/
def frameCell (w : Nat) (frame : List Byte) (r x : Nat) : Bit :=
  byteCell (frame.getD (r * ceilDiv8 w + x / 8) 0) (x % 8)

/-- The bytes are a PackedFrame of width `w` and height `h`: its length (20_memory.md R72), and the inactive value 1 in
every cell past a scanline's end (R82; 30_encoding.md R106). -/
def isPackedFrame (w h : Nat) (frame : List Byte) : Bool :=
  frame.length == ceilDiv8 w * h &&
    (List.range h).all fun r => (List.range (8 * ceilDiv8 w)).all fun x => decide (x < w) || frameCell w frame r x

/-- The plane has the panel's dimensions (R171). -/
def fits (c : Cfg) (p : Plane) : Bool := p.w == c.width.val && p.h == c.height.val

/-- `pack(p)` (R171): `none` is `DimensionError`. -/
def pack (c : Cfg) (p : Plane) : Option (List Byte) := if fits c p then some (packRaw p) else none

/-- `allInactive()` (R172). -/
def allInactive (c : Cfg) : Plane where
  w := c.width.val
  h := c.height.val
  px := List.replicate (c.width.val * c.height.val) true

/-- `TO_MONO` (00_scope.md R15): the identity on single bits (R243), open otherwise. Log entry 15. -/
def toMono : SrcPixel → Bit
  | .bit b => b
  | .value v => Config.toMono v

/-- `getbuffer(image)` (R243): pixel by pixel, the same dimensions. -/
def monoPlane (i : Image) : Plane where
  w := i.w
  h := i.h
  px := i.px.map toMono

end Sys2Proof.Machine
end

