-- ==== Sys2Proof/Machine/State.lean ====
section
/-!
DEFINITION. The state of the block as plain data (10_state.md R30 to R58), the host and the environment as data beside it,
the reasons a step can stop, and the state after reset.
-/

namespace Sys2Proof.Machine

/-- `PSTATE` (10_state.md R34). -/
inductive PState where
  | uninitialized
  | ready
  | displaying
  | sleeping
  | exited
deriving DecidableEq, Repr

/-- `MODE`, the framer's mode (R38; 41_command_framer.md R150). -/
inductive Mode where
  | none
  | command
  | data
deriving DecidableEq, Repr

/-- The result codes (60_exceptions.md R261), in the order of their numbers 0 to 8. -/
inductive ResultCode where
  | ok
  | transportError
  | protocolError
  | dimensionError
  | initError
  | refreshTimeoutError
  | alreadyExited
  | stateError
  | interrupted
deriving DecidableEq, Repr

/-- The events of `TRACE` (10_state.md R45). -/
inductive Event where
  /-- `EvAcquire`. -/
  | acquire
  /-- `EvGpio(line, level)`. -/
  | gpio (line : GpioLine) (level : Level)
  /-- `EvSpi(dc, data)`: a successful transaction. -/
  | spi (dc : Level) (data : List Byte)
  /-- `EvSpiFail(dc, data)`: a failed transaction. -/
  | spiFail (dc : Level) (data : List Byte)
  /-- `EvBusy(b)`: a busy sample; `true` is busy. -/
  | busy (b : Bool)
  /-- `EvDelay(t)`. -/
  | delay (ticks : Nat)
  /-- `EvRelease`. -/
  | release
  /-- `EvState(s)`: `PSTATE` changed to `s`. -/
  | pstate (s : PState)
deriving DecidableEq, Repr

/-- One step of an operation's pseudocode listing; each is indivisible and appends at most one event. `sample` and
`pollDelay` stand inside a wait only: no listing is written with them, the running of `wait` puts them there. -/
inductive Micro where
  /-- `setGpio(line, level)`. -/
  | setGpio (line : GpioLine) (level : Level)
  /-- `writeBytes(data)`. -/
  | writeBytes (data : List Byte)
  /-- `delay(t)`. -/
  | delay (ticks : Nat)
  /-- `MODE <- m`. -/
  | setMode (m : Mode)
  /-- `if MODE = None: raise ProtocolError`. -/
  | needContext
  /-- `if MODE != Data: setGpio(DC, DC_DATA); MODE <- Data`. -/
  | dataLine
  /-- `if PSTATE = Uninitialized: acquire()`. -/
  | acquireIfUninitialized
  /-- The end of `release()`: chip-select parked, the handle given up, `EvRelease`. -/
  | letGo
  /-- `setState(s)`. -/
  | setState (s : PState)
  /-- `if WaitNotBusy() = timeout: raise onTimeout`, from the start of the wait. -/
  | wait (onTimeout : ResultCode)
  /-- The same wait, at its next busy sample. -/
  | sample (onTimeout : ResultCode)
  /-- The same wait, at the delay after a sample that read busy. -/
  | pollDelay (onTimeout : ResultCode)
deriving DecidableEq, Repr

/-- `UPC` (10_state.md R36): idle, or the position in the running operation's listing, kept as the steps still to run. -/
inductive Upc where
  | idle
  | running (rest : List Micro)
deriving DecidableEq, Repr

/-- What an operation hands back beside its result code (30_encoding.md R109 to R111). -/
inductive Value where
  | none
  | bool (b : Bool)
  | byte (b : Byte)
  | bytes (bs : List Byte)
  | plane (p : Plane)
  | nat (n : Nat)
  /-- `WaitNotBusy`'s `ready`. -/
  | ready
  /-- `WaitNotBusy`'s `timeout`. -/
  | timeout
deriving DecidableEq, Repr

/-- What the port presents when an operation has ended (R109; 44_surface_api.md R241). The model's own: log entry 5. -/
structure Answer where
  code  : ResultCode
  value : Value
deriving DecidableEq, Repr

/-- The status registers by number (10_state.md R46). -/
inductive StatusReg where
  | sr0 | sr1 | sr2 | sr3 | sr4 | sr5
deriving DecidableEq, Repr

/-- What the host, or a test harness, does next (70_reset_and_hazards.md R326). The model's own: log entry 4. -/
inductive HostAction where
  /-- The host presents a surface operation and is blocked to its end: one step (R36, R241). -/
  | op (bytes : List Byte)
  /-- The host presents a surface operation that runs one listing position a step, through `UPC` (R36). -/
  | begin (bytes : List Byte)
  /-- The host is blocked until the operation in progress has ended (R211). -/
  | await
  /-- A test harness calls an operation of any layer directly (92_eei_decisions.md D30). -/
  | harness (format : Format) (bytes : List Byte)
  /-- The host reads a status register (R46). -/
  | readStatus (r : StatusReg)
  /-- The reset input strikes (R57): at once when no operation is in progress, otherwise after that many positions. -/
  | blockReset (after : Nat)
deriving DecidableEq, Repr

/-- The environment (00_scope.md R20): for each of the three draws the answers still to come and how many have been
drawn. Past the listed answers a draw is free (`Config.busyRaw`, `Config.spiOk`, `Config.intr`). Log entry 2. -/
structure Env where
  busy      : List Level
  spi       : List Bool
  intr      : List Bool
  busyTaken : Nat
  spiTaken  : Nat
  intrTaken : Nat
deriving DecidableEq, Repr

/-- The whole state. The first block is the register set of 10_state.md R58. -/
structure State where
  /-- `PSTATE` (R34). -/
  pstate : PState
  /-- `OWNED` (R37). -/
  owned : Bool
  /-- `DRIVEN` (R42). -/
  driven : Bool
  /-- `MODE` (R38). -/
  mode : Mode
  /-- `PIN_RST` (R42). -/
  pinRst : Level
  /-- `PIN_DC` (R42). -/
  pinDc : Level
  /-- `PIN_CS` (R42). -/
  pinCs : Level
  /-- `RES` (R39). -/
  res : ResultCode
  /-- `FATAL` (R40). -/
  fatal : Bool
  /-- `K` (R41). -/
  k : Nat
  /-- `UPC` (R36). -/
  upc : Upc
  /-- `TRACE` (R45), oldest event first. -/
  trace : List Event
  /-- `CFG` (00_scope.md R9), written by nothing. Log entry 1. -/
  cfg : Cfg
  /-- The environment's answers. Log entry 2. -/
  env : Env
  /-- What the host does next, in order. Log entry 4. -/
  host : List HostAction
  /-- What the port last presented. Log entry 5. -/
  answer : Option Answer
deriving DecidableEq, Repr

/-- Reasons a step stops with a fault: none. Every error of the spec is a defined result, a next state
(70_reset_and_hazards.md R325: "Defined results, not faults of the model"; "Stuck: never"; "Hang: never"). Log entry 21. -/
inductive Fault where
deriving DecidableEq, Repr

/-- Reasons the model gives a step no meaning (R325, "Refused"). All are safe: the model stops where hardware might go on. -/
inductive Refusal where
  /-- An instruction without a meaning; no arm of `exec` answers it. Safe. -/
  | notModelled (mnemonic : String)
  /-- The port, for an 8-bit code outside 30_encoding.md R110 and R111 (R114, U2). Safe: hardware ignores the code. -/
  | reservedOpCode (code : Byte)
  /-- The host port, for a layer operation's code: it "spells no operation" there (R114, R247). Safe. -/
  | layerOpOnHostPort
  /-- The port, for `SET_GPIO` naming the busy line or no output line at all (R112, R134, R325). Safe. -/
  | notAnOutputLine (line : Byte)
  /-- The port, for operand bytes that spell no operand in the model's serial form (log entry 6). Safe. -/
  | malformedOperands
  /-- The port, for an operation or a status read presented while an operation runs (R46, R211, R325, U1). Safe. -/
  | portBusy
  /-- Every operation that reaches the transport with `OWNED = 0` (40_bus_transport.md R130, R325). Safe. -/
  | busNotOwned
  /-- `acquire` with `OWNED = 1`, against its precondition (R137). Safe. -/
  | busAlreadyOwned
  /-- `WIRE_PLANEWRITE` whose command byte is neither plane command, or whose data is no PackedFrame of the panel's
  dimensions: not `FRAME_LEN` bytes, or a padding bit that is not 1 (30_encoding.md R103, R106; 20_memory.md R82, R83).
  Safe. -/
  | notAPlaneWrite
deriving DecidableEq, Repr

/-- An environment with no answer listed: every draw is free. -/
def Env.allFree : Env where
  busy := []
  spi := []
  intr := []
  busyTaken := 0
  spiTaken := 0
  intrTaken := 0

/-- The reset state (10_state.md R56) of the block whose configuration is `cfg`. -/
def State.resetWith (cfg : Cfg) : State where
  pstate := .uninitialized
  owned := false
  driven := false
  mode := .none
  pinRst := false
  pinDc := false
  pinCs := false
  res := .ok
  fatal := false
  k := 0
  upc := .idle
  trace := []
  cfg := cfg
  env := Env.allFree
  host := []
  answer := none

/-- The machine right after reset (R56). `CFG` is open: log entry 1. -/
def State.reset : State := State.resetWith Config.cfg

end Sys2Proof.Machine
end

