-- ==== Sys2Proof/Machine/Ops.lean ====
section
/-!
DEFINITION. The named operations over the state: the environment's draws, the transport's primitives
(40_bus_transport.md), changes of `PSTATE`, the busy-poll (43_panel_driver.md R190), and the effect of every error, the
fatal path among them (60_exceptions.md R262 to R270).
-/

namespace Sys2Proof.Machine

/-! ### Draws (00_scope.md R20) -/

/-- The busy line's level at the `j`-th draw from now. -/
def busyAt (e : Env) (j : Nat) : Level := e.busy.getD j (Config.busyRaw (e.busyTaken + j))

/-- Whether the `j`-th bus write from now succeeds. -/
def spiAt (e : Env) (j : Nat) : Bool := e.spi.getD j (Config.spiOk (e.spiTaken + j))

/-- Whether the user interrupt is there at the `j`-th wait point from now. -/
def intrAt (e : Env) (j : Nat) : Bool := e.intr.getD j (Config.intr (e.intrTaken + j))

/-- The environment after `b` busy draws, `w` bus-write draws and `i` interrupt draws. -/
def advanceEnv (e : Env) (b w i : Nat) : Env where
  busy := e.busy.drop b
  spi := e.spi.drop w
  intr := e.intr.drop i
  busyTaken := e.busyTaken + b
  spiTaken := e.spiTaken + w
  intrTaken := e.intrTaken + i

/-- The state after one draw of `env.busy_raw()`. -/
def drawBusy (s : State) : State := { s with env := advanceEnv s.env 1 0 0 }

/-- The state after one draw of `env.spi_ok()`. -/
def drawSpi (s : State) : State := { s with env := advanceEnv s.env 0 1 0 }

/-- The state after one draw of `env.intr()`. -/
def drawIntr (s : State) : State := { s with env := advanceEnv s.env 0 0 1 }

/-! ### Primitives -/

/-- `emit(ev)` (R21, R45). -/
def emit (ev : Event) (s : State) : State := { s with trace := s.trace ++ [ev] }

/-- The level that means "data" (R13): `DC_DATA = 1 - CFG.DC_CMD`. -/
def dcData (c : Cfg) : Level := !c.dcCmd

/-- How a run of listing steps ended: at its end, or by `raise E` (R21). -/
inductive Run where
  | ok (s : State)
  | raised (e : ResultCode) (s : State)
deriving DecidableEq, Repr

/-- `setGpio(line, level)` (40_bus_transport.md R134). -/
def setGpio (line : GpioLine) (level : Level) (s : State) : State :=
  match line with
  | .rst => emit (.gpio .rst level) { s with pinRst := level }
  | .dc => emit (.gpio .dc level) { s with pinDc := level }

/-- Chip-select at its active level (30_encoding.md R105). -/
def selectChip (s : State) : State := { s with pinCs := s.cfg.csActive }

/-- Chip-select at its inactive level. -/
def deselectChip (s : State) : State := { s with pinCs := !s.cfg.csActive }

/-- `writeBytes(data)` (R131, R132): the empty sequence is a no-operation without a draw. -/
def writeBytes (data : List Byte) (s : State) : Run :=
  if data = [] then .ok s
  else
    let sent := deselectChip (drawSpi (selectChip s))
    if spiAt s.env 0 then .ok (emit (.spi s.pinDc data) sent)
    else .raised .transportError (emit (.spiFail s.pinDc data) sent)

/-- What `readBusyLine()` answers now (R133): `true` is busy. -/
def busyNow (s : State) : Bool := busyAt s.env 0 == s.cfg.busyActive

/-- `readBusyLine()` (R133): a fresh draw, recorded. -/
def readBusyLine (s : State) : State := emit (.busy (busyNow s)) (drawBusy s)

/-- `delay(t)` (R135), a wait point (R141): the interrupt is asked first. -/
def delay (ticks : Nat) (s : State) : Run :=
  if intrAt s.env 0 then .raised .interrupted (drawIntr s) else .ok (emit (.delay ticks) (drawIntr s))

/-- `acquire()` (R137). -/
def acquire (s : State) : State :=
  emit .acquire
    { s with
      owned := true
      driven := true
      pinRst := !s.cfg.rstActive
      pinDc := s.cfg.dcCmd
      pinCs := !s.cfg.csActive
      mode := .none }

/-- The last lines of `release()` (R138): after the two safe-state writes. -/
def letGo (s : State) : State :=
  emit .release { deselectChip s with owned := false, driven := false, mode := .none }

/-- `release()`, the release path (R138). -/
def release (s : State) : State :=
  letGo (setGpio .dc s.cfg.safeDc (setGpio .rst s.cfg.safeRst s))

/-- `setState(s)` (43_panel_driver.md R200). -/
def setState (p : PState) (s : State) : State :=
  if s.pstate = p then s else emit (.pstate p) { s with pstate := p }

/-- `MODE <- m`. -/
def setMode (m : Mode) (s : State) : State := { s with mode := m }

/-! ### The busy-poll -/

/-- How one busy sample of `WaitNotBusy` ended (R190, R141). -/
inductive Sampled where
  | interrupted (s : State)
  | ready (s : State)
  | busy (s : State)
deriving DecidableEq, Repr

/-- One turn of the poll: the interrupt is asked, the line is read, `K` counts a sample that read busy. -/
def sample (s : State) : Sampled :=
  let asked := drawIntr s
  if intrAt s.env 0 then .interrupted asked
  else if busyNow asked then .busy { readBusyLine asked with k := s.k + 1 }
  else .ready (readBusyLine asked)

/-- How a wait ended: `ready` or `timeout` (R190), or by the interrupt. -/
inductive Waited where
  | interrupted (s : State)
  | ready (s : State)
  | timeout (s : State)
deriving DecidableEq, Repr

/-- The poll loop with `more` samples allowed after the next one: past the last a sample that reads busy is a timeout,
before it the block delays and samples again. -/
def poll : Nat → State → Waited
  | 0, s =>
    match sample s with
    | .interrupted t => .interrupted t
    | .ready t => .ready t
    | .busy t => .timeout t
  | more + 1, s =>
    match sample s with
    | .interrupted t => .interrupted t
    | .ready t => .ready t
    | .busy t =>
      match delay t.cfg.tPoll t with
      | .raised _ u => .interrupted u
      | .ok u => poll more u

/-- How many samples may follow the next one when `K` samples have read busy: `N_POLL_MAX - 1 - K`. -/
def samplesLeft (s : State) : Nat := s.cfg.nPollMax.pred - s.k

/-- `K <- 0`, the start of every wait (R190). -/
def clearK (s : State) : State := { s with k := 0 }

/-- `WaitNotBusy()` (R190). -/
def waitNotBusy (s : State) : Waited := poll s.cfg.nPollMax.pred (clearK s)

/-- `if WaitNotBusy() = timeout: raise onTimeout`. -/
def raiseOnTimeout (onTimeout : ResultCode) : Waited → Run
  | .interrupted s => .raised .interrupted s
  | .ready s => .ok s
  | .timeout s => .raised onTimeout s

/-! ### The effect of an error (60_exceptions.md) -/

/-- `fatal(code)` (R268). -/
def fatal (code : ResultCode) (s : State) : State :=
  { setState .exited (release s) with fatal := true, res := code }

/-- The effect of `raise E` on the registers: the fatal path for `TransportError` (R269), `InitError` (R267) and
`Interrupted` (R270); only `RES` for `StateError` (R262), `AlreadyExited` (R263), `DimensionError` (R264) and
`RefreshTimeoutError` (R266); nothing for `ProtocolError` (R265). -/
def errorEffect (e : ResultCode) (s : State) : State :=
  match e with
  | .ok => s
  | .transportError => fatal .transportError s
  | .protocolError => s
  | .dimensionError => { s with res := .dimensionError }
  | .initError => fatal .initError s
  | .refreshTimeoutError => { s with res := .refreshTimeoutError }
  | .alreadyExited => { s with res := .alreadyExited }
  | .stateError => { s with res := .stateError }
  | .interrupted => fatal .interrupted s

/-- The port presents a result (44_surface_api.md R241). -/
def present (code : ResultCode) (v : Value) (s : State) : State := { s with answer := some ⟨code, v⟩ }

/-- An operation ended by `raise E` (R21, R272): the error's effect, then the code on the port. -/
def endRaised (e : ResultCode) (s : State) : State := present e .none (errorEffect e s)

/-- A surface operation that has reached its end: `RES` is `OK` (10_state.md R39). -/
def endSurfaceOk (s : State) : State := present .ok .none { s with res := .ok }

/-- A surface operation's end, either way. -/
def endSurface : Run → State
  | .ok s => endSurfaceOk s
  | .raised e s => endRaised e s

/-- A layer operation's end: its value on the port, and no write of `RES`, which belongs to surface operations (R39). -/
def endLayer (v : Value) : Run → State
  | .ok s => present .ok v s
  | .raised e s => endRaised e s

/-- Block reset (10_state.md R57; 70_reset_and_hazards.md R300): the reset state, `CFG` unchanged, the host and the
environment going on outside the block, no result presented (R301). -/
def blockReset (s : State) : State := { State.resetWith s.cfg with env := s.env, host := s.host }

end Sys2Proof.Machine
end

