-- ==== Sys2Proof/Machine/Flags.lean ====
section
/-!
DEFINITION. The numbers of the flags and codes (10_state.md R35, R38; 60_exceptions.md R261) and the six read-only status
registers (R46 to R51).
-/

namespace Sys2Proof.Machine

/-- The encoding of `PSTATE` (R35). -/
def pstateCode : PState → BitVec 3
  | .uninitialized => 0
  | .ready => 1
  | .displaying => 2
  | .sleeping => 3
  | .exited => 4

/-- The encoding of `MODE` (R38). -/
def modeCode : Mode → BitVec 2
  | .none => 0
  | .command => 1
  | .data => 2

/-- The number of a result code (R261). -/
def resultNumber : ResultCode → BitVec 4
  | .ok => 0
  | .transportError => 1
  | .protocolError => 2
  | .dimensionError => 3
  | .initError => 4
  | .refreshTimeoutError => 5
  | .alreadyExited => 6
  | .stateError => 7
  | .interrupted => 8

/-- The command context `CTX` (R38). -/
def hasContext (s : State) : Bool := s.mode != .none

/-- `SR0 STATUS` (R47): bit 7 is 0, `FATAL`, `MODE`, `OWNED`, `PSTATE`. -/
def sr0 (s : State) : Byte :=
  0#1 ++ BitVec.ofBool s.fatal ++ modeCode s.mode ++ BitVec.ofBool s.owned ++ pstateCode s.pstate

/-- `SR1 RES` (R48): bits 7 to 4 are 0. -/
def sr1 (s : State) : Byte := 0#4 ++ resultNumber s.res

/-- `SR2 WIDTH` (R49). -/
def sr2 (s : State) : Nat := s.cfg.width.val

/-- `SR3 HEIGHT` (R49). -/
def sr3 (s : State) : Nat := s.cfg.height.val

/-- `SR4 PINS` (R50): bits 7 to 5 are 0, `DRIVEN`, the busy line's level now, and the three output pins, which read 0
while they are not driven. -/
def sr4 (s : State) : Byte :=
  0#3 ++ BitVec.ofBool s.driven ++ BitVec.ofBool (busyAt s.env 0) ++ BitVec.ofBool (s.driven && s.pinCs)
    ++ BitVec.ofBool (s.driven && s.pinDc) ++ BitVec.ofBool (s.driven && s.pinRst)

/-- `SR5 FRAMELEN` (R51). -/
def sr5 (s : State) : Nat := frameLen s.cfg

/-- What a read of a status register gives. -/
def statusValue (r : StatusReg) (s : State) : Value :=
  match r with
  | .sr0 => .byte (sr0 s)
  | .sr1 => .byte (sr1 s)
  | .sr2 => .nat (sr2 s)
  | .sr3 => .nat (sr3 s)
  | .sr4 => .byte (sr4 s)
  | .sr5 => .nat (sr5 s)

/-- The state after a status read: `SR4` takes a fresh draw of the busy line (R50), which is no event (R45); the others
change nothing. Log entry 20. -/
def afterStatusRead (r : StatusReg) (s : State) : State :=
  match r with
  | .sr0 => s
  | .sr1 => s
  | .sr2 => s
  | .sr3 => s
  | .sr4 => drawBusy s
  | .sr5 => s

/-- A status read (R46, R326): the register's value on the port. -/
def readStatus (r : StatusReg) (s : State) : State := present .ok (statusValue r s) (afterStatusRead r s)

end Sys2Proof.Machine
end

