-- ==== Sys2Proof/Machine/Listings.lean ====
section
/-!
DEFINITION. The pseudocode listings of the operations as data, the meaning of one listing step, and the run of a listing
to its end. `UPC` (10_state.md R36) is a position in such a listing.
-/

namespace Sys2Proof.Machine

/-! ### What a listing step does -/

/-- One listing step, done whole (a `wait` is all its samples and delays). -/
def runMicro : Micro → State → Run
  | .setGpio line level, s => .ok (setGpio line level s)
  | .writeBytes data, s => writeBytes data s
  | .delay ticks, s => delay ticks s
  | .setMode m, s => .ok (setMode m s)
  | .needContext, s => if hasContext s then .ok s else .raised .protocolError s
  | .dataLine, s => .ok (if s.mode = .data then s else setMode .data (setGpio .dc (dcData s.cfg) s))
  | .acquireIfUninitialized, s => .ok (if s.pstate = .uninitialized then acquire s else s)
  | .letGo, s => .ok (letGo s)
  | .setState p, s => .ok (setState p s)
  | .wait onTimeout, s => raiseOnTimeout onTimeout (waitNotBusy s)
  | .sample onTimeout, s => raiseOnTimeout onTimeout (poll (samplesLeft s) s)
  | .pollDelay onTimeout, s =>
    match delay s.cfg.tPoll s with
    | .raised e s => .raised e s
    | .ok s => raiseOnTimeout onTimeout (poll (samplesLeft s) s)

/-- The steps of a listing in order, up to the first error: "nothing after the `raise` in the pseudocode runs" (R21). -/
def runList : List Micro → State → Run
  | [], s => .ok s
  | m :: ms, s =>
    match runMicro m s with
    | .ok s => runList ms s
    | .raised e s => .raised e s

/-- Whether a step uses the bus: a transport operation other than `acquire` (40_bus_transport.md R130). -/
def needsBus : Micro → Bool
  | .setGpio _ _ => true
  | .writeBytes _ => true
  | .delay _ => true
  | .setMode _ => false
  | .needContext => false
  | .dataLine => true
  | .acquireIfUninitialized => false
  | .letGo => true
  | .setState _ => false
  | .wait _ => true
  | .sample _ => true
  | .pollDelay _ => true

/-! ### The layers' listings -/

/-- `reset()` (40_bus_transport.md R136). -/
def listReset (c : Cfg) : List Micro :=
  [ .setGpio .rst c.rstActive,
    .delay c.tRstPulse,
    .setGpio .rst (!c.rstActive),
    .delay c.tRstSettle,
    .setMode .none ]

/-- `release()` (R138). -/
def listRelease (c : Cfg) : List Micro :=
  [ .setGpio .rst c.safeRst,
    .setGpio .dc c.safeDc,
    .letGo ]

/-- `sendCommand(opcode)` (41_command_framer.md R151). -/
def listSendCommand (c : Cfg) (opcode : Byte) : List Micro :=
  [ .setGpio .dc c.dcCmd,
    .writeBytes [opcode],
    .setMode .command ]

/-- `sendData(bytes)` (R152). -/
def listSendData (bytes : List Byte) : List Micro :=
  .needContext :: (if bytes = [] then [] else [.dataLine, .writeBytes bytes])

/-- `sendFrame(f)` (R153). -/
def listSendFrame (c : Cfg) (f : CommandFrame) : List Micro :=
  listSendCommand c f.op ++ (if f.data = [] then [] else listSendData f.data)

/-- A plane write (30_encoding.md R103): the plane's command, then the whole packed frame. -/
def listPlaneWrite (c : Cfg) (op : Byte) (frame : List Byte) : List Micro :=
  listSendCommand c op ++ listSendData frame

/-! ### The sequencer's listings (43_panel_driver.md), after their state and dimension checks -/

/-- `init()` (R194). -/
def listInit (c : Cfg) : List Micro :=
  .acquireIfUninitialized :: listReset c
    ++ .wait .initError :: c.initSeq.flatMap (listSendFrame c)
    ++ [.wait .initError, .setState .ready]

/-- `display(black, red)` (R196), with the packed frames. -/
def listDisplay (c : Cfg) (black red : List Byte) : List Micro :=
  .wait .refreshTimeoutError :: .setState .displaying
    :: listPlaneWrite c c.cmdBlack black ++ listPlaneWrite c c.cmdRed red ++ listSendFrame c c.refresh
    ++ [.wait .refreshTimeoutError, .setState .ready]

/-- `displayBlack(black)` (R197), with the packed frame. -/
def listDisplayBlack (c : Cfg) (black : List Byte) : List Micro :=
  .wait .refreshTimeoutError :: .setState .displaying
    :: listPlaneWrite c c.cmdBlack black ++ listSendFrame c c.refresh
    ++ [.wait .refreshTimeoutError, .setState .ready]

/-- `sleep()` (R198). -/
def listSleep (c : Cfg) : List Micro :=
  .wait .refreshTimeoutError :: listSendFrame c c.sleep ++ [.setState .sleeping]

/-- `exit()` (R199). -/
def listExit (c : Cfg) : List Micro := listRelease c ++ [.setState .exited]

end Sys2Proof.Machine
end

