-- ==== Sys2Proof/Machine/Sequencer.lean ====
section
/-!
DEFINITION. The panel state machine (43_panel_driver.md): the table of legal transitions R193, the checks each surface
operation makes before its listing, and the meanings of `INIT`, `CLEAR`, `DISPLAY`, `DISPLAY_BLACK`, `SLEEP`, `EXIT` and
`WAIT_NOT_BUSY`.
-/

namespace Sys2Proof.Machine

/-- The six operations of table R193 whose legality depends on `PSTATE`. -/
inductive Checked where
  | init | clear | display | displayBlack | sleep | exit
deriving DecidableEq, Repr

/-- The table of R193: `none` is "ok", otherwise the error raised. `getbuffer` is ok in every state. -/
def checkState : Checked → PState → Option ResultCode
  | .init,         .uninitialized => none
  | .init,         .ready         => some .stateError
  | .init,         .displaying    => none
  | .init,         .sleeping      => some .stateError
  | .init,         .exited        => some .stateError
  | .clear,        .uninitialized => some .stateError
  | .clear,        .ready         => none
  | .clear,        .displaying    => none
  | .clear,        .sleeping      => some .stateError
  | .clear,        .exited        => some .stateError
  | .display,      .uninitialized => some .stateError
  | .display,      .ready         => none
  | .display,      .displaying    => none
  | .display,      .sleeping      => some .stateError
  | .display,      .exited        => some .stateError
  | .displayBlack, .uninitialized => some .stateError
  | .displayBlack, .ready         => none
  | .displayBlack, .displaying    => none
  | .displayBlack, .sleeping      => some .stateError
  | .displayBlack, .exited        => some .stateError
  | .sleep,        .uninitialized => some .stateError
  | .sleep,        .ready         => none
  | .sleep,        .displaying    => some .stateError
  | .sleep,        .sleeping      => some .stateError
  | .sleep,        .exited        => some .stateError
  | .exit,         .uninitialized => some .stateError
  | .exit,         .ready         => none
  | .exit,         .displaying    => none
  | .exit,         .sleeping      => none
  | .exit,         .exited        => some .alreadyExited

/-- What an operation's checks decide before anything touches a pin: an error, a refusal (a state no run of the host
reaches, log entry 9), or the listing to run. -/
inductive Plan where
  | fail (e : ResultCode)
  | refuse (r : Refusal)
  | run (listing : List Micro)
deriving DecidableEq, Repr

/-- A listing that uses the bus runs while the handle is held (40_bus_transport.md R130). -/
def planOnBus (s : State) (listing : List Micro) : Plan :=
  if s.owned then .run listing else .refuse .busNotOwned

/-- `init()` (R194): from Uninitialized it will acquire, whose precondition is `OWNED = 0` (R137). -/
def planInit (s : State) : Plan :=
  match checkState .init s.pstate with
  | some e => .fail e
  | none =>
    if s.pstate = .uninitialized then
      if s.owned then .refuse .busAlreadyOwned else .run (listInit s.cfg)
    else planOnBus s (listInit s.cfg)

/-- The checks of `display` (R196, R271): the state, then the black plane, then the red. `clear` shares them (R195). -/
def planTwoPlanes (op : Checked) (black red : Plane) (s : State) : Plan :=
  match checkState op s.pstate with
  | some e => .fail e
  | none =>
    match pack s.cfg black with
    | none => .fail .dimensionError
    | some fb =>
      match pack s.cfg red with
      | none => .fail .dimensionError
      | some fr => planOnBus s (listDisplay s.cfg fb fr)

/-- `clear()` (R195): `display(allInactive(), allInactive())`. -/
def planClear (s : State) : Plan := planTwoPlanes .clear (allInactive s.cfg) (allInactive s.cfg) s

/-- `display(black, red)` (R196). -/
def planDisplay (black red : Plane) (s : State) : Plan := planTwoPlanes .display black red s

/-- `displayBlack(black)` (R197). -/
def planDisplayBlack (black : Plane) (s : State) : Plan :=
  match checkState .displayBlack s.pstate with
  | some e => .fail e
  | none =>
    match pack s.cfg black with
    | none => .fail .dimensionError
    | some fb => planOnBus s (listDisplayBlack s.cfg fb)

/-- `sleep()` (R198). -/
def planSleep (s : State) : Plan :=
  match checkState .sleep s.pstate with
  | some e => .fail e
  | none => planOnBus s (listSleep s.cfg)

/-- `exit()` (R199). -/
def planExit (s : State) : Plan :=
  match checkState .exit s.pstate with
  | some e => .fail e
  | none => planOnBus s (listExit s.cfg)

/-- A surface operation run to its end (44_surface_api.md R241; log entry 3). -/
def runPlan (p : Plan) (s : State) : Host.Outcome State Fault Refusal :=
  match p with
  | .fail e => .next (endRaised e s)
  | .refuse r => .refused r
  | .run listing => .next (endSurface (runList listing s))

/-- `INIT` (R194). -/
def execInit (s : State) : Host.Outcome State Fault Refusal := runPlan (planInit s) s

/-- `CLEAR` (R195). -/
def execClear (s : State) : Host.Outcome State Fault Refusal := runPlan (planClear s) s

/-- `DISPLAY` (R196). -/
def execDisplay (black red : Plane) (s : State) : Host.Outcome State Fault Refusal :=
  runPlan (planDisplay black red s) s

/-- `DISPLAY_BLACK` (R197). -/
def execDisplayBlack (black : Plane) (s : State) : Host.Outcome State Fault Refusal :=
  runPlan (planDisplayBlack black s) s

/-- `SLEEP` (R198). -/
def execSleep (s : State) : Host.Outcome State Fault Refusal := runPlan (planSleep s) s

/-- `EXIT` (R199). -/
def execExit (s : State) : Host.Outcome State Fault Refusal := runPlan (planExit s) s

/-- A layer operation that uses the bus: refused while the handle is not held (R130). -/
def onBus (s : State) (o : Host.Outcome State Fault Refusal) : Host.Outcome State Fault Refusal :=
  if s.owned then o else .refused .busNotOwned

/-- The end of a direct `WaitNotBusy()` (R190): it returns `ready` or `timeout`, and raises no timeout error itself. -/
def endWait : Waited → State
  | .interrupted s => endRaised .interrupted s
  | .ready s => present .ok .ready s
  | .timeout s => present .ok .timeout s

/-- `WAIT_NOT_BUSY` (R190). -/
def execWaitNotBusy (s : State) : Host.Outcome State Fault Refusal :=
  onBus s (.next (endWait (waitNotBusy s)))

end Sys2Proof.Machine
end

