-- ==== Sys2Proof/Machine/Framer.lean ====
section
/-!
DEFINITION. The framer's layer operations (41_command_framer.md), called directly by a test harness, and the two formats
that are frames going out on the wire (30_encoding.md R100, R103) or an entry of a configuration table (R104): log
entries 7 and 8.
-/

namespace Sys2Proof.Machine

/-- `SEND_COMMAND` (R151). -/
def execSendCommand (opcode : Byte) (s : State) : Host.Outcome State Fault Refusal :=
  onBus s (.next (endLayer .none (runList (listSendCommand s.cfg opcode) s)))

/-- `SEND_DATA` (R152): the context is checked "before anything else", and an empty sequence with a context sends
nothing, so only the remaining case reaches the bus. -/
def execSendData (bytes : List Byte) (s : State) : Host.Outcome State Fault Refusal :=
  if !hasContext s || bytes == [] then .next (endLayer .none (runList (listSendData bytes) s))
  else onBus s (.next (endLayer .none (runList (listSendData bytes) s)))

/-- `SEND_FRAME` (R153). -/
def execSendFrame (frame : CommandFrame) (s : State) : Host.Outcome State Fault Refusal :=
  onBus s (.next (endLayer .none (runList (listSendFrame s.cfg frame) s)))

/-- `WIRE_CMDFRAME` (R100): the frame goes out, the command byte at the level "command", the data bytes at "data". -/
def execWireCmdFrame (frame : CommandFrame) (s : State) : Host.Outcome State Fault Refusal :=
  onBus s (.next (endLayer .none (runList (listSendFrame s.cfg frame) s)))

/-- The bytes are a plane write (R103): one of the two plane commands, and a PackedFrame of the panel's dimensions,
exactly `FRAME_LEN` bytes with inactive padding (R106). -/
def isPlaneWrite (c : Cfg) (op : Byte) (frame : List Byte) : Bool :=
  (op == c.cmdBlack || op == c.cmdRed) && isPackedFrame c.width.val c.height.val frame

/-- `WIRE_PLANEWRITE` (R103): the plane write goes out; there is no partial frame (20_memory.md R83). -/
def execWirePlaneWrite (op : Byte) (frame : List Byte) (s : State) : Host.Outcome State Fault Refusal :=
  if isPlaneWrite s.cfg op frame then onBus s (.next (endLayer .none (runList (listPlaneWrite s.cfg op frame) s)))
  else .refused .notAPlaneWrite

/-- `CFG_FRAME` (R104): the sequencer runs one entry of a configuration table, its "program" (20_memory.md R92), as the
body of `init`'s loop does (43_panel_driver.md R194). -/
def execCfgFrame (frame : CommandFrame) (s : State) : Host.Outcome State Fault Refusal :=
  onBus s (.next (endLayer .none (runList (listSendFrame s.cfg frame) s)))

end Sys2Proof.Machine
end

