-- ==== Sys2Proof/Machine/Packer.lean ====
section
/-!
DEFINITION. The packer's operations (42_frame_packer.md), pure functions that read and write no register, pin or `TRACE`
(R173): only the port's answer changes. And one packed byte (30_encoding.md R106, R107).
-/

namespace Sys2Proof.Machine

/-- `PACK` (R171). Called directly it answers `DimensionError` and writes no register (R173): log entry 7. -/
def execPack (plane : Plane) (s : State) : Host.Outcome State Fault Refusal :=
  match pack s.cfg plane with
  | some frame => .next (present .ok (.bytes frame) s)
  | none => .next (present .dimensionError .none s)

/-- `PACK_RAW` (R170). -/
def execPackRaw (plane : Plane) (s : State) : Host.Outcome State Fault Refusal :=
  .next (present .ok (.bytes (packRaw plane)) s)

/-- `ALL_INACTIVE` (R172). -/
def execAllInactive (s : State) : Host.Outcome State Fault Refusal :=
  .next (present .ok (.plane (allInactive s.cfg)) s)

/-- `PACKED_BYTE` (30_encoding.md R106, R107): eight cells, left to right, make one byte. Log entry 8. -/
def execPackedByte (a b c d e f g h : Bit) (s : State) : Host.Outcome State Fault Refusal :=
  .next (present .ok (.byte (cellsByte a b c d e f g h)) s)

end Sys2Proof.Machine
end

