-- ==== Sys2Proof/Machine/Surface.lean ====
section
/-!
DEFINITION. The surface operation that forwards to nothing: `GETBUFFER` (44_surface_api.md R243).
-/

namespace Sys2Proof.Machine

/-- `GETBUFFER` (R243): "a pure conversion with no side effects", legal in every state; not even `RES` is written. -/
def execGetbuffer (image : Image) (s : State) : Host.Outcome State Fault Refusal :=
  .next (present .ok (.plane (monoPlane image)) s)

end Sys2Proof.Machine
end

