-- ==== Sys2Proof/Machine/Transport.lean ====
section
/-!
DEFINITION. The transport's layer operations (40_bus_transport.md), called directly by a test harness: log entry 7.
-/

namespace Sys2Proof.Machine

/-- `WRITE_BYTES` (R131). -/
def execWriteBytes (data : List Byte) (s : State) : Host.Outcome State Fault Refusal :=
  onBus s (.next (endLayer .none (writeBytes data s)))

/-- `READ_BUSY` (R133): returns `true` when the controller is busy. -/
def execReadBusy (s : State) : Host.Outcome State Fault Refusal :=
  onBus s (.next (endLayer (.bool (busyNow s)) (.ok (readBusyLine s))))

/-- `SET_GPIO` (R134). -/
def execSetGpio (line : GpioLine) (level : Level) (s : State) : Host.Outcome State Fault Refusal :=
  onBus s (.next (endLayer .none (.ok (setGpio line level s))))

/-- `RESET` (R136). -/
def execReset (s : State) : Host.Outcome State Fault Refusal :=
  onBus s (.next (endLayer .none (runList (listReset s.cfg) s)))

/-- `DELAY` (R135). -/
def execDelay (ticks : Nat) (s : State) : Host.Outcome State Fault Refusal :=
  onBus s (.next (endLayer .none (delay ticks s)))

/-- `ACQUIRE` (R137), whose precondition is `OWNED = 0`. -/
def execAcquire (s : State) : Host.Outcome State Fault Refusal :=
  if s.owned then .refused .busAlreadyOwned else .next (endLayer .none (.ok (acquire s)))

/-- `RELEASE` (R138). -/
def execRelease (s : State) : Host.Outcome State Fault Refusal :=
  onBus s (.next (endLayer .none (.ok (release s))))

end Sys2Proof.Machine
end

