-- ==== Sys2Proof/Machine/Dispatch.lean ====
section
/-!
DEFINITION. The dispatch: one arm for each constructor of `Instr`, in the order of spec/opcode_table.json.
-/

namespace Sys2Proof.Machine

def exec (i : Instr) (s : State) : Host.Outcome State Fault Refusal :=
  match i with
  | .init => Sys2Proof.Machine.execInit s
  | .clear => Sys2Proof.Machine.execClear s
  | .display black red => Sys2Proof.Machine.execDisplay black red s
  | .displayBlack black => Sys2Proof.Machine.execDisplayBlack black s
  | .sleep => Sys2Proof.Machine.execSleep s
  | .exit => Sys2Proof.Machine.execExit s
  | .getbuffer image => Sys2Proof.Machine.execGetbuffer image s
  | .writeBytes data => Sys2Proof.Machine.execWriteBytes data s
  | .readBusy => Sys2Proof.Machine.execReadBusy s
  | .setGpio line level => Sys2Proof.Machine.execSetGpio line level s
  | .reset => Sys2Proof.Machine.execReset s
  | .delay ticks => Sys2Proof.Machine.execDelay ticks s
  | .acquire => Sys2Proof.Machine.execAcquire s
  | .release => Sys2Proof.Machine.execRelease s
  | .sendCommand opcode => Sys2Proof.Machine.execSendCommand opcode s
  | .sendData bytes => Sys2Proof.Machine.execSendData bytes s
  | .sendFrame frame => Sys2Proof.Machine.execSendFrame frame s
  | .pack plane => Sys2Proof.Machine.execPack plane s
  | .packRaw plane => Sys2Proof.Machine.execPackRaw plane s
  | .allInactive => Sys2Proof.Machine.execAllInactive s
  | .waitNotBusy => Sys2Proof.Machine.execWaitNotBusy s
  | .wireCmdFrame frame => Sys2Proof.Machine.execWireCmdFrame frame s
  | .wirePlaneWrite op frame => Sys2Proof.Machine.execWirePlaneWrite op frame s
  | .packedByte a b c d e f g h => Sys2Proof.Machine.execPackedByte a b c d e f g h s
  | .cfgFrame frame => Sys2Proof.Machine.execCfgFrame frame s

end Sys2Proof.Machine
end

