-- ==== Sys2Proof/Machine/Port.lean ====
section
/-!
DEFINITION. The port: what one action of the host does while the block is idle, and one listing position of an operation
in progress, with block reset able to strike between positions (10_state.md R36, R57; 70_reset_and_hazards.md R301).
-/

namespace Sys2Proof.Machine

/-- The refusal that bytes spelling no operation get (30_encoding.md R114; R134; log entries 6 and 18). -/
def refusalOf : DecodeError → Refusal
  | .reservedCode code => .reservedOpCode code
  | .truncated => .malformedOperands
  | .notAnOutputLine line => .notAnOutputLine line
  | .badLevel _ => .malformedOperands
  | .nonMinimalNumber => .malformedOperands
  | .badPadding => .malformedOperands

/-! ### An operation run position by position -/

/-- The state with the running operation's remaining steps. -/
def atPosition (rest : List Micro) (s : State) : State := { s with upc := .running rest }

/-- The state with no operation in progress. -/
def atIdle (s : State) : State := { s with upc := .idle }

/-- The operation's checks are made; its listing begins at the first position, or it has ended already. -/
def beginPlan (p : Plan) (s : State) : Host.Outcome State Fault Refusal :=
  match p with
  | .fail e => .next (endRaised e s)
  | .refuse r => .refused r
  | .run listing => .next (atPosition listing s)

/-- Begin a surface operation; `getbuffer` has no listing and is done at once. -/
def beginOp (i : Instr) (s : State) : Host.Outcome State Fault Refusal :=
  match i with
  | .init => beginPlan (planInit s) s
  | .clear => beginPlan (planClear s) s
  | .display black red => beginPlan (planDisplay black red s) s
  | .displayBlack black => beginPlan (planDisplayBlack black s) s
  | .sleep => beginPlan (planSleep s) s
  | .exit => beginPlan (planExit s) s
  | .getbuffer image => execGetbuffer image s
  | .writeBytes _ => .refused .layerOpOnHostPort
  | .readBusy => .refused .layerOpOnHostPort
  | .setGpio _ _ => .refused .layerOpOnHostPort
  | .reset => .refused .layerOpOnHostPort
  | .delay _ => .refused .layerOpOnHostPort
  | .acquire => .refused .layerOpOnHostPort
  | .release => .refused .layerOpOnHostPort
  | .sendCommand _ => .refused .layerOpOnHostPort
  | .sendData _ => .refused .layerOpOnHostPort
  | .sendFrame _ => .refused .layerOpOnHostPort
  | .pack _ => .refused .layerOpOnHostPort
  | .packRaw _ => .refused .layerOpOnHostPort
  | .allInactive => .refused .layerOpOnHostPort
  | .waitNotBusy => .refused .layerOpOnHostPort
  | .wireCmdFrame _ => .refused .layerOpOnHostPort
  | .wirePlaneWrite _ _ => .refused .layerOpOnHostPort
  | .packedByte _ _ _ _ _ _ _ _ => .refused .layerOpOnHostPort
  | .cfgFrame _ => .refused .layerOpOnHostPort

/-- After one step of the listing: the next position, or the operation's end by an error. -/
def afterMicro (rest : List Micro) : Run → State
  | .ok s => atPosition rest s
  | .raised e s => atIdle (endRaised e s)

/-- One position: a wait is taken sample by sample and delay by delay (43_panel_driver.md R190), `K` counting; every
other step whole. -/
def microStep (m : Micro) (rest : List Micro) (s : State) : State :=
  match m with
  | .wait onTimeout => atPosition (.sample onTimeout :: rest) (clearK s)
  | .sample onTimeout =>
    match sample s with
    | .interrupted t => atIdle (endRaised .interrupted t)
    | .ready t => atPosition rest t
    | .busy t =>
      if samplesLeft s = 0 then atIdle (endRaised onTimeout t) else atPosition (.pollDelay onTimeout :: rest) t
  | .pollDelay onTimeout => afterMicro (.sample onTimeout :: rest) (delay s.cfg.tPoll s)
  | .setGpio line level => afterMicro rest (runMicro (.setGpio line level) s)
  | .writeBytes data => afterMicro rest (runMicro (.writeBytes data) s)
  | .delay ticks => afterMicro rest (runMicro (.delay ticks) s)
  | .setMode m => afterMicro rest (runMicro (.setMode m) s)
  | .needContext => afterMicro rest (runMicro .needContext s)
  | .dataLine => afterMicro rest (runMicro .dataLine s)
  | .acquireIfUninitialized => afterMicro rest (runMicro .acquireIfUninitialized s)
  | .letGo => afterMicro rest (runMicro .letGo s)
  | .setState p => afterMicro rest (runMicro (.setState p) s)

/-- The operation in progress goes on by one position; past the last it ends with `OK`. A position that uses the bus
has no meaning while the handle is not held (40_bus_transport.md R130; no run of the host reaches one). -/
def advance (listing : List Micro) (s : State) : Host.Outcome State Fault Refusal :=
  match listing with
  | [] => .next (atIdle (endSurfaceOk s))
  | m :: rest => if needsBus m && !s.owned then .refused .busNotOwned else .next (microStep m rest s)

/-- One step while an operation is in progress. The host is blocked (R211): only the reset input reaches the block
(R57). A second operation, a harness call or a status read presented now is refused (R325, R46). -/
def runningStep (listing : List Micro) (s : State) : Host.Outcome State Fault Refusal :=
  match s.host with
  | [] => advance listing s
  | .await :: _ => advance listing s
  | .blockReset 0 :: later => .next (blockReset { s with host := later })
  | .blockReset (n + 1) :: later => advance listing { s with host := .blockReset n :: later }
  | .op _ :: _ => .refused .portBusy
  | .begin _ :: _ => .refused .portBusy
  | .harness _ _ :: _ => .refused .portBusy
  | .readStatus _ :: _ => .refused .portBusy

/-! ### One action while the block is idle -/

/-- What a run of decoded bytes on the host port does: only the seven surface operations are there (R240, R247). -/
def onHostPort (d : Dec Instr) (go : Instr → Host.Outcome State Fault Refusal) : Host.Outcome State Fault Refusal :=
  match d with
  | .error e => .refused (refusalOf e)
  | .ok (i, _) => if isSurface i then go i else .refused .layerOpOnHostPort

/-- A direct call by a test harness (92_eei_decisions.md D30). -/
def harnessCall (d : Dec Instr) (s : State) : Host.Outcome State Fault Refusal :=
  match d with
  | .error e => .refused (refusalOf e)
  | .ok (i, _) => exec i s

/-- One action of the host, already taken from the script. -/
def hostStep (a : HostAction) (s : State) : Host.Outcome State Fault Refusal :=
  match a with
  | .op bytes => onHostPort (decode .op bytes) fun i => exec i s
  | .begin bytes => onHostPort (decode .op bytes) fun i => beginOp i s
  | .await => .next s
  | .harness format bytes => harnessCall (decode format bytes) s
  | .readStatus r => .next (readStatus r s)
  | .blockReset _ => .next (blockReset s)

/-- One step with no operation in progress: the host's next action, else nothing ("nothing runs on its own after reset",
70_reset_and_hazards.md R300). -/
def idleStep (s : State) : Host.Outcome State Fault Refusal :=
  match s.host with
  | [] => .next s
  | a :: later => hostStep a { s with host := later }

/-- Where an operation's bytes are presented: the host port for a surface code and for a reserved one, the harness for a
layer code (R113, R114). -/
def presented (bytes : List Byte) : HostAction :=
  match decode .op bytes with
  | .error _ => .op bytes
  | .ok (i, _) => if isSurface i then .op bytes else .harness .op bytes

end Sys2Proof.Machine
end

