-- ==== Sys2Proof/Machine/Step.lean ====
section
/-!
DEFINITION. One step of the block: the operation in progress by one position, else the host's next action.
-/

namespace Sys2Proof.Machine

/-- One step (R323): the state alone says which agent moves. -/
def step (s : State) : Host.Outcome State Fault Refusal :=
  match s.upc with
  | .running listing => runningStep listing s
  | .idle => idleStep s

/-- The state with the operation of a table word presented, so that the next step runs it: log entry 4. -/
def State.withFetchWord (s : State) (nbits w : Nat) : State :=
  { s with upc := .idle, host := presented (tableBytes nbits w) :: s.host }

end Sys2Proof.Machine
end

