-- ==== Sys2Proof/Safety.lean ====
section
/-!
DEFINITION. The terms claims are made in: quiet environments, the events a frame or an operation puts on the wire
(30_encoding.md R100), the invariants of 10_state.md R55, the red plane's last-written content (R52), and how a run ends
(70_reset_and_hazards.md R324).
-/

namespace Sys2Proof.Machine

/-! ### The environment -/

/-- The next `n` draws of each kind are quiet: the busy line reads ready, every write succeeds, no interrupt comes. -/
abbrev QuietFor (n : Nat) (s : State) : Prop :=
  ∀ j < n, busyAt s.env j ≠ s.cfg.busyActive ∧ spiAt s.env j = true ∧ intrAt s.env j = false

/-- The busy line reads busy at draws `from` to `from + n - 1`. -/
abbrev BusyFor (start n : Nat) (s : State) : Prop :=
  ∀ j < n, busyAt s.env (start + j) = s.cfg.busyActive

/-- No interrupt at the next `n` wait points. -/
abbrev NoInterruptFor (n : Nat) (s : State) : Prop := ∀ j < n, intrAt s.env j = false

/-- The next `n` bus writes succeed. -/
abbrev WritesSucceedFor (n : Nat) (s : State) : Prop := ∀ j < n, spiAt s.env j = true

/-! ### What goes over the wire -/

/-- The events of a command byte (R100; 41_command_framer.md R151). -/
def commandEvents (c : Cfg) (op : Byte) : List Event := [.gpio .dc c.dcCmd, .spi c.dcCmd [op]]

/-- The events of the data after a command byte: none for no data (R100). -/
def dataEvents (c : Cfg) (data : List Byte) : List Event :=
  if data = [] then [] else [.gpio .dc (dcData c), .spi (dcData c) data]

/-- The events of a CommandFrame on the wire (R100). -/
def frameEvents (c : Cfg) (f : CommandFrame) : List Event := commandEvents c f.op ++ dataEvents c f.data

/-- How many bus writes a CommandFrame is (R100). -/
def writesOf (f : CommandFrame) : Nat := if f.data = [] then 1 else 2

/-- `MODE` after a CommandFrame (41_command_framer.md R153). -/
def modeAfter (f : CommandFrame) : Mode := if f.data = [] then .command else .data

/-- The data/command line after a CommandFrame (R153). -/
def dcAfter (c : Cfg) (f : CommandFrame) : Level := if f.data = [] then c.dcCmd else dcData c

/-- The state after a CommandFrame has gone out (R100, R153). -/
def afterFrame (f : CommandFrame) (s : State) : State :=
  { s with
    mode := modeAfter f
    pinDc := dcAfter s.cfg f
    pinCs := !s.cfg.csActive
    trace := s.trace ++ frameEvents s.cfg f
    env := advanceEnv s.env 0 (writesOf f) 0 }

/-- The state after the frames of a command table have gone out, in order. -/
def afterFrames (fs : List CommandFrame) (s : State) : State := fs.foldl (fun s f => afterFrame f s) s

/-- How many bus writes the frames of a command table are. -/
def writesOfAll (fs : List CommandFrame) : Nat := (fs.map writesOf).sum

/-- The events of the controller's reset pulse (40_bus_transport.md R136). -/
def resetEvents (c : Cfg) : List Event :=
  [.gpio .rst c.rstActive, .delay c.tRstPulse, .gpio .rst (!c.rstActive), .delay c.tRstSettle]

/-- `EvState(q)` when `PSTATE` changes from `p` to `q` (43_panel_driver.md R200). -/
def stateEvents (p q : PState) : List Event := if p = q then [] else [.pstate q]

/-- The events of a wait that reads busy `n` times and then ready (43_panel_driver.md R190). -/
def waitEvents (c : Cfg) : Nat → List Event
  | 0 => [.busy false]
  | n + 1 => .busy true :: .delay c.tPoll :: waitEvents c n

/-- The events of a wait whose `n + 1` samples all read busy. -/
def timeoutEvents (c : Cfg) : Nat → List Event
  | 0 => [.busy true]
  | n + 1 => .busy true :: .delay c.tPoll :: timeoutEvents c n

/-- The events of the release path (40_bus_transport.md R138). -/
def releaseEvents (c : Cfg) : List Event := [.gpio .rst c.safeRst, .gpio .dc c.safeDc, .release]

/-- The events of an untroubled `display` from state `p` with the packed frames (43_panel_driver.md R196). -/
def displayEvents (c : Cfg) (p : PState) (black red : List Byte) : List Event :=
  .busy false :: stateEvents p .displaying
    ++ frameEvents c ⟨c.cmdBlack, black⟩ ++ frameEvents c ⟨c.cmdRed, red⟩ ++ frameEvents c c.refresh
    ++ [.busy false, .pstate .ready]

/-- The events of an untroubled `displayBlack` (R197). -/
def displayBlackEvents (c : Cfg) (p : PState) (black : List Byte) : List Event :=
  .busy false :: stateEvents p .displaying
    ++ frameEvents c ⟨c.cmdBlack, black⟩ ++ frameEvents c c.refresh
    ++ [.busy false, .pstate .ready]

/-- The events of an untroubled `init` after the handle is held (R194). -/
def initEvents (c : Cfg) : List Event :=
  resetEvents c ++ .busy false :: c.initSeq.flatMap (frameEvents c) ++ [.busy false, .pstate .ready]

/-- A transaction, successful or failed, that carries the command byte `op`. -/
def carriesCommand (c : Cfg) (op : Byte) : Event → Bool
  | .spi dc data => dc == c.dcCmd && data == [op]
  | .spiFail dc data => dc == c.dcCmd && data == [op]
  | .acquire => false
  | .gpio _ _ => false
  | .busy _ => false
  | .delay _ => false
  | .release => false
  | .pstate _ => false

/-- A transaction on the bus, successful or failed. -/
def isWrite : Event → Bool
  | .spi _ _ => true
  | .spiFail _ _ => true
  | .acquire => false
  | .gpio _ _ => false
  | .busy _ => false
  | .delay _ => false
  | .release => false
  | .pstate _ => false

/-! ### The red plane's last-written content (R52) -/

/-- Reading a trace: whether the last command byte is `CFG.CMD_RED`, and the data of the last transaction under one. -/
structure RedView where
  underRed : Bool
  last     : Option (List Byte)
deriving DecidableEq, Repr

/-- One event more: a successful command transaction opens or closes the red context, a successful data transaction
under it is the red plane's content. Log entry 17. -/
def redStep (c : Cfg) (v : RedView) : Event → RedView
  | .spi dc data =>
    if dc = c.dcCmd then { v with underRed := data == [c.cmdRed] }
    else if v.underRed then { v with last := some data } else v
  | .spiFail _ _ => v
  | .acquire => v
  | .gpio _ _ => v
  | .busy _ => v
  | .delay _ => v
  | .release => v
  | .pstate _ => v

/-- "The red plane's last-written content" (R52); `none` when the trace has none. -/
def redContent (c : Cfg) (trace : List Event) : Option (List Byte) := (trace.foldl (redStep c) ⟨false, none⟩).last

/-! ### Invariants (R55) -/

/-- The states in which the block holds the handle (R37). -/
def holds : PState → Bool
  | .uninitialized => false
  | .ready => true
  | .displaying => true
  | .sleeping => true
  | .exited => false

/-- The invariants of the register set between operations, R55 (a) to (g). -/
structure Between (s : State) : Prop where
  /-- (a) -/
  driven_eq_owned : s.driven = s.owned
  /-- (b) -/
  owned_iff_holds : s.owned = holds s.pstate
  /-- (c) -/
  mode_none_of_free : s.owned = false → s.mode = .none
  /-- (d), data -/
  dc_of_data : s.owned = true → s.mode = .data → s.pinDc = dcData s.cfg
  /-- (d), command -/
  dc_of_command : s.owned = true → s.mode = .command → s.pinDc = s.cfg.dcCmd
  /-- (e) -/
  cs_parked : s.owned = true → s.pinCs = !s.cfg.csActive
  /-- (f) -/
  exited_of_fatal : s.fatal = true → s.pstate = .exited
  /-- (g) -/
  free_of_exited : s.pstate = .exited → s.owned = false

/-- What holds after every step whatever is done, inside an operation and under a harness too: (a), (e), and that a
fatal block is idle in Exited. -/
structure Always (s : State) : Prop where
  driven_eq_owned : s.driven = s.owned
  cs_parked : s.owned = true → s.pinCs = !s.cfg.csActive
  fatal_is_final : s.fatal = true → s.pstate = .exited ∧ s.upc = .idle

/-- An action on the host port that leaves no operation in progress. -/
def wholeAction : HostAction → Bool
  | .op _ => true
  | .begin _ => false
  | .await => true
  | .harness _ _ => false
  | .readStatus _ => true
  | .blockReset _ => true

/-- The host presents whole operations only, and no harness reaches below the port. -/
structure HostDriven (s : State) : Prop where
  idle : s.upc = .idle
  whole : ∀ a ∈ s.host, wholeAction a = true

/-- This step is a block reset: the host's next action is the reset input, and it strikes now, because no operation is in
progress or no position of it is left to run first (10_state.md R57; log entry 4). -/
def ResetStrikes (s : State) : Prop :=
  ∃ n later, s.host = .blockReset n :: later ∧ (s.upc = .idle ∨ n = 0)

/-! ### The end of a run (70_reset_and_hazards.md R324) -/

/-- A run is over: no operation in progress, and the host does nothing more. -/
def isOver (s : State) : Bool := s.upc == .idle && s.host == []

/-- A clean end: over, in Exited, without a fatal error. -/
def isCleanEnd (s : State) : Bool := isOver s && s.pstate == .exited && !s.fatal

end Sys2Proof.Machine
end

