-- ==== Sys2Proof/WellFormed.lean ====
section
/-!
DEFINITION. Which instructions are terms of the block's language: a plane or pixel source holds exactly `w * h` pixels
(20_memory.md R70). Every other operand is well-formed by its type.
-/

namespace Sys2Proof

/-- `p.px` is "a grid of `p.h * p.w` bits" (R70). -/
def Plane.wellFormed (p : Plane) : Bool := p.px.length == p.w * p.h

/-- The source has `h` rows of `w` pixels (44_surface_api.md R243). -/
def Image.wellFormed (i : Image) : Bool := i.px.length == i.w * i.h

/-- An instruction whose plane and source operands have the pixels their dimensions say. -/
def Instr.wellFormed : Instr → Bool
  | .init => true
  | .clear => true
  | .display black red => black.wellFormed && red.wellFormed
  | .displayBlack black => black.wellFormed
  | .sleep => true
  | .exit => true
  | .getbuffer image => image.wellFormed
  | .writeBytes _ => true
  | .readBusy => true
  | .setGpio _ _ => true
  | .reset => true
  | .delay _ => true
  | .acquire => true
  | .release => true
  | .sendCommand _ => true
  | .sendData _ => true
  | .sendFrame _ => true
  | .pack plane => plane.wellFormed
  | .packRaw plane => plane.wellFormed
  | .allInactive => true
  | .waitNotBusy => true
  | .wireCmdFrame _ => true
  | .wirePlaneWrite _ _ => true
  | .packedByte _ _ _ _ _ _ _ _ => true
  | .cfgFrame _ => true

end Sys2Proof
end

