-- ==== Sys2Proof/Certificates/Slice0/Obligations.lean ====
section
/-!
DEFINITION. The statements for the provers, in the terms of Safety.lean. Each docstring names the rule it formalises;
its witness is in Sys2Proof/Tests/Witness.lean. The field `answer` is where the model keeps what an operation returns
(30_encoding.md R109, 44_surface_api.md R241; log entry 5), and `env` what is left of the environment's answers
(00_scope.md R20; log entry 2); a layer operation run by `exec` is a direct call by a harness (log entry 7).
-/

open Sys2Proof Sys2Proof.Machine

/-! ### Reset and the step -/

/-- 10_state.md R56: the register values after block reset from any state, and at the model's first state; block reset
leaves `CFG` unchanged, and the busy line to whatever drives it. -/
def Obligations.ResetLeavesTheRegisterValues : Prop :=
  ∀ s : State,
    (∀ t ∈ [State.reset, State.resetWith s.cfg, blockReset s],
      t.pstate = .uninitialized ∧ t.owned = false ∧ t.driven = false ∧ t.mode = .none ∧ t.res = .ok ∧ t.fatal = false ∧
      t.k = 0 ∧ t.upc = .idle ∧ t.pinRst = false ∧ t.pinDc = false ∧ t.pinCs = false ∧ t.trace = []) ∧
    (blockReset s).cfg = s.cfg ∧ (blockReset s).env = s.env

/-- 70_reset_and_hazards.md R301, 10_state.md R57: block reset in mid-operation: the operation vanishes, no result is
presented, no event is emitted, the lines cease to be driven at once. That the reset input strikes is an action of the
host's script, the model's choice (log entry 4). -/
def Obligations.BlockResetCutsAnOperationShort : Prop :=
  ∀ (s : State) (listing : List Micro) (later : List HostAction),
    s.upc = .running listing → s.host = .blockReset 0 :: later →
    ∃ t, step s = .next t ∧ t.upc = .idle ∧ t.answer = none ∧ t.trace = [] ∧ t.driven = false ∧ t.owned = false ∧
      t.pinRst = false ∧ t.pinDc = false ∧ t.pinCs = false ∧ t.mode = .none ∧ t.pstate = .uninitialized ∧ t.res = .ok ∧
      t.fatal = false ∧ t.k = 0 ∧ t.cfg = s.cfg ∧ t.env = s.env ∧ t.host = later

/-- The step runs the decoded operation: on the host port a surface operation, from a harness any. The step takes the
action from the script (log entry 4) and does nothing else around `exec`; with no operation in progress and the host
silent it changes nothing ("nothing runs on its own after reset", 70_reset_and_hazards.md R300). -/
def Obligations.StepRunsTheDecodedOperation : Prop :=
  (∀ s : State, s.upc = .idle → s.host = [] → step s = .next s) ∧
  ∀ (s : State) (bytes rest : List Byte) (later : List HostAction) (i : Instr), s.upc = .idle →
    (s.host = .op bytes :: later → decode .op bytes = .ok (i, rest) → isSurface i = true →
      step s = exec i { s with host := later }) ∧
    (∀ f, s.host = .harness f bytes :: later → decode f bytes = .ok (i, rest) →
      step s = exec i { s with host := later })

/-- 30_encoding.md R114: on the host port a code of no operation, and a layer operation's code, are refused, whether the
operation is to run whole or position by position (log entries 3 and 18). -/
def Obligations.HostPortRefusesOtherCodes : Prop :=
  ∀ (s : State) (code : Byte) (operands : List Byte) (later : List HostAction), s.upc = .idle →
    ∀ a ∈ [HostAction.op (code :: operands), HostAction.begin (code :: operands)], s.host = a :: later →
    ((∀ i, opCode i ≠ some code) → step s = .refused (.reservedOpCode code)) ∧
    (∀ i rest, decode .op (code :: operands) = .ok (i, rest) → isSurface i = false →
      step s = .refused .layerOpOnHostPort)

/-- 70_reset_and_hazards.md R325 (an inference of the spec's own), 43_panel_driver.md R211: nothing else begins while an
operation runs; the refusal's name is the model's (log entry 19). -/
def Obligations.PortIsBusyWhileAnOperationRuns : Prop :=
  ∀ (s : State) (listing : List Micro) (a : HostAction) (later : List HostAction),
    s.upc = .running listing → s.host = a :: later → a ≠ .await → (∀ n, a ≠ .blockReset n) →
    step s = .refused .portBusy

/-! ### Encoding -/

/-- 30_encoding.md R110, R111: the table's 21 codes, as words with zero operands (in the model's serial form, log entry
6). -/
def Obligations.TableCodesDecode : Prop :=
  decodeTableWord 8 0x01 = some .init ∧ decodeTableWord 8 0x02 = some .clear ∧
  decodeTableWord 8 0x03 = some (.display ⟨0, 0, []⟩ ⟨0, 0, []⟩) ∧ decodeTableWord 8 0x04 = some (.displayBlack ⟨0, 0, []⟩) ∧
  decodeTableWord 8 0x05 = some .sleep ∧ decodeTableWord 8 0x06 = some .exit ∧
  decodeTableWord 8 0x07 = some (.getbuffer ⟨0, 0, []⟩) ∧ decodeTableWord 8 0x10 = some (.writeBytes []) ∧
  decodeTableWord 8 0x11 = some .readBusy ∧ decodeTableWord 8 0x12 = some (.setGpio .rst false) ∧
  decodeTableWord 8 0x13 = some .reset ∧ decodeTableWord 8 0x14 = some (.delay 0) ∧
  decodeTableWord 8 0x15 = some .acquire ∧ decodeTableWord 8 0x16 = some .release ∧
  decodeTableWord 8 0x20 = some (.sendCommand 0) ∧ decodeTableWord 8 0x21 = some (.sendData []) ∧
  decodeTableWord 8 0x22 = some (.sendFrame ⟨0, []⟩) ∧ decodeTableWord 8 0x30 = some (.pack ⟨0, 0, []⟩) ∧
  decodeTableWord 8 0x31 = some (.packRaw ⟨0, 0, []⟩) ∧ decodeTableWord 8 0x32 = some .allInactive ∧
  decodeTableWord 8 0x40 = some .waitNotBusy

/-- Decoding undoes encoding for every well-formed instruction, whatever bytes follow where the format delimits itself.
The serial form of the operands is the model's choice (log entry 6). -/
def Obligations.DecodeUndoesEncode : Prop :=
  ∀ i : Instr, i.wellFormed = true →
    decode (formatOf i) (encode i) = .ok (i, []) ∧
    (formatOf i ≠ .wireCmdFrame → formatOf i ≠ .wirePlaneWrite →
      ∀ rest, decode (formatOf i) (encode i ++ rest) = .ok (i, rest))

/-- Encoding undoes decoding: bytes that decode are the encoding of a well-formed instruction, followed by the rest, so
no two byte sequences spell one instruction (log entry 6). -/
def Obligations.EncodeUndoesDecode : Prop :=
  ∀ (f : Format) (bs rest : List Byte) (i : Instr), decode f bs = .ok (i, rest) →
    i.wellFormed = true ∧ formatOf i = f ∧ bs = encode i ++ rest

/-! ### Transport -/

/-- 40_bus_transport.md R131. -/
def Obligations.WriteBytesIsOneTransaction : Prop :=
  ∀ (s : State) (data : List Byte), s.owned = true →
    exec (.writeBytes data) s =
      if data = [] then .next { s with answer := some ⟨.ok, .none⟩ }
      else if spiAt s.env 0 = true then
        .next { s with
          pinCs := !s.cfg.csActive, trace := s.trace ++ [.spi s.pinDc data], env := advanceEnv s.env 0 1 0
          answer := some ⟨.ok, .none⟩ }
      else
        .next { fatal .transportError { s with
            pinCs := !s.cfg.csActive, trace := s.trace ++ [.spiFail s.pinDc data], env := advanceEnv s.env 0 1 0 } with
          answer := some ⟨.transportError, .none⟩ }

/-- R133. -/
def Obligations.ReadBusySamplesTheLine : Prop :=
  ∀ s : State, s.owned = true →
    exec .readBusy s = .next { s with
      trace := s.trace ++ [.busy (busyAt s.env 0 == s.cfg.busyActive)], env := advanceEnv s.env 1 0 0
      answer := some ⟨.ok, .bool (busyAt s.env 0 == s.cfg.busyActive)⟩ }

/-- R134. -/
def Obligations.SetGpioWritesTheNamedLine : Prop :=
  ∀ (s : State) (level : Level), s.owned = true →
    exec (.setGpio .rst level) s = .next { s with
      pinRst := level, trace := s.trace ++ [.gpio .rst level], answer := some ⟨.ok, .none⟩ } ∧
    exec (.setGpio .dc level) s = .next { s with
      pinDc := level, trace := s.trace ++ [.gpio .dc level], answer := some ⟨.ok, .none⟩ }

/-- R135. -/
def Obligations.DelayIsAWaitPoint : Prop :=
  ∀ (s : State) (ticks : Nat), s.owned = true →
    exec (.delay ticks) s =
      if intrAt s.env 0 = true then
        .next { fatal .interrupted { s with env := advanceEnv s.env 0 0 1 } with answer := some ⟨.interrupted, .none⟩ }
      else
        .next { s with
          trace := s.trace ++ [.delay ticks], env := advanceEnv s.env 0 0 1, answer := some ⟨.ok, .none⟩ }

/-- R136: the pulse, and the interrupt at either of its delays. -/
def Obligations.ResetPulsesTheResetLine : Prop :=
  ∀ s : State, s.owned = true →
    exec .reset s =
      if intrAt s.env 0 = true then
        .next { fatal .interrupted { s with
            pinRst := s.cfg.rstActive, trace := s.trace ++ (resetEvents s.cfg).take 1, env := advanceEnv s.env 0 0 1 } with
          answer := some ⟨.interrupted, .none⟩ }
      else if intrAt s.env 1 = true then
        .next { fatal .interrupted { s with
            pinRst := !s.cfg.rstActive, trace := s.trace ++ (resetEvents s.cfg).take 3, env := advanceEnv s.env 0 0 2 } with
          answer := some ⟨.interrupted, .none⟩ }
      else
        .next { s with
          pinRst := !s.cfg.rstActive, mode := .none, trace := s.trace ++ resetEvents s.cfg
          env := advanceEnv s.env 0 0 2, answer := some ⟨.ok, .none⟩ }

/-- R137, under its precondition `OWNED = 0`. -/
def Obligations.AcquireTakesTheHandle : Prop :=
  ∀ s : State, s.owned = false → exec .acquire s = .next { s with
    owned := true, driven := true, pinRst := !s.cfg.rstActive, pinDc := s.cfg.dcCmd, pinCs := !s.cfg.csActive
    mode := .none, trace := s.trace ++ [.acquire], answer := some ⟨.ok, .none⟩ }

/-- R138. -/
def Obligations.ReleaseGivesUpTheHandle : Prop :=
  ∀ s : State, s.owned = true → exec .release s = .next { s with
    pinRst := s.cfg.safeRst, pinDc := s.cfg.safeDc, pinCs := !s.cfg.csActive, owned := false, driven := false
    mode := .none, trace := s.trace ++ [.gpio .rst s.cfg.safeRst, .gpio .dc s.cfg.safeDc, .release]
    answer := some ⟨.ok, .none⟩ }

/-- R130: no transport operation but `acquire` has a meaning while the handle is not held; and `acquire`, whose
precondition is `OWNED = 0` (R137), has none while it is: a refusal that is the model's choice (log entry 9). -/
def Obligations.TransportNeedsTheHandle : Prop :=
  ∀ (s : State) (data : List Byte) (line : GpioLine) (level : Level) (ticks : Nat), s.owned = false →
    exec (.writeBytes data) s = .refused .busNotOwned ∧ exec .readBusy s = .refused .busNotOwned ∧
    exec (.setGpio line level) s = .refused .busNotOwned ∧ exec .reset s = .refused .busNotOwned ∧
    exec (.delay ticks) s = .refused .busNotOwned ∧ exec .release s = .refused .busNotOwned ∧
    ∀ t : State, t.owned = true → exec .acquire t = .refused .busAlreadyOwned

/-! ### Framer -/

/-- 41_command_framer.md R151: the line always, then the byte, and `MODE` only if the write succeeded. -/
def Obligations.SendCommandSetsTheLineFirst : Prop :=
  ∀ (s : State) (opcode : Byte), s.owned = true →
    exec (.sendCommand opcode) s =
      if spiAt s.env 0 = true then
        .next { s with
          pinDc := s.cfg.dcCmd, pinCs := !s.cfg.csActive, mode := .command, env := advanceEnv s.env 0 1 0
          trace := s.trace ++ [.gpio .dc s.cfg.dcCmd, .spi s.cfg.dcCmd [opcode]], answer := some ⟨.ok, .none⟩ }
      else
        .next { fatal .transportError { s with
            pinDc := s.cfg.dcCmd, pinCs := !s.cfg.csActive, env := advanceEnv s.env 0 1 0
            trace := s.trace ++ [.gpio .dc s.cfg.dcCmd, .spiFail s.cfg.dcCmd [opcode]] } with
          answer := some ⟨.transportError, .none⟩ }

/-- R152: the context first, then emptiness, then the line only on the first data after a command. -/
def Obligations.SendDataTogglesOncePerCommand : Prop :=
  ∀ (s : State) (bytes : List Byte),
    (s.mode = .none → exec (.sendData bytes) s = .next { s with answer := some ⟨.protocolError, .none⟩ }) ∧
    (s.mode ≠ .none → exec (.sendData []) s = .next { s with answer := some ⟨.ok, .none⟩ }) ∧
    (s.owned = true → s.mode = .command → bytes ≠ [] → spiAt s.env 0 = true →
      exec (.sendData bytes) s = .next { s with
        pinDc := dcData s.cfg, pinCs := !s.cfg.csActive, mode := .data, env := advanceEnv s.env 0 1 0
        trace := s.trace ++ [.gpio .dc (dcData s.cfg), .spi (dcData s.cfg) bytes], answer := some ⟨.ok, .none⟩ }) ∧
    (s.owned = true → s.mode = .data → bytes ≠ [] → spiAt s.env 0 = true →
      exec (.sendData bytes) s = .next { s with
        pinCs := !s.cfg.csActive, env := advanceEnv s.env 0 1 0
        trace := s.trace ++ [.spi s.pinDc bytes], answer := some ⟨.ok, .none⟩ }) ∧
    (s.owned = true → s.mode = .command → bytes ≠ [] → spiAt s.env 0 = false →
      exec (.sendData bytes) s = .next { fatal .transportError { s with
          pinDc := dcData s.cfg, pinCs := !s.cfg.csActive, mode := .data, env := advanceEnv s.env 0 1 0
          trace := s.trace ++ [.gpio .dc (dcData s.cfg), .spiFail (dcData s.cfg) bytes] } with
        answer := some ⟨.transportError, .none⟩ }) ∧
    (s.owned = true → s.mode = .data → bytes ≠ [] → spiAt s.env 0 = false →
      exec (.sendData bytes) s = .next { fatal .transportError { s with
          pinCs := !s.cfg.csActive, env := advanceEnv s.env 0 1 0
          trace := s.trace ++ [.spiFail s.pinDc bytes] } with
        answer := some ⟨.transportError, .none⟩ })

/-- R153, 30_encoding.md R100: a frame sent by the framer, on the wire, or from a configuration table (the meaning of
the last two rows is the model's choice, log entry 8), goes out as its command byte and then its data; it ends with `OK`
or `TransportError` and never with `ProtocolError`. -/
def Obligations.FramesGoOutWhole : Prop :=
  ∀ (s : State) (f : CommandFrame), s.owned = true →
    ∀ i ∈ [Instr.sendFrame f, Instr.wireCmdFrame f, Instr.cfgFrame f],
      (WritesSucceedFor (writesOf f) s →
        exec i s = .next { s with
          mode := if f.data = [] then .command else .data
          pinDc := if f.data = [] then s.cfg.dcCmd else dcData s.cfg
          pinCs := !s.cfg.csActive
          env := advanceEnv s.env 0 (if f.data = [] then 1 else 2) 0
          trace := s.trace ++ [.gpio .dc s.cfg.dcCmd, .spi s.cfg.dcCmd [f.op]] ++
            (if f.data = [] then [] else [.gpio .dc (dcData s.cfg), .spi (dcData s.cfg) f.data])
          answer := some ⟨.ok, .none⟩ }) ∧
      ∃ t, exec i s = .next t ∧ (t.answer = some ⟨.ok, .none⟩ ∨ t.answer = some ⟨.transportError, .none⟩)

/-- 30_encoding.md R103, R106: a plane write is a frame whose command is one of the two plane commands and whose data is
the PackedFrame of a plane of the panel's dimensions; other bytes are none, and refused (the row's meaning is the model's
choice, log entry 8). -/
def Obligations.PlaneWritesCarryAWholeFrame : Prop :=
  ∀ (s : State) (op : Byte) (frame : List Byte), s.owned = true →
    ((op = s.cfg.cmdBlack ∨ op = s.cfg.cmdRed) →
      (∃ p : Plane, p.wellFormed = true ∧ p.w = s.cfg.width.val ∧ p.h = s.cfg.height.val ∧ packRaw p = frame) →
      WritesSucceedFor 2 s →
      exec (.wirePlaneWrite op frame) s = .next { s with
        mode := .data, pinDc := dcData s.cfg, pinCs := !s.cfg.csActive, env := advanceEnv s.env 0 2 0
        trace := s.trace ++
          [.gpio .dc s.cfg.dcCmd, .spi s.cfg.dcCmd [op], .gpio .dc (dcData s.cfg), .spi (dcData s.cfg) frame]
        answer := some ⟨.ok, .none⟩ }) ∧
    (¬ ((op = s.cfg.cmdBlack ∨ op = s.cfg.cmdRed) ∧
        ∃ p : Plane, p.wellFormed = true ∧ p.w = s.cfg.width.val ∧ p.h = s.cfg.height.val ∧ packRaw p = frame) →
      exec (.wirePlaneWrite op frame) s = .refused .notAPlaneWrite)

/-! ### Packer -/

/-- 42_frame_packer.md R174: the length law, for every plane and for every plane `pack` accepts. -/
def Obligations.PackedFramesHaveTheirLength : Prop :=
  (∀ p : Plane, (packRaw p).length = (p.w + 7) / 8 * p.h) ∧
  (∀ (c : Cfg) (p : Plane) (f : List Byte), pack c p = some f → f.length = (c.width.val + 7) / 8 * c.height.val)

/-- 30_encoding.md R107: byte `(r, j)` is the sum of its eight cells' weights, a cell past the scanline's end being 1.
-/
def Obligations.PackedBytesAreWeightedSums : Prop :=
  ∀ (p : Plane) (r j : Nat), p.wellFormed = true → r < p.h → j < (p.w + 7) / 8 →
    ∃ b, (packRaw p)[r * ((p.w + 7) / 8) + j]? = some b ∧
      b.toNat = ((List.range 8).map fun k =>
        (if 8 * j + k < p.w then p.px.getD (r * p.w + (8 * j + k)) false else true).toNat * 2 ^ (7 - k)).sum

/-- 42_frame_packer.md R178 (an inference of the spec's own): packing loses nothing. -/
def Obligations.PackingLosesNothing : Prop :=
  (∀ (p : Plane) (r c : Nat), p.wellFormed = true → r < p.h → c < p.w →
    ∃ b, (packRaw p)[r * ((p.w + 7) / 8) + c / 8]? = some b ∧ p.px[r * p.w + c]? = some (b.getLsbD (7 - c % 8))) ∧
  (∀ p q : Plane, p.wellFormed = true → q.wellFormed = true → p.w = q.w → p.h = q.h → packRaw p = packRaw q → p = q)

/-- 42_frame_packer.md R175, with the padding bits inactive (90_conflicts.md C10). -/
def Obligations.UniformPlanesPackUniformly : Prop :=
  ∀ p : Plane, p.wellFormed = true →
    ((∀ b ∈ p.px, b = true) → packRaw p = List.replicate ((p.w + 7) / 8 * p.h) 0xFF#8) ∧
    ((∀ b ∈ p.px, b = false) → 0 < p.w →
      packRaw p = (List.replicate p.h (List.replicate ((p.w + 7) / 8 - 1) 0x00#8 ++
        [if p.w % 8 = 0 then 0x00#8 else BitVec.ofNat 8 (2 ^ (8 - p.w % 8) - 1)])).flatten)

/-- 42_frame_packer.md R171. That a direct `pack` ending in `DimensionError` leaves `RES` as it was is the DESIGN CHOICE of
log entry 7. -/
def Obligations.PackChecksTheDimensions : Prop :=
  ∀ (s : State) (p : Plane),
    (p.w = s.cfg.width.val → p.h = s.cfg.height.val →
      exec (.pack p) s = .next { s with answer := some ⟨.ok, .bytes (packRaw p)⟩ }) ∧
    (p.w ≠ s.cfg.width.val ∨ p.h ≠ s.cfg.height.val →
      exec (.pack p) s = .next { s with answer := some ⟨.dimensionError, .none⟩ })

/-- 42_frame_packer.md R172; that the plane packs to `0xFF` bytes is an inference of the spec's own. -/
def Obligations.AllInactivePacksToOnes : Prop :=
  ∀ s : State,
    exec .allInactive s = .next { s with answer := some ⟨.ok, .plane
      ⟨s.cfg.width.val, s.cfg.height.val, List.replicate (s.cfg.width.val * s.cfg.height.val) true⟩⟩ } ∧
    pack s.cfg ⟨s.cfg.width.val, s.cfg.height.val, List.replicate (s.cfg.width.val * s.cfg.height.val) true⟩ =
      some (List.replicate ((s.cfg.width.val + 7) / 8 * s.cfg.height.val) 0xFF#8)

/-- R170, 30_encoding.md R106, R107: `PACK_RAW` and `PACKED_BYTE` (a format row, log entry 8) run in every state and
change only the answer. -/
def Obligations.PackRawAndPackedByteAnswer : Prop :=
  ∀ (s : State) (p : Plane) (a b c d e f g h : Bit),
    exec (.packRaw p) s = .next { s with answer := some ⟨.ok, .bytes (packRaw p)⟩ } ∧
    ∃ v : Byte, v.toNat = a.toNat * 2 ^ 7 + b.toNat * 2 ^ 6 + c.toNat * 2 ^ 5 + d.toNat * 2 ^ 4 + e.toNat * 2 ^ 3
        + f.toNat * 2 ^ 2 + g.toNat * 2 ^ 1 + h.toNat * 2 ^ 0 ∧
      exec (.packedByte a b c d e f g h) s = .next { s with answer := some ⟨.ok, .byte v⟩ }

/-! ### The sequencer -/

/-- 43_panel_driver.md R190: the wait ends at the first sample that reads ready, or after `N_POLL_MAX` that read busy.
-/
def Obligations.WaitNotBusyPollsTheLine : Prop :=
  ∀ s : State, s.owned = true →
    (∀ n, n < s.cfg.nPollMax.val → BusyFor 0 n s → busyAt s.env n ≠ s.cfg.busyActive → NoInterruptFor (2 * n + 1) s →
      exec .waitNotBusy s = .next { s with
        k := n, trace := s.trace ++ waitEvents s.cfg n, env := advanceEnv s.env (n + 1) 0 (2 * n + 1)
        answer := some ⟨.ok, .ready⟩ }) ∧
    (BusyFor 0 s.cfg.nPollMax.val s → NoInterruptFor (2 * s.cfg.nPollMax.val - 1) s →
      exec .waitNotBusy s = .next { s with
        k := s.cfg.nPollMax.val, trace := s.trace ++ timeoutEvents s.cfg (s.cfg.nPollMax.val - 1)
        env := advanceEnv s.env s.cfg.nPollMax.val 0 (2 * s.cfg.nPollMax.val - 1)
        answer := some ⟨.ok, .timeout⟩ })

/-- 40_bus_transport.md R141 in a wait: an interrupt at the `n`-th sample, or at the delay after it, ends the operation
before that sample or delay is performed. -/
def Obligations.WaitNotBusyIsInterruptible : Prop :=
  ∀ (s : State) (n : Nat), s.owned = true → n < s.cfg.nPollMax.val →
    (BusyFor 0 n s → NoInterruptFor (2 * n) s → intrAt s.env (2 * n) = true →
      exec .waitNotBusy s = .next { fatal .interrupted { s with
          k := n, trace := s.trace ++ (waitEvents s.cfg n).take (2 * n), env := advanceEnv s.env n 0 (2 * n + 1) } with
        answer := some ⟨.interrupted, .none⟩ }) ∧
    (n + 1 < s.cfg.nPollMax.val → BusyFor 0 (n + 1) s → NoInterruptFor (2 * n + 1) s → intrAt s.env (2 * n + 1) = true →
      exec .waitNotBusy s = .next { fatal .interrupted { s with
          k := n + 1, trace := s.trace ++ timeoutEvents s.cfg n, env := advanceEnv s.env (n + 1) 0 (2 * n + 2) } with
        answer := some ⟨.interrupted, .none⟩ })

/-- R194, R306, R206: `init` in a quiet environment. From Uninitialized it takes the handle, resets the controller,
sends the set-up sequence between two waits, and ends Ready; as re-init from Displaying it does the same without
`acquire`. -/
def Obligations.InitEndsReady : Prop :=
  ∀ s : State, QuietFor (4 + writesOfAll s.cfg.initSeq) s →
    (s.pstate = .uninitialized → s.owned = false →
      exec .init s = .next { s with
        pstate := .ready, owned := true, driven := true, res := .ok, k := 0
        pinRst := !s.cfg.rstActive
        pinDc := (s.cfg.initSeq.getLast?.map (dcAfter s.cfg)).getD s.cfg.dcCmd
        pinCs := !s.cfg.csActive
        mode := (s.cfg.initSeq.getLast?.map modeAfter).getD .none
        trace := s.trace ++ [.acquire] ++ initEvents s.cfg
        env := advanceEnv s.env 2 (writesOfAll s.cfg.initSeq) 4
        answer := some ⟨.ok, .none⟩ }) ∧
    (s.pstate = .displaying → s.owned = true → s.pinCs = !s.cfg.csActive →
      exec .init s = .next { s with
        pstate := .ready, res := .ok, k := 0
        pinRst := !s.cfg.rstActive
        pinDc := (s.cfg.initSeq.getLast?.map (dcAfter s.cfg)).getD s.pinDc
        mode := (s.cfg.initSeq.getLast?.map modeAfter).getD .none
        trace := s.trace ++ initEvents s.cfg
        env := advanceEnv s.env 2 (writesOfAll s.cfg.initSeq) 4
        answer := some ⟨.ok, .none⟩ })

/-- R196: `display` in a quiet environment sends both planes and the refresh frame between two waits, and ends Ready;
from Ready, or from Displaying as a retry. -/
def Obligations.DisplayEndsReady : Prop :=
  ∀ (s : State) (black red : Plane), (s.pstate = .ready ∨ s.pstate = .displaying) → s.owned = true →
    black.w = s.cfg.width.val → black.h = s.cfg.height.val → red.w = s.cfg.width.val → red.h = s.cfg.height.val →
    QuietFor 6 s →
    exec (.display black red) s = .next { s with
      pstate := .ready, res := .ok, k := 0
      pinDc := dcAfter s.cfg s.cfg.refresh, pinCs := !s.cfg.csActive, mode := modeAfter s.cfg.refresh
      trace := s.trace ++ displayEvents s.cfg s.pstate (packRaw black) (packRaw red)
      env := advanceEnv s.env 2 (4 + writesOf s.cfg.refresh) 2
      answer := some ⟨.ok, .none⟩ }

/-- R197: `displayBlack` in a quiet environment sends the black plane and the refresh frame only. -/
def Obligations.DisplayBlackEndsReady : Prop :=
  ∀ (s : State) (black : Plane), (s.pstate = .ready ∨ s.pstate = .displaying) → s.owned = true →
    black.w = s.cfg.width.val → black.h = s.cfg.height.val → QuietFor 4 s →
    exec (.displayBlack black) s = .next { s with
      pstate := .ready, res := .ok, k := 0
      pinDc := dcAfter s.cfg s.cfg.refresh, pinCs := !s.cfg.csActive, mode := modeAfter s.cfg.refresh
      trace := s.trace ++ displayBlackEvents s.cfg s.pstate (packRaw black)
      env := advanceEnv s.env 2 (2 + writesOf s.cfg.refresh) 2
      answer := some ⟨.ok, .none⟩ }

/-- R195: `clear` is `display` of two all-inactive planes in every state, never a `DimensionError`, and in a quiet
environment both its data transactions are `FRAME_LEN` bytes `0xFF`. -/
def Obligations.ClearDisplaysInactivePlanes : Prop :=
  ∀ s : State,
    exec .clear s = exec (.display (allInactive s.cfg) (allInactive s.cfg)) s ∧
    (∀ t, exec .clear s = .next t → t.answer ≠ some ⟨.dimensionError, .none⟩) ∧
    ((s.pstate = .ready ∨ s.pstate = .displaying) → s.owned = true → QuietFor 6 s →
      exec .clear s = .next { s with
        pstate := .ready, res := .ok, k := 0
        pinDc := dcAfter s.cfg s.cfg.refresh, pinCs := !s.cfg.csActive, mode := modeAfter s.cfg.refresh
        trace := s.trace ++ displayEvents s.cfg s.pstate
          (List.replicate ((s.cfg.width.val + 7) / 8 * s.cfg.height.val) 0xFF#8)
          (List.replicate ((s.cfg.width.val + 7) / 8 * s.cfg.height.val) 0xFF#8)
        env := advanceEnv s.env 2 (4 + writesOf s.cfg.refresh) 2
        answer := some ⟨.ok, .none⟩ })

/-- R198: `sleep` in a quiet environment: one gate, the sleep frame, no wait after it, and Sleeping with the handle
held. -/
def Obligations.SleepEndsSleeping : Prop :=
  ∀ s : State, s.pstate = .ready → s.owned = true → QuietFor 2 s →
    exec .sleep s = .next { s with
      pstate := .sleeping, res := .ok, k := 0
      pinDc := dcAfter s.cfg s.cfg.sleep, pinCs := !s.cfg.csActive, mode := modeAfter s.cfg.sleep
      trace := s.trace ++ .busy false :: frameEvents s.cfg s.cfg.sleep ++ [.pstate .sleeping]
      env := advanceEnv s.env 1 (writesOf s.cfg.sleep) 1
      answer := some ⟨.ok, .none⟩ }

/-- R199: `exit` from every state, whatever the environment answers. -/
def Obligations.ExitFromEveryState : Prop :=
  ∀ s : State,
    (s.pstate = .exited → exec .exit s = .next { s with res := .alreadyExited, answer := some ⟨.alreadyExited, .none⟩ }) ∧
    (s.pstate = .uninitialized → exec .exit s = .next { s with res := .stateError, answer := some ⟨.stateError, .none⟩ }) ∧
    ((s.pstate = .ready ∨ s.pstate = .displaying ∨ s.pstate = .sleeping) → s.owned = true →
      exec .exit s = .next { s with
        pstate := .exited, owned := false, driven := false, mode := .none, res := .ok
        pinRst := s.cfg.safeRst, pinDc := s.cfg.safeDc, pinCs := !s.cfg.csActive
        trace := s.trace ++ releaseEvents s.cfg ++ [.pstate .exited]
        answer := some ⟨.ok, .none⟩ })

/-- R193, 60_exceptions.md R262, R263: the whole table. The illegal cells raise `StateError` or `AlreadyExited` and
change `RES` alone; the legal cells, with the register set as it is between operations, end with another code. -/
def Obligations.OperationsOutOfStateFailFast : Prop :=
  ∀ (s : State) (black red : Plane) (image : Image),
    ((s.pstate = .ready ∨ s.pstate = .sleeping ∨ s.pstate = .exited) →
      exec .init s = .next { s with res := .stateError, answer := some ⟨.stateError, .none⟩ }) ∧
    ((s.pstate = .uninitialized ∨ s.pstate = .sleeping ∨ s.pstate = .exited) →
      ∀ i ∈ [Instr.clear, Instr.display black red, Instr.displayBlack black],
        exec i s = .next { s with res := .stateError, answer := some ⟨.stateError, .none⟩ }) ∧
    (s.pstate ≠ .ready → exec .sleep s = .next { s with res := .stateError, answer := some ⟨.stateError, .none⟩ }) ∧
    (s.pstate = .uninitialized →
      exec .exit s = .next { s with res := .stateError, answer := some ⟨.stateError, .none⟩ }) ∧
    (s.pstate = .exited →
      exec .exit s = .next { s with res := .alreadyExited, answer := some ⟨.alreadyExited, .none⟩ }) ∧
    (Between s → ∀ i,
      (i = .getbuffer image ∨
       (s.pstate = .uninitialized ∧ i = .init) ∨
       (s.pstate = .ready ∧ i ∈ [Instr.clear, Instr.display black red, Instr.displayBlack black, Instr.sleep, Instr.exit]) ∨
       (s.pstate = .displaying ∧
          i ∈ [Instr.init, Instr.clear, Instr.display black red, Instr.displayBlack black, Instr.exit]) ∨
       (s.pstate = .sleeping ∧ i = .exit)) →
      ∃ t a, exec i s = .next t ∧ t.answer = some a ∧ a.code ≠ .stateError ∧ a.code ≠ .alreadyExited)

/-- 60_exceptions.md R264: a plane of the wrong size is rejected before any hardware write or busy sample. -/
def Obligations.WrongPlanesAreRejectedFirst : Prop :=
  ∀ (s : State) (black red : Plane), (s.pstate = .ready ∨ s.pstate = .displaying) →
    (fits s.cfg black = false ∨ fits s.cfg red = false →
      exec (.display black red) s =
        .next { s with res := .dimensionError, answer := some ⟨.dimensionError, .none⟩ }) ∧
    (fits s.cfg black = false →
      exec (.displayBlack black) s =
        .next { s with res := .dimensionError, answer := some ⟨.dimensionError, .none⟩ })

/-- R192, 60_exceptions.md R266: a gate that times out ends the operation with nothing sent and `PSTATE` unchanged. -/
def Obligations.GateTimeoutSendsNothing : Prop :=
  ∀ (s : State) (black red : Plane) (i : Instr), s.owned = true →
    ((s.pstate = .ready ∨ s.pstate = .displaying) ∧ fits s.cfg black = true ∧ fits s.cfg red = true ∧
        i ∈ [Instr.clear, Instr.display black red, Instr.displayBlack black]
      ∨ s.pstate = .ready ∧ i = .sleep) →
    BusyFor 0 s.cfg.nPollMax.val s → NoInterruptFor (2 * s.cfg.nPollMax.val - 1) s →
    exec i s = .next { s with
      res := .refreshTimeoutError, k := s.cfg.nPollMax.val
      trace := s.trace ++ timeoutEvents s.cfg (s.cfg.nPollMax.val - 1)
      env := advanceEnv s.env s.cfg.nPollMax.val 0 (2 * s.cfg.nPollMax.val - 1)
      answer := some ⟨.refreshTimeoutError, .none⟩ }

/-- R192, R194, 60_exceptions.md R267: either wait of `init` times out, at its first call and as re-init from Displaying.
At the gate nothing of the set-up sequence has been sent, at the second wait all of it; the fatal path is taken. -/
def Obligations.InitTimeoutsAreFatal : Prop :=
  ∀ s : State, (s.pstate = .uninitialized ∧ s.owned = false ∨ s.pstate = .displaying ∧ s.owned = true) →
    (BusyFor 0 s.cfg.nPollMax.val s → NoInterruptFor (2 * s.cfg.nPollMax.val + 1) s →
      exec .init s = .next { s with
        pstate := .exited, owned := false, driven := false, mode := .none, fatal := true, res := .initError
        pinRst := s.cfg.safeRst, pinDc := s.cfg.safeDc, pinCs := !s.cfg.csActive, k := s.cfg.nPollMax.val
        trace := s.trace ++ (if s.pstate = .uninitialized then [.acquire] else []) ++ resetEvents s.cfg
          ++ timeoutEvents s.cfg (s.cfg.nPollMax.val - 1) ++ releaseEvents s.cfg ++ [.pstate .exited]
        env := advanceEnv s.env s.cfg.nPollMax.val 0 (2 * s.cfg.nPollMax.val + 1)
        answer := some ⟨.initError, .none⟩ }) ∧
    (busyAt s.env 0 ≠ s.cfg.busyActive → BusyFor 1 s.cfg.nPollMax.val s →
      WritesSucceedFor (writesOfAll s.cfg.initSeq) s → NoInterruptFor (2 * s.cfg.nPollMax.val + 2) s →
      exec .init s = .next { s with
        pstate := .exited, owned := false, driven := false, mode := .none, fatal := true, res := .initError
        pinRst := s.cfg.safeRst, pinDc := s.cfg.safeDc, pinCs := !s.cfg.csActive, k := s.cfg.nPollMax.val
        trace := s.trace ++ (if s.pstate = .uninitialized then [.acquire] else []) ++ resetEvents s.cfg
          ++ .busy false :: s.cfg.initSeq.flatMap (frameEvents s.cfg)
          ++ timeoutEvents s.cfg (s.cfg.nPollMax.val - 1) ++ releaseEvents s.cfg ++ [.pstate .exited]
        env := advanceEnv s.env (1 + s.cfg.nPollMax.val) (writesOfAll s.cfg.initSeq) (2 * s.cfg.nPollMax.val + 2)
        answer := some ⟨.initError, .none⟩ })

/-- 60_exceptions.md R266: the wait after the refresh command of `display`, `clear` or `displayBlack` times out: the plane
writes and the refresh frame have gone out, `PSTATE` stays Displaying and the handle held. -/
def Obligations.RefreshTimeoutLeavesDisplaying : Prop :=
  ∀ (s : State) (black red : Plane) (i : Instr) (writes : List CommandFrame),
    (i = .display black red ∧ fits s.cfg black = true ∧ fits s.cfg red = true ∧
        writes = [⟨s.cfg.cmdBlack, packRaw black⟩, ⟨s.cfg.cmdRed, packRaw red⟩]
      ∨ i = .clear ∧
        writes = [⟨s.cfg.cmdBlack, List.replicate ((s.cfg.width.val + 7) / 8 * s.cfg.height.val) 0xFF#8⟩,
          ⟨s.cfg.cmdRed, List.replicate ((s.cfg.width.val + 7) / 8 * s.cfg.height.val) 0xFF#8⟩]
      ∨ i = .displayBlack black ∧ fits s.cfg black = true ∧ writes = [⟨s.cfg.cmdBlack, packRaw black⟩]) →
    (s.pstate = .ready ∨ s.pstate = .displaying) → s.owned = true →
    busyAt s.env 0 ≠ s.cfg.busyActive → BusyFor 1 s.cfg.nPollMax.val s → WritesSucceedFor 6 s →
    NoInterruptFor (2 * s.cfg.nPollMax.val) s →
    exec i s = .next { s with
      pstate := .displaying, res := .refreshTimeoutError, k := s.cfg.nPollMax.val
      pinDc := dcAfter s.cfg s.cfg.refresh, pinCs := !s.cfg.csActive, mode := modeAfter s.cfg.refresh
      trace := s.trace ++ .busy false :: stateEvents s.pstate .displaying ++ writes.flatMap (frameEvents s.cfg)
        ++ frameEvents s.cfg s.cfg.refresh ++ timeoutEvents s.cfg (s.cfg.nPollMax.val - 1)
      env := advanceEnv s.env (1 + s.cfg.nPollMax.val) (2 * writes.length + writesOf s.cfg.refresh)
        (2 * s.cfg.nPollMax.val)
      answer := some ⟨.refreshTimeoutError, .none⟩ }

/-! ### Errors -/

/-- 60_exceptions.md R268. -/
def Obligations.FatalPathReleasesEverything : Prop :=
  ∀ (s : State) (code : ResultCode),
    fatal code s = { s with
      pinRst := s.cfg.safeRst, pinDc := s.cfg.safeDc, pinCs := !s.cfg.csActive, owned := false, driven := false
      mode := .none, pstate := .exited, fatal := true, res := code
      trace := s.trace ++ [.gpio .rst s.cfg.safeRst, .gpio .dc s.cfg.safeDc, .release] ++ stateEvents s.pstate .exited }

/-- R267, R269, R270 over every operation, a harness's direct calls included (log entry 7): one that ends with a fatal
code has taken the fatal path. -/
def Obligations.FatalCodesTakeTheFatalPath : Prop :=
  ∀ (i : Instr) (s t : State) (a : Answer), exec i s = .next t → t.answer = some a →
    (a.code = .transportError ∨ a.code = .initError ∨ a.code = .interrupted) →
    t.pstate = .exited ∧ t.fatal = true ∧ t.owned = false ∧ t.driven = false ∧ t.mode = .none ∧ t.res = a.code ∧
    t.pinRst = s.cfg.safeRst ∧ t.pinDc = s.cfg.safeDc ∧
    ∃ l, t.trace = s.trace ++ l ++ releaseEvents s.cfg ++ (if s.pstate = .exited then [] else [.pstate .exited])

/-- 41_command_framer.md R154 (an inference of the spec's own): no surface operation ends with `ProtocolError`. -/
def Obligations.NoSurfaceProtocolError : Prop :=
  ∀ (i : Instr) (s t : State) (a : Answer), isSurface i = true → exec i s = .next t → t.answer = some a →
    a.code ≠ .protocolError

/-- 10_state.md R40: `FATAL` is 0 at reset, set by the fatal path only, and cleared by block reset only. -/
def Obligations.FatalIsSticky : Prop :=
  State.reset.fatal = false ∧ (∀ s : State, (blockReset s).fatal = false) ∧
  ∀ s t : State, step s = .next t →
    (s.fatal = true → t.fatal = true ∨ ResetStrikes s) ∧
    (s.fatal = false → t.fatal = true →
      t.pstate = .exited ∧ t.owned = false ∧ (t.res = .transportError ∨ t.res = .initError ∨ t.res = .interrupted))

/-- R199, 70_reset_and_hazards.md R300: only block reset leaves Exited. -/
def Obligations.OnlyBlockResetLeavesExited : Prop :=
  ∀ s t : State, s.upc = .idle → s.pstate = .exited → step s = .next t →
    (t.pstate = .exited ∧ t.upc = .idle) ∨ ∃ n later, s.host = .blockReset n :: later

/-! ### Surface, status registers -/

/-- 44_surface_api.md R243. -/
def Obligations.GetbufferIsAPureConversion : Prop :=
  (∀ b : Bit, toMono (.bit b) = b) ∧
  ∀ (s : State) (image : Image),
    exec (.getbuffer image) s =
      .next { s with answer := some ⟨.ok, .plane ⟨image.w, image.h, image.px.map toMono⟩⟩ }

/-- 10_state.md R47, R48, R49, R51: the fields of `SR0` and `SR1` in the numbers that R35, R38 and 60_exceptions.md R261 give
the values, their reset values, and the constants, which no step changes. -/
def Obligations.StatusRegistersShowTheState : Prop :=
  (pstateCode .uninitialized = 0#3 ∧ pstateCode .ready = 1#3 ∧ pstateCode .displaying = 2#3 ∧
    pstateCode .sleeping = 3#3 ∧ pstateCode .exited = 4#3) ∧
  (modeCode .none = 0#2 ∧ modeCode .command = 1#2 ∧ modeCode .data = 2#2) ∧
  (resultNumber .ok = 0#4 ∧ resultNumber .transportError = 1#4 ∧ resultNumber .protocolError = 2#4 ∧
    resultNumber .dimensionError = 3#4 ∧ resultNumber .initError = 4#4 ∧ resultNumber .refreshTimeoutError = 5#4 ∧
    resultNumber .alreadyExited = 6#4 ∧ resultNumber .stateError = 7#4 ∧ resultNumber .interrupted = 8#4) ∧
  sr0 State.reset = 0x00#8 ∧ sr1 State.reset = 0x00#8 ∧
  ∀ s : State,
    ((sr0 s).extractLsb' 0 3 = pstateCode s.pstate ∧ (sr0 s).getLsbD 3 = s.owned ∧
      (sr0 s).extractLsb' 4 2 = modeCode s.mode ∧ (sr0 s).getLsbD 6 = s.fatal ∧ (sr0 s).getLsbD 7 = false) ∧
    ((sr1 s).extractLsb' 0 4 = resultNumber s.res ∧ (sr1 s).extractLsb' 4 4 = 0#4) ∧
    (sr2 s = s.cfg.width.val ∧ sr3 s = s.cfg.height.val ∧ sr5 s = (s.cfg.width.val + 7) / 8 * s.cfg.height.val) ∧
    (sr2 (blockReset s) = sr2 s ∧ sr3 (blockReset s) = sr3 s ∧ sr5 (blockReset s) = sr5 s) ∧
    ∀ t, step s = .next t → sr2 t = sr2 s ∧ sr3 t = sr3 s ∧ sr5 t = sr5 s

/-- 10_state.md R46, R50: the fields of `SR4`, and that a read between operations answers the register and, but for
`SR4`'s fresh draw, changes nothing; that the draw is no event of `TRACE` is the model's choice (log entry 20). -/
def Obligations.StatusReadsAnswerTheRegisters : Prop :=
  ∀ s : State,
    ((sr4 s).getLsbD 0 = (s.driven && s.pinRst) ∧ (sr4 s).getLsbD 1 = (s.driven && s.pinDc) ∧
      (sr4 s).getLsbD 2 = (s.driven && s.pinCs) ∧ (sr4 s).getLsbD 3 = busyAt s.env 0 ∧ (sr4 s).getLsbD 4 = s.driven ∧
      (sr4 s).extractLsb' 5 3 = 0#3) ∧
    ∀ later, s.upc = .idle →
      (s.host = .readStatus .sr0 :: later → step s = .next { s with host := later, answer := some ⟨.ok, .byte (sr0 s)⟩ }) ∧
      (s.host = .readStatus .sr1 :: later → step s = .next { s with host := later, answer := some ⟨.ok, .byte (sr1 s)⟩ }) ∧
      (s.host = .readStatus .sr2 :: later →
        step s = .next { s with host := later, answer := some ⟨.ok, .nat s.cfg.width.val⟩ }) ∧
      (s.host = .readStatus .sr3 :: later →
        step s = .next { s with host := later, answer := some ⟨.ok, .nat s.cfg.height.val⟩ }) ∧
      (s.host = .readStatus .sr4 :: later →
        step s = .next { s with
          host := later, env := advanceEnv s.env 1 0 0, answer := some ⟨.ok, .byte (sr4 s)⟩ }) ∧
      (s.host = .readStatus .sr5 :: later →
        step s = .next { s with
          host := later, answer := some ⟨.ok, .nat ((s.cfg.width.val + 7) / 8 * s.cfg.height.val)⟩ })

/-! ### Rules of the whole machine -/

/-- 43_panel_driver.md R202 (its form over `TRACE` is an inference of the spec's own), 10_state.md R52: `displayBlack`
sends no red command, however it ends, and the red plane's last-written content (as log entry 17 reads it) is the same
after it as before. -/
def Obligations.DisplayBlackLeavesRedAlone : Prop :=
  ∀ (s t : State) (black : Plane), exec (.displayBlack black) s = .next t →
    s.cfg.cmdBlack ≠ s.cfg.cmdRed → s.cfg.refresh.op ≠ s.cfg.cmdRed →
    (∃ l, t.trace = s.trace ++ l ∧ ∀ e ∈ l, carriesCommand s.cfg s.cfg.cmdRed e = false) ∧
    redContent s.cfg t.trace = redContent s.cfg s.trace

/-- 43_panel_driver.md R212 (an inference of the spec's own): the bounds on appended events, for every surface operation.
R212 gives the numbers of `WaitNotBusy`, `init`, `display` (and so `clear`) and a successful `exit`; those of
`displayBlack` and `sleep` are counted from R197 and R198 in the same way. -/
def Obligations.OperationsAreBounded : Prop :=
  ∀ (s t : State) (black red : Plane) (image : Image),
    (exec .waitNotBusy s = .next t → (∃ v, t.answer = some ⟨.ok, v⟩) →
      t.trace.length ≤ s.trace.length + (2 * s.cfg.nPollMax.val - 1)) ∧
    (exec .init s = .next t →
      t.trace.length ≤ s.trace.length +
        (1 + 4 + 4 * s.cfg.initSeq.length + 2 * (2 * s.cfg.nPollMax.val - 1) + 4)) ∧
    (∀ i ∈ [Instr.clear, Instr.display black red], exec i s = .next t →
      t.trace.length ≤ s.trace.length + (2 * (2 * s.cfg.nPollMax.val - 1) + 1 + 12 + 4)) ∧
    (exec (.displayBlack black) s = .next t →
      t.trace.length ≤ s.trace.length + (2 * (2 * s.cfg.nPollMax.val - 1) + 1 + 8 + 4)) ∧
    (exec .sleep s = .next t → t.trace.length ≤ s.trace.length + ((2 * s.cfg.nPollMax.val - 1) + 4 + 4)) ∧
    (exec .exit s = .next t → t.trace.length ≤ s.trace.length + 4) ∧
    (exec .exit s = .next t → t.answer = some ⟨.ok, .none⟩ → t.trace.length = s.trace.length + 4) ∧
    (exec (.getbuffer image) s = .next t → t.trace.length = s.trace.length)

/-- 10_state.md R41 (the bound is an inference of the spec's own): no operation takes `K` past `N_POLL_MAX`. -/
def Obligations.PollCountStaysInRange : Prop :=
  ∀ (i : Instr) (s t : State), exec i s = .next t → s.k ≤ s.cfg.nPollMax.val → t.k ≤ s.cfg.nPollMax.val

/-- 10_state.md R45: `TRACE` is appended to and never otherwise changed, block reset apart. -/
def Obligations.TraceOnlyGrows : Prop :=
  ∀ s t : State, step s = .next t →
    (∃ l, t.trace = s.trace ++ l) ∨ (t.trace = [] ∧ ResetStrikes s)

/-- 00_scope.md R9: no step writes `CFG`, which the model carries in its state (log entry 1). -/
def Obligations.NothingWritesTheConfiguration : Prop :=
  ∀ s t : State, step s = .next t → t.cfg = s.cfg

/-- 10_state.md R39: `RES` is 0 at reset; after a surface operation it is the code of that operation, but `getbuffer`
leaves it. -/
def Obligations.ResultRegisterHoldsTheLastCode : Prop :=
  resultNumber State.reset.res = 0#4 ∧
  ∀ (i : Instr) (s t : State) (a : Answer), isSurface i = true → exec i s = .next t → t.answer = some a →
    ((∀ image, i ≠ .getbuffer image) → t.res = a.code) ∧ (∀ image, i = .getbuffer image → t.res = s.res)

/-- R34, R193: the transitions of `PSTATE` a surface operation can make, from start to end. -/
def Obligations.OnlyLegalTransitions : Prop :=
  ∀ (i : Instr) (s t : State), isSurface i = true → exec i s = .next t →
    t.pstate = s.pstate ∨
    (i = .init ∧ (s.pstate = .uninitialized ∨ s.pstate = .displaying) ∧ (t.pstate = .ready ∨ t.pstate = .exited)) ∨
    ((i = .clear ∨ (∃ b r, i = .display b r) ∨ ∃ b, i = .displayBlack b) ∧ (s.pstate = .ready ∨ s.pstate = .displaying) ∧
      (t.pstate = .ready ∨ t.pstate = .displaying ∨ t.pstate = .exited)) ∨
    (i = .sleep ∧ s.pstate = .ready ∧ (t.pstate = .sleeping ∨ t.pstate = .exited)) ∨
    (i = .exit ∧ (s.pstate = .ready ∨ s.pstate = .displaying ∨ s.pstate = .sleeping) ∧ t.pstate = .exited)

/-- The frame of `clear`, `display`, `displayBlack` and `sleep` however they end, a fatal end apart: the reset line, the
handle, `FATAL`, `CFG`, `UPC` and the host's script are unchanged. Of a fatal end see `FatalCodesTakeTheFatalPath`. -/
def Obligations.RefreshAndSleepFrame : Prop :=
  ∀ (i : Instr) (s t : State) (black red : Plane),
    i ∈ [Instr.clear, Instr.display black red, Instr.displayBlack black, Instr.sleep] → exec i s = .next t →
    t.cfg = s.cfg ∧ t.upc = s.upc ∧ t.host = s.host ∧
    ((∀ c ∈ [ResultCode.transportError, .interrupted], t.answer ≠ some ⟨c, .none⟩) →
      t.pinRst = s.pinRst ∧ t.owned = s.owned ∧ t.driven = s.driven ∧ t.fatal = s.fatal)

/-! ### Invariants -/

/-- 10_state.md R55 (an inference of the spec's own): the invariants of the register set between operations, kept by
every step of a block driven from its host port by whole operations. -/
def Obligations.RegisterInvariantsAreKept : Prop :=
  ∀ s t : State, Between s → HostDriven s → step s = .next t → Between t ∧ HostDriven t

/-- R55 and R56: the invariants hold in the reset state of every configuration, and at `State.reset`. -/
def Obligations.ResetMeetsTheInvariants : Prop :=
  (∀ c : Cfg, Between (State.resetWith c) ∧ HostDriven (State.resetWith c) ∧ Always (State.resetWith c)) ∧
  Between State.reset ∧ HostDriven State.reset ∧ Always State.reset

/-- R42 ("`DRIVEN = OWNED` at all times"), R55 (e), R268: kept by every step whatever is done, inside an operation and
under a harness too. -/
def Obligations.PinInvariantsAlwaysHold : Prop :=
  ∀ s t : State, Always s → step s = .next t → Always t

/-- 10_state.md R36: an operation run position by position through `UPC` ends in the state that one whole step gives, so
the two readings of "step" that R36 allows agree (the model has both, log entry 3). -/
def Obligations.PositionsReachTheWholeStep : Prop :=
  ∀ (s t : State) (bytes : List Byte), s.upc = .idle →
    step { s with host := [.op bytes] } = .next t →
    ∃ n, Host.Core.run core n { s with host := [.begin bytes] } = .next t
end

