-- ==== Sys2Proof/Laws/Codec.lean ====
section
/-!
SUPPORT. Each part of the serial form read back (a natural number, a byte sequence, bits, a line, a level, a source
pixel), and bytes that were read shown to be the encoding of what they gave.
-/

namespace Sys2Proof

@[simp] theorem thenDec_ok {α β : Type} (a : α) (rest : List Byte) (f : α → List Byte → Dec β) :
    thenDec (.ok (a, rest)) f = f a rest := rfl

@[simp] theorem thenDec_error {α β : Type} (e : DecodeError) (f : α → List Byte → Dec β) :
    thenDec (.error e) f = .error e := rfl

/-- A decoder that answers has answered in its first part. -/
theorem thenDec_eq_ok {α β : Type} {d : Dec α} {f : α → List Byte → Dec β} {r : β × List Byte}
    (h : thenDec d f = .ok r) : ∃ a rest, d = .ok (a, rest) ∧ f a rest = .ok r := by
  match d, h with
  | .ok (a, rest), h => exact ⟨a, rest, rfl, h⟩

@[simp] theorem decodeByte_cons (b : Byte) (rest : List Byte) : decodeByte (b :: rest) = .ok (b, rest) := rfl

theorem decodeNat_groups (fuel n : Nat) (rest : List Byte) (h : n < fuel) :
    decodeNat (encodeNatGroups fuel n ++ rest) = .ok (n, rest) := by
  induction fuel generalizing n with
  | zero => omega
  | succ fuel ih =>
    by_cases hn : n < 128
    · have hb : (BitVec.ofNat 8 n).toNat = n := by rw [BitVec.toNat_ofNat]; omega
      simp only [encodeNatGroups, hn, if_true, List.cons_append, List.nil_append, decodeNat, hb]
    · have hb : (BitVec.ofNat 8 (128 + n % 128)).toNat = 128 + n % 128 := by rw [BitVec.toNat_ofNat]; omega
      have hq : ¬ n / 128 = 0 := by omega
      simp only [encodeNatGroups, hn, if_false, List.cons_append, decodeNat, hb, ih (n / 128) (by omega), hq]
      rw [if_neg (by omega)]
      simp only [Except.ok.injEq, Prod.mk.injEq, and_true]
      omega

@[simp] theorem decodeNat_encodeNat (n : Nat) (rest : List Byte) : decodeNat (encodeNat n ++ rest) = .ok (n, rest) :=
  decodeNat_groups (n + 1) n rest (by omega)

@[simp] theorem takeBytes_append (data rest : List Byte) : takeBytes data.length (data ++ rest) = .ok (data, rest) := by
  simp [takeBytes]

@[simp] theorem decodeBytes_encodeBytes (data rest : List Byte) :
    decodeBytes (encodeBytes data ++ rest) = .ok (data, rest) := by
  simp [decodeBytes, encodeBytes, List.append_assoc]

/-- The cells of an assembled byte are the cells it was made of. -/
@[simp] theorem byteCells_cellsByte (a b c d e f g h : Bit) :
    Machine.byteCells (Machine.cellsByte a b c d e f g h) = [a, b, c, d, e, f, g, h] := by
  revert a b c d e f g h; decide

theorem pad_step (px : List Bit) (k : Nat) (h : px.length ≤ 8 * (k + 1)) :
    [px.getD 0 false, px.getD 1 false, px.getD 2 false, px.getD 3 false, px.getD 4 false, px.getD 5 false,
      px.getD 6 false, px.getD 7 false] ++ (px.drop 8 ++ List.replicate (8 * k - (px.drop 8).length) false)
      = px ++ List.replicate (8 * (k + 1) - px.length) false := by
  rcases px with _ | ⟨a, _ | ⟨b, _ | ⟨c, _ | ⟨d, _ | ⟨e, _ | ⟨f, _ | ⟨g, _ | ⟨i, t⟩⟩⟩⟩⟩⟩⟩⟩
  all_goals simp [Nat.mul_add, List.replicate_succ]

/-- The bits of whole bytes, followed by the zeros that fill the last one. -/
theorem cellsOfBytes_bytesOfCells (k : Nat) (px : List Bit) (rest : List Byte) (h : px.length ≤ 8 * k) :
    cellsOfBytes k (bytesOfCells k px ++ rest) =
      .ok (px ++ List.replicate (8 * k - px.length) false, rest) := by
  induction k generalizing px with
  | zero =>
    have : px = [] := List.eq_nil_of_length_eq_zero (by omega)
    subst this; rfl
  | succ k ih =>
    simp only [bytesOfCells, List.cons_append, cellsOfBytes, byteCells_cellsByte]
    rw [ih (px.drop 8) (by simp; omega)]
    exact congrArg (fun l => Except.ok (l, rest)) (pad_step px k h)

theorem le_ceilDiv8 (n : Nat) : n ≤ 8 * Machine.ceilDiv8 n := by
  unfold Machine.ceilDiv8; omega

@[simp] theorem decodeBits_encodeBits (px : List Bit) (rest : List Byte) :
    decodeBits px.length (encodeBits px ++ rest) = .ok (px, rest) := by
  rw [decodeBits, encodeBits, cellsOfBytes_bytesOfCells _ _ _ (le_ceilDiv8 _)]
  simp

@[simp] theorem pixelOfNat_natOfPixel (p : SrcPixel) : pixelOfNat (natOfPixel p) = p := by
  rcases p with (_ | _) | v <;> rfl

@[simp] theorem decodePixels_encode (px : List SrcPixel) (rest : List Byte) :
    decodePixels px.length (px.flatMap (fun p => encodeNat (natOfPixel p)) ++ rest) = .ok (px, rest) := by
  induction px with
  | nil => rfl
  | cons p px ih => simp [decodePixels, List.append_assoc, ih]

@[simp] theorem decodeLine_lineCode (l : GpioLine) (rest : List Byte) :
    decodeLine (lineCode l :: rest) = .ok (l, rest) := by
  cases l <;> rfl

@[simp] theorem decodeLevel_levelByte (l : Level) (rest : List Byte) :
    decodeLevel (levelByte l :: rest) = .ok (l, rest) := by
  cases l <;> rfl

/-! ### Decoded bytes are an encoding -/

/-- A byte is its eight cells. -/
theorem byteCells_injective {a b : Byte} (h : Machine.byteCells a = Machine.byteCells b) : a = b := by
  simp only [Machine.byteCells, Machine.byteCell, List.cons.injEq, and_true] at h
  obtain ⟨h7, h6, h5, h4, h3, h2, h1, h0⟩ := h
  apply BitVec.eq_of_getLsbD_eq
  intro i hi
  rcases i with _ | _ | _ | _ | _ | _ | _ | _ | i <;> first | assumption | omega

theorem cellsByte_byteCell (b : Byte) :
    Machine.cellsByte (Machine.byteCell b 0) (Machine.byteCell b 1) (Machine.byteCell b 2) (Machine.byteCell b 3)
      (Machine.byteCell b 4) (Machine.byteCell b 5) (Machine.byteCell b 6) (Machine.byteCell b 7) = b :=
  byteCells_injective (by rw [byteCells_cellsByte]; rfl)

/-- The fuel of the groups does not matter, so long as it is enough. -/
theorem encodeNatGroups_fuel (n f g : Nat) (hf : n < f) (hg : n < g) : encodeNatGroups f n = encodeNatGroups g n := by
  induction f generalizing n g with
  | zero => omega
  | succ f ih =>
    cases g with
    | zero => omega
    | succ g =>
      by_cases hn : n < 128
      · simp [encodeNatGroups, hn]
      · simp only [encodeNatGroups, hn, if_false]
        rw [ih (n / 128) g (by omega) (by omega)]

theorem decodeNat_eq_ok {bs : List Byte} {n : Nat} {rest : List Byte} (h : decodeNat bs = .ok (n, rest)) :
    bs = encodeNat n ++ rest := by
  induction bs generalizing n with
  | nil => simp [decodeNat] at h
  | cons b bs ih =>
    simp only [decodeNat] at h
    split at h
    · next hb =>
      simp only [Except.ok.injEq, Prod.mk.injEq] at h
      obtain ⟨rfl, rfl⟩ := h
      simp [encodeNat, encodeNatGroups, hb]
    · next hb =>
      split at h
      · simp at h
      · next m after hm =>
        split at h
        · simp at h
        · next h0 =>
          simp only [Except.ok.injEq, Prod.mk.injEq] at h
          obtain ⟨rfl, rfl⟩ := h
          have hlt := b.isLt
          have e1 : ¬ (b.toNat - 128 + 128 * m < 128) := by omega
          have e2 : (b.toNat - 128 + 128 * m) / 128 = m := by omega
          have e3 : 128 + (b.toNat - 128 + 128 * m) % 128 = b.toNat := by omega
          rw [encodeNat, encodeNatGroups, if_neg e1, e2, e3, encodeNatGroups_fuel m _ (m + 1) (by omega) (by omega)]
          simp [ih hm, encodeNat]

theorem cellsOfBytes_eq_ok {k : Nat} {bs : List Byte} {cells : List Bit} {rest : List Byte}
    (h : cellsOfBytes k bs = .ok (cells, rest)) :
    cells.length = 8 * k ∧ ∀ px, px.length ≤ 8 * k → (∃ j, cells = px ++ List.replicate j false) →
      bs = bytesOfCells k px ++ rest := by
  induction k generalizing bs cells with
  | zero =>
    simp only [cellsOfBytes, Except.ok.injEq, Prod.mk.injEq] at h
    obtain ⟨rfl, rfl⟩ := h
    simp [bytesOfCells]
  | succ k ih =>
    cases bs with
    | nil => simp [cellsOfBytes] at h
    | cons b bs =>
      simp only [cellsOfBytes] at h
      obtain ⟨c, r, h1, h2⟩ := thenDec_eq_ok h
      simp only [Except.ok.injEq, Prod.mk.injEq] at h2
      obtain ⟨rfl, rfl⟩ := h2
      obtain ⟨hl, hr⟩ := ih h1
      refine ⟨by simp [Machine.byteCells, hl]; omega, fun px hpx ⟨j, hj⟩ => ?_⟩
      have hg : ∀ m < 8, px.getD m false = (Machine.byteCells b).getD m false := by
        intro m hm
        have e : (Machine.byteCells b ++ c).getD m false = (px ++ List.replicate j false).getD m false := by rw [hj]
        have e1 : (Machine.byteCells b ++ c).getD m false = (Machine.byteCells b).getD m false := by
          simp only [List.getD]
          rw [List.getElem?_append_left (by simp [Machine.byteCells]; omega)]
        have e2 : (px ++ List.replicate j false).getD m false = px.getD m false := by
          simp only [List.getD]
          by_cases hlt : m < px.length
          · rw [List.getElem?_append_left hlt]
          · rw [List.getElem?_append_right (by omega), List.getElem?_replicate,
              List.getElem?_eq_none (by omega : px.length ≤ m)]
            split <;> rfl
        rw [← e2, ← e, e1]
      simp only [bytesOfCells, List.cons_append, List.cons.injEq]
      refine ⟨?_, hr (px.drop 8) (by simp; omega) ?_⟩
      · rw [hg 0 (by omega), hg 1 (by omega), hg 2 (by omega), hg 3 (by omega), hg 4 (by omega), hg 5 (by omega),
          hg 6 (by omega), hg 7 (by omega)]
        exact (cellsByte_byteCell b).symm
      · have h8 := congrArg (List.drop 8) hj
        rw [List.drop_append_of_le_length (by simp [Machine.byteCells])] at h8
        simp only [Machine.byteCells, List.drop_succ_cons, List.drop_zero, List.nil_append] at h8
        rw [h8, List.drop_append]
        exact ⟨_, by rw [List.drop_replicate]⟩

theorem decodeBits_eq_ok {n : Nat} {bs : List Byte} {px : List Bit} {rest : List Byte}
    (h : decodeBits n bs = .ok (px, rest)) : px.length = n ∧ bs = encodeBits px ++ rest := by
  obtain ⟨cells, r, h1, h2⟩ := thenDec_eq_ok h
  split at h2
  · next hall =>
    simp only [Except.ok.injEq, Prod.mk.injEq] at h2
    obtain ⟨rfl, rfl⟩ := h2
    obtain ⟨hl, hr⟩ := cellsOfBytes_eq_ok h1
    have hle := le_ceilDiv8 n
    have hlen : (cells.take n).length = n := by simp; omega
    refine ⟨hlen, ?_⟩
    rw [encodeBits, hlen]
    refine hr _ (by omega) ⟨(cells.drop n).length, ?_⟩
    have hz : cells.drop n = List.replicate (cells.drop n).length false := by
      rw [List.eq_replicate_iff]
      exact ⟨rfl, fun b hb => by simpa using List.all_eq_true.mp hall b hb⟩
    rw [← hz, List.take_append_drop]
  · simp at h2

theorem decodePlane_eq_ok {bs : List Byte} {p : Plane} {rest : List Byte} (h : decodePlane bs = .ok (p, rest)) :
    p.wellFormed = true ∧ bs = encodePlane p ++ rest := by
  obtain ⟨w, r1, h1, h⟩ := thenDec_eq_ok h
  obtain ⟨hh, r2, h2, h⟩ := thenDec_eq_ok h
  obtain ⟨px, r3, h3, h⟩ := thenDec_eq_ok h
  simp only [Except.ok.injEq, Prod.mk.injEq] at h
  obtain ⟨rfl, rfl⟩ := h
  obtain ⟨e, h3⟩ := decodeBits_eq_ok h3
  exact ⟨by simp [Plane.wellFormed, e], by rw [decodeNat_eq_ok h1, decodeNat_eq_ok h2, h3]; simp [encodePlane]⟩

theorem decodePixels_eq_ok {n : Nat} {bs : List Byte} {px : List SrcPixel} {rest : List Byte}
    (h : decodePixels n bs = .ok (px, rest)) :
    px.length = n ∧ bs = px.flatMap (fun p => encodeNat (natOfPixel p)) ++ rest := by
  induction n generalizing bs px with
  | zero =>
    simp only [decodePixels, Except.ok.injEq, Prod.mk.injEq] at h
    obtain ⟨rfl, rfl⟩ := h
    simp
  | succ n ih =>
    obtain ⟨v, r1, h1, h⟩ := thenDec_eq_ok h
    obtain ⟨q, r2, h2, h⟩ := thenDec_eq_ok h
    simp only [Except.ok.injEq, Prod.mk.injEq] at h
    obtain ⟨rfl, rfl⟩ := h
    obtain ⟨e, h2⟩ := ih h2
    have hv : natOfPixel (pixelOfNat v) = v := by rcases v with _ | _ | v <;> rfl
    simp [e, hv, decodeNat_eq_ok h1, h2]

theorem decodeImage_eq_ok {bs : List Byte} {p : Image} {rest : List Byte} (h : decodeImage bs = .ok (p, rest)) :
    p.wellFormed = true ∧ bs = encodeImage p ++ rest := by
  obtain ⟨w, r1, h1, h⟩ := thenDec_eq_ok h
  obtain ⟨hh, r2, h2, h⟩ := thenDec_eq_ok h
  obtain ⟨px, r3, h3, h⟩ := thenDec_eq_ok h
  simp only [Except.ok.injEq, Prod.mk.injEq] at h
  obtain ⟨rfl, rfl⟩ := h
  obtain ⟨e, h3⟩ := decodePixels_eq_ok h3
  exact ⟨by simp [Image.wellFormed, e], by rw [decodeNat_eq_ok h1, decodeNat_eq_ok h2, h3]; simp [encodeImage]⟩

theorem decodeByte_eq_ok {bs : List Byte} {b : Byte} {rest : List Byte} (h : decodeByte bs = .ok (b, rest)) :
    bs = b :: rest := by
  cases bs <;> simp_all [decodeByte]

theorem decodeBytes_eq_ok {bs data rest : List Byte} (h : decodeBytes bs = .ok (data, rest)) :
    bs = encodeBytes data ++ rest := by
  obtain ⟨n, r, h1, h⟩ := thenDec_eq_ok h
  unfold takeBytes at h
  split at h
  · next hn =>
    simp only [Except.ok.injEq, Prod.mk.injEq] at h
    obtain ⟨rfl, rfl⟩ := h
    rw [decodeNat_eq_ok h1]
    simp [encodeBytes, Nat.min_eq_left hn]
  · simp at h

theorem decodeFrame_eq_ok {bs : List Byte} {f : CommandFrame} {rest : List Byte}
    (h : decodeFrame bs = .ok (f, rest)) : bs = encodeFrame f ++ rest := by
  obtain ⟨op, r, h1, h⟩ := thenDec_eq_ok h
  obtain ⟨d, r2, h2, h⟩ := thenDec_eq_ok h
  simp only [Except.ok.injEq, Prod.mk.injEq] at h
  obtain ⟨rfl, rfl⟩ := h
  rw [decodeByte_eq_ok h1, decodeBytes_eq_ok h2]
  simp [encodeFrame]

theorem decodeLine_eq_ok {bs : List Byte} {l : GpioLine} {rest : List Byte} (h : decodeLine bs = .ok (l, rest)) :
    bs = lineCode l :: rest := by
  obtain ⟨b, r, h1, h⟩ := thenDec_eq_ok h
  rw [decodeByte_eq_ok h1]
  split at h
  · simp_all; obtain ⟨rfl, rfl⟩ := h; simp [lineCode]
  · split at h <;> simp_all
    obtain ⟨rfl, rfl⟩ := h; simp [lineCode]

theorem decodeLevel_eq_ok {bs : List Byte} {l : Level} {rest : List Byte} (h : decodeLevel bs = .ok (l, rest)) :
    bs = levelByte l :: rest := by
  obtain ⟨b, r, h1, h⟩ := thenDec_eq_ok h
  rw [decodeByte_eq_ok h1]
  split at h
  · simp_all; obtain ⟨rfl, rfl⟩ := h; simp [levelByte]
  · split at h <;> simp_all
    obtain ⟨rfl, rfl⟩ := h; simp [levelByte]

/-- A code that no instruction has spells no operation (30_encoding.md R114). -/
theorem decodeOperands_reserved {code : Byte} (bs : List Byte) (h : ∀ i, opCode i ≠ some code) :
    decodeOperands code bs = .error (.reservedCode code) := by
  have key : ∀ i : Instr, ∀ n, opCode i = some (BitVec.ofNat 8 n) → n < 256 → code.toNat = n → False := by
    intro i n hi hn hc
    exact h i (hi.trans (congrArg some (BitVec.eq_of_toNat_eq (by simp [hc]; omega))))
  unfold decodeOperands
  split
  all_goals first | rfl | exfalso
  · exact key .init _ rfl (by decide) ‹_›
  · exact key .clear _ rfl (by decide) ‹_›
  · exact key (.display default default) _ rfl (by decide) ‹_›
  · exact key (.displayBlack default) _ rfl (by decide) ‹_›
  · exact key .sleep _ rfl (by decide) ‹_›
  · exact key .exit _ rfl (by decide) ‹_›
  · exact key (.getbuffer ⟨0, 0, []⟩) _ rfl (by decide) ‹_›
  · exact key (.writeBytes []) _ rfl (by decide) ‹_›
  · exact key .readBusy _ rfl (by decide) ‹_›
  · exact key (.setGpio .rst true) _ rfl (by decide) ‹_›
  · exact key .reset _ rfl (by decide) ‹_›
  · exact key (.delay 0) _ rfl (by decide) ‹_›
  · exact key .acquire _ rfl (by decide) ‹_›
  · exact key .release _ rfl (by decide) ‹_›
  · exact key (.sendCommand 0) _ rfl (by decide) ‹_›
  · exact key (.sendData []) _ rfl (by decide) ‹_›
  · exact key (.sendFrame default) _ rfl (by decide) ‹_›
  · exact key (.pack default) _ rfl (by decide) ‹_›
  · exact key (.packRaw default) _ rfl (by decide) ‹_›
  · exact key .allInactive _ rfl (by decide) ‹_›
  · exact key .waitNotBusy _ rfl (by decide) ‹_›

end Sys2Proof
end

