-- ==== Sys2Proof/Laws/State.lean ====
section
/-!
SUPPORT. What each named update of the state does to each field: one lemma a field, so that no later proof unfolds a
record update.
-/

namespace Sys2Proof.Machine

/-! ### `emit` -/

@[simp] theorem emit_pstate (ev : Event) (s : State) : (emit ev s).pstate = s.pstate := rfl
@[simp] theorem emit_owned (ev : Event) (s : State) : (emit ev s).owned = s.owned := rfl
@[simp] theorem emit_driven (ev : Event) (s : State) : (emit ev s).driven = s.driven := rfl
@[simp] theorem emit_mode (ev : Event) (s : State) : (emit ev s).mode = s.mode := rfl
@[simp] theorem emit_pinRst (ev : Event) (s : State) : (emit ev s).pinRst = s.pinRst := rfl
@[simp] theorem emit_pinDc (ev : Event) (s : State) : (emit ev s).pinDc = s.pinDc := rfl
@[simp] theorem emit_pinCs (ev : Event) (s : State) : (emit ev s).pinCs = s.pinCs := rfl
@[simp] theorem emit_res (ev : Event) (s : State) : (emit ev s).res = s.res := rfl
@[simp] theorem emit_fatal (ev : Event) (s : State) : (emit ev s).fatal = s.fatal := rfl
@[simp] theorem emit_k (ev : Event) (s : State) : (emit ev s).k = s.k := rfl
@[simp] theorem emit_upc (ev : Event) (s : State) : (emit ev s).upc = s.upc := rfl
@[simp] theorem emit_trace (ev : Event) (s : State) : (emit ev s).trace = s.trace ++ [ev] := rfl
@[simp] theorem emit_cfg (ev : Event) (s : State) : (emit ev s).cfg = s.cfg := rfl
@[simp] theorem emit_env (ev : Event) (s : State) : (emit ev s).env = s.env := rfl
@[simp] theorem emit_host (ev : Event) (s : State) : (emit ev s).host = s.host := rfl
@[simp] theorem emit_answer (ev : Event) (s : State) : (emit ev s).answer = s.answer := rfl

/-! ### `drawBusy` -/

@[simp] theorem drawBusy_pstate (s : State) : (drawBusy s).pstate = s.pstate := rfl
@[simp] theorem drawBusy_owned (s : State) : (drawBusy s).owned = s.owned := rfl
@[simp] theorem drawBusy_driven (s : State) : (drawBusy s).driven = s.driven := rfl
@[simp] theorem drawBusy_mode (s : State) : (drawBusy s).mode = s.mode := rfl
@[simp] theorem drawBusy_pinRst (s : State) : (drawBusy s).pinRst = s.pinRst := rfl
@[simp] theorem drawBusy_pinDc (s : State) : (drawBusy s).pinDc = s.pinDc := rfl
@[simp] theorem drawBusy_pinCs (s : State) : (drawBusy s).pinCs = s.pinCs := rfl
@[simp] theorem drawBusy_res (s : State) : (drawBusy s).res = s.res := rfl
@[simp] theorem drawBusy_fatal (s : State) : (drawBusy s).fatal = s.fatal := rfl
@[simp] theorem drawBusy_k (s : State) : (drawBusy s).k = s.k := rfl
@[simp] theorem drawBusy_upc (s : State) : (drawBusy s).upc = s.upc := rfl
@[simp] theorem drawBusy_trace (s : State) : (drawBusy s).trace = s.trace := rfl
@[simp] theorem drawBusy_cfg (s : State) : (drawBusy s).cfg = s.cfg := rfl
@[simp] theorem drawBusy_env (s : State) : (drawBusy s).env = advanceEnv s.env 1 0 0 := rfl
@[simp] theorem drawBusy_host (s : State) : (drawBusy s).host = s.host := rfl
@[simp] theorem drawBusy_answer (s : State) : (drawBusy s).answer = s.answer := rfl

/-! ### `drawSpi` -/

@[simp] theorem drawSpi_pstate (s : State) : (drawSpi s).pstate = s.pstate := rfl
@[simp] theorem drawSpi_owned (s : State) : (drawSpi s).owned = s.owned := rfl
@[simp] theorem drawSpi_driven (s : State) : (drawSpi s).driven = s.driven := rfl
@[simp] theorem drawSpi_mode (s : State) : (drawSpi s).mode = s.mode := rfl
@[simp] theorem drawSpi_pinRst (s : State) : (drawSpi s).pinRst = s.pinRst := rfl
@[simp] theorem drawSpi_pinDc (s : State) : (drawSpi s).pinDc = s.pinDc := rfl
@[simp] theorem drawSpi_pinCs (s : State) : (drawSpi s).pinCs = s.pinCs := rfl
@[simp] theorem drawSpi_res (s : State) : (drawSpi s).res = s.res := rfl
@[simp] theorem drawSpi_fatal (s : State) : (drawSpi s).fatal = s.fatal := rfl
@[simp] theorem drawSpi_k (s : State) : (drawSpi s).k = s.k := rfl
@[simp] theorem drawSpi_upc (s : State) : (drawSpi s).upc = s.upc := rfl
@[simp] theorem drawSpi_trace (s : State) : (drawSpi s).trace = s.trace := rfl
@[simp] theorem drawSpi_cfg (s : State) : (drawSpi s).cfg = s.cfg := rfl
@[simp] theorem drawSpi_env (s : State) : (drawSpi s).env = advanceEnv s.env 0 1 0 := rfl
@[simp] theorem drawSpi_host (s : State) : (drawSpi s).host = s.host := rfl
@[simp] theorem drawSpi_answer (s : State) : (drawSpi s).answer = s.answer := rfl

/-! ### `drawIntr` -/

@[simp] theorem drawIntr_pstate (s : State) : (drawIntr s).pstate = s.pstate := rfl
@[simp] theorem drawIntr_owned (s : State) : (drawIntr s).owned = s.owned := rfl
@[simp] theorem drawIntr_driven (s : State) : (drawIntr s).driven = s.driven := rfl
@[simp] theorem drawIntr_mode (s : State) : (drawIntr s).mode = s.mode := rfl
@[simp] theorem drawIntr_pinRst (s : State) : (drawIntr s).pinRst = s.pinRst := rfl
@[simp] theorem drawIntr_pinDc (s : State) : (drawIntr s).pinDc = s.pinDc := rfl
@[simp] theorem drawIntr_pinCs (s : State) : (drawIntr s).pinCs = s.pinCs := rfl
@[simp] theorem drawIntr_res (s : State) : (drawIntr s).res = s.res := rfl
@[simp] theorem drawIntr_fatal (s : State) : (drawIntr s).fatal = s.fatal := rfl
@[simp] theorem drawIntr_k (s : State) : (drawIntr s).k = s.k := rfl
@[simp] theorem drawIntr_upc (s : State) : (drawIntr s).upc = s.upc := rfl
@[simp] theorem drawIntr_trace (s : State) : (drawIntr s).trace = s.trace := rfl
@[simp] theorem drawIntr_cfg (s : State) : (drawIntr s).cfg = s.cfg := rfl
@[simp] theorem drawIntr_env (s : State) : (drawIntr s).env = advanceEnv s.env 0 0 1 := rfl
@[simp] theorem drawIntr_host (s : State) : (drawIntr s).host = s.host := rfl
@[simp] theorem drawIntr_answer (s : State) : (drawIntr s).answer = s.answer := rfl

/-! ### `selectChip` -/

@[simp] theorem selectChip_pstate (s : State) : (selectChip s).pstate = s.pstate := rfl
@[simp] theorem selectChip_owned (s : State) : (selectChip s).owned = s.owned := rfl
@[simp] theorem selectChip_driven (s : State) : (selectChip s).driven = s.driven := rfl
@[simp] theorem selectChip_mode (s : State) : (selectChip s).mode = s.mode := rfl
@[simp] theorem selectChip_pinRst (s : State) : (selectChip s).pinRst = s.pinRst := rfl
@[simp] theorem selectChip_pinDc (s : State) : (selectChip s).pinDc = s.pinDc := rfl
@[simp] theorem selectChip_pinCs (s : State) : (selectChip s).pinCs = s.cfg.csActive := rfl
@[simp] theorem selectChip_res (s : State) : (selectChip s).res = s.res := rfl
@[simp] theorem selectChip_fatal (s : State) : (selectChip s).fatal = s.fatal := rfl
@[simp] theorem selectChip_k (s : State) : (selectChip s).k = s.k := rfl
@[simp] theorem selectChip_upc (s : State) : (selectChip s).upc = s.upc := rfl
@[simp] theorem selectChip_trace (s : State) : (selectChip s).trace = s.trace := rfl
@[simp] theorem selectChip_cfg (s : State) : (selectChip s).cfg = s.cfg := rfl
@[simp] theorem selectChip_env (s : State) : (selectChip s).env = s.env := rfl
@[simp] theorem selectChip_host (s : State) : (selectChip s).host = s.host := rfl
@[simp] theorem selectChip_answer (s : State) : (selectChip s).answer = s.answer := rfl

/-! ### `deselectChip` -/

@[simp] theorem deselectChip_pstate (s : State) : (deselectChip s).pstate = s.pstate := rfl
@[simp] theorem deselectChip_owned (s : State) : (deselectChip s).owned = s.owned := rfl
@[simp] theorem deselectChip_driven (s : State) : (deselectChip s).driven = s.driven := rfl
@[simp] theorem deselectChip_mode (s : State) : (deselectChip s).mode = s.mode := rfl
@[simp] theorem deselectChip_pinRst (s : State) : (deselectChip s).pinRst = s.pinRst := rfl
@[simp] theorem deselectChip_pinDc (s : State) : (deselectChip s).pinDc = s.pinDc := rfl
@[simp] theorem deselectChip_pinCs (s : State) : (deselectChip s).pinCs = !s.cfg.csActive := rfl
@[simp] theorem deselectChip_res (s : State) : (deselectChip s).res = s.res := rfl
@[simp] theorem deselectChip_fatal (s : State) : (deselectChip s).fatal = s.fatal := rfl
@[simp] theorem deselectChip_k (s : State) : (deselectChip s).k = s.k := rfl
@[simp] theorem deselectChip_upc (s : State) : (deselectChip s).upc = s.upc := rfl
@[simp] theorem deselectChip_trace (s : State) : (deselectChip s).trace = s.trace := rfl
@[simp] theorem deselectChip_cfg (s : State) : (deselectChip s).cfg = s.cfg := rfl
@[simp] theorem deselectChip_env (s : State) : (deselectChip s).env = s.env := rfl
@[simp] theorem deselectChip_host (s : State) : (deselectChip s).host = s.host := rfl
@[simp] theorem deselectChip_answer (s : State) : (deselectChip s).answer = s.answer := rfl

/-! ### `setGpio` -/

@[simp] theorem setGpio_pstate (line : GpioLine) (level : Level) (s : State) : (setGpio line level s).pstate = s.pstate := by cases line <;> rfl
@[simp] theorem setGpio_owned (line : GpioLine) (level : Level) (s : State) : (setGpio line level s).owned = s.owned := by cases line <;> rfl
@[simp] theorem setGpio_driven (line : GpioLine) (level : Level) (s : State) : (setGpio line level s).driven = s.driven := by cases line <;> rfl
@[simp] theorem setGpio_mode (line : GpioLine) (level : Level) (s : State) : (setGpio line level s).mode = s.mode := by cases line <;> rfl
@[simp] theorem setGpio_pinRst (line : GpioLine) (level : Level) (s : State) : (setGpio line level s).pinRst = if line = .rst then level else s.pinRst := by cases line <;> rfl
@[simp] theorem setGpio_pinDc (line : GpioLine) (level : Level) (s : State) : (setGpio line level s).pinDc = if line = .dc then level else s.pinDc := by cases line <;> rfl
@[simp] theorem setGpio_pinCs (line : GpioLine) (level : Level) (s : State) : (setGpio line level s).pinCs = s.pinCs := by cases line <;> rfl
@[simp] theorem setGpio_res (line : GpioLine) (level : Level) (s : State) : (setGpio line level s).res = s.res := by cases line <;> rfl
@[simp] theorem setGpio_fatal (line : GpioLine) (level : Level) (s : State) : (setGpio line level s).fatal = s.fatal := by cases line <;> rfl
@[simp] theorem setGpio_k (line : GpioLine) (level : Level) (s : State) : (setGpio line level s).k = s.k := by cases line <;> rfl
@[simp] theorem setGpio_upc (line : GpioLine) (level : Level) (s : State) : (setGpio line level s).upc = s.upc := by cases line <;> rfl
@[simp] theorem setGpio_trace (line : GpioLine) (level : Level) (s : State) : (setGpio line level s).trace = s.trace ++ [.gpio line level] := by cases line <;> rfl
@[simp] theorem setGpio_cfg (line : GpioLine) (level : Level) (s : State) : (setGpio line level s).cfg = s.cfg := by cases line <;> rfl
@[simp] theorem setGpio_env (line : GpioLine) (level : Level) (s : State) : (setGpio line level s).env = s.env := by cases line <;> rfl
@[simp] theorem setGpio_host (line : GpioLine) (level : Level) (s : State) : (setGpio line level s).host = s.host := by cases line <;> rfl
@[simp] theorem setGpio_answer (line : GpioLine) (level : Level) (s : State) : (setGpio line level s).answer = s.answer := by cases line <;> rfl

/-! ### `readBusyLine` -/

@[simp] theorem readBusyLine_pstate (s : State) : (readBusyLine s).pstate = s.pstate := rfl
@[simp] theorem readBusyLine_owned (s : State) : (readBusyLine s).owned = s.owned := rfl
@[simp] theorem readBusyLine_driven (s : State) : (readBusyLine s).driven = s.driven := rfl
@[simp] theorem readBusyLine_mode (s : State) : (readBusyLine s).mode = s.mode := rfl
@[simp] theorem readBusyLine_pinRst (s : State) : (readBusyLine s).pinRst = s.pinRst := rfl
@[simp] theorem readBusyLine_pinDc (s : State) : (readBusyLine s).pinDc = s.pinDc := rfl
@[simp] theorem readBusyLine_pinCs (s : State) : (readBusyLine s).pinCs = s.pinCs := rfl
@[simp] theorem readBusyLine_res (s : State) : (readBusyLine s).res = s.res := rfl
@[simp] theorem readBusyLine_fatal (s : State) : (readBusyLine s).fatal = s.fatal := rfl
@[simp] theorem readBusyLine_k (s : State) : (readBusyLine s).k = s.k := rfl
@[simp] theorem readBusyLine_upc (s : State) : (readBusyLine s).upc = s.upc := rfl
@[simp] theorem readBusyLine_trace (s : State) : (readBusyLine s).trace = s.trace ++ [.busy (busyNow s)] := rfl
@[simp] theorem readBusyLine_cfg (s : State) : (readBusyLine s).cfg = s.cfg := rfl
@[simp] theorem readBusyLine_env (s : State) : (readBusyLine s).env = advanceEnv s.env 1 0 0 := rfl
@[simp] theorem readBusyLine_host (s : State) : (readBusyLine s).host = s.host := rfl
@[simp] theorem readBusyLine_answer (s : State) : (readBusyLine s).answer = s.answer := rfl

/-! ### `acquire` -/

@[simp] theorem acquire_pstate (s : State) : (acquire s).pstate = s.pstate := rfl
@[simp] theorem acquire_owned (s : State) : (acquire s).owned = true := rfl
@[simp] theorem acquire_driven (s : State) : (acquire s).driven = true := rfl
@[simp] theorem acquire_mode (s : State) : (acquire s).mode = .none := rfl
@[simp] theorem acquire_pinRst (s : State) : (acquire s).pinRst = !s.cfg.rstActive := rfl
@[simp] theorem acquire_pinDc (s : State) : (acquire s).pinDc = s.cfg.dcCmd := rfl
@[simp] theorem acquire_pinCs (s : State) : (acquire s).pinCs = !s.cfg.csActive := rfl
@[simp] theorem acquire_res (s : State) : (acquire s).res = s.res := rfl
@[simp] theorem acquire_fatal (s : State) : (acquire s).fatal = s.fatal := rfl
@[simp] theorem acquire_k (s : State) : (acquire s).k = s.k := rfl
@[simp] theorem acquire_upc (s : State) : (acquire s).upc = s.upc := rfl
@[simp] theorem acquire_trace (s : State) : (acquire s).trace = s.trace ++ [.acquire] := rfl
@[simp] theorem acquire_cfg (s : State) : (acquire s).cfg = s.cfg := rfl
@[simp] theorem acquire_env (s : State) : (acquire s).env = s.env := rfl
@[simp] theorem acquire_host (s : State) : (acquire s).host = s.host := rfl
@[simp] theorem acquire_answer (s : State) : (acquire s).answer = s.answer := rfl

/-! ### `letGo` -/

@[simp] theorem letGo_pstate (s : State) : (letGo s).pstate = s.pstate := rfl
@[simp] theorem letGo_owned (s : State) : (letGo s).owned = false := rfl
@[simp] theorem letGo_driven (s : State) : (letGo s).driven = false := rfl
@[simp] theorem letGo_mode (s : State) : (letGo s).mode = .none := rfl
@[simp] theorem letGo_pinRst (s : State) : (letGo s).pinRst = s.pinRst := rfl
@[simp] theorem letGo_pinDc (s : State) : (letGo s).pinDc = s.pinDc := rfl
@[simp] theorem letGo_pinCs (s : State) : (letGo s).pinCs = !s.cfg.csActive := rfl
@[simp] theorem letGo_res (s : State) : (letGo s).res = s.res := rfl
@[simp] theorem letGo_fatal (s : State) : (letGo s).fatal = s.fatal := rfl
@[simp] theorem letGo_k (s : State) : (letGo s).k = s.k := rfl
@[simp] theorem letGo_upc (s : State) : (letGo s).upc = s.upc := rfl
@[simp] theorem letGo_trace (s : State) : (letGo s).trace = s.trace ++ [.release] := rfl
@[simp] theorem letGo_cfg (s : State) : (letGo s).cfg = s.cfg := rfl
@[simp] theorem letGo_env (s : State) : (letGo s).env = s.env := rfl
@[simp] theorem letGo_host (s : State) : (letGo s).host = s.host := rfl
@[simp] theorem letGo_answer (s : State) : (letGo s).answer = s.answer := rfl

/-! ### `release` -/

@[simp] theorem release_pstate (s : State) : (release s).pstate = s.pstate := rfl
@[simp] theorem release_owned (s : State) : (release s).owned = false := by simp [release]
@[simp] theorem release_driven (s : State) : (release s).driven = false := by simp [release]
@[simp] theorem release_mode (s : State) : (release s).mode = .none := by simp [release]
@[simp] theorem release_pinRst (s : State) : (release s).pinRst = s.cfg.safeRst := by simp [release]
@[simp] theorem release_pinDc (s : State) : (release s).pinDc = s.cfg.safeDc := by simp [release]
@[simp] theorem release_pinCs (s : State) : (release s).pinCs = !s.cfg.csActive := by simp [release]
@[simp] theorem release_res (s : State) : (release s).res = s.res := rfl
@[simp] theorem release_fatal (s : State) : (release s).fatal = s.fatal := rfl
@[simp] theorem release_k (s : State) : (release s).k = s.k := rfl
@[simp] theorem release_upc (s : State) : (release s).upc = s.upc := rfl
@[simp] theorem release_trace (s : State) : (release s).trace = s.trace ++ [.gpio .rst s.cfg.safeRst, .gpio .dc s.cfg.safeDc, .release] := by simp [release]
@[simp] theorem release_cfg (s : State) : (release s).cfg = s.cfg := rfl
@[simp] theorem release_env (s : State) : (release s).env = s.env := rfl
@[simp] theorem release_host (s : State) : (release s).host = s.host := rfl
@[simp] theorem release_answer (s : State) : (release s).answer = s.answer := rfl

/-! ### `setState` -/

@[simp] theorem setState_pstate (p : PState) (s : State) : (setState p s).pstate = p := by unfold setState; split <;> simp_all
@[simp] theorem setState_owned (p : PState) (s : State) : (setState p s).owned = s.owned := by unfold setState; split <;> simp_all
@[simp] theorem setState_driven (p : PState) (s : State) : (setState p s).driven = s.driven := by unfold setState; split <;> simp_all
@[simp] theorem setState_mode (p : PState) (s : State) : (setState p s).mode = s.mode := by unfold setState; split <;> simp_all
@[simp] theorem setState_pinRst (p : PState) (s : State) : (setState p s).pinRst = s.pinRst := by unfold setState; split <;> simp_all
@[simp] theorem setState_pinDc (p : PState) (s : State) : (setState p s).pinDc = s.pinDc := by unfold setState; split <;> simp_all
@[simp] theorem setState_pinCs (p : PState) (s : State) : (setState p s).pinCs = s.pinCs := by unfold setState; split <;> simp_all
@[simp] theorem setState_res (p : PState) (s : State) : (setState p s).res = s.res := by unfold setState; split <;> simp_all
@[simp] theorem setState_fatal (p : PState) (s : State) : (setState p s).fatal = s.fatal := by unfold setState; split <;> simp_all
@[simp] theorem setState_k (p : PState) (s : State) : (setState p s).k = s.k := by unfold setState; split <;> simp_all
@[simp] theorem setState_upc (p : PState) (s : State) : (setState p s).upc = s.upc := by unfold setState; split <;> simp_all
@[simp] theorem setState_trace (p : PState) (s : State) : (setState p s).trace = s.trace ++ (if s.pstate = p then [] else [.pstate p]) := by unfold setState; split <;> simp_all
@[simp] theorem setState_cfg (p : PState) (s : State) : (setState p s).cfg = s.cfg := by unfold setState; split <;> simp_all
@[simp] theorem setState_env (p : PState) (s : State) : (setState p s).env = s.env := by unfold setState; split <;> simp_all
@[simp] theorem setState_host (p : PState) (s : State) : (setState p s).host = s.host := by unfold setState; split <;> simp_all
@[simp] theorem setState_answer (p : PState) (s : State) : (setState p s).answer = s.answer := by unfold setState; split <;> simp_all

/-! ### `setMode` -/

@[simp] theorem setMode_pstate (m : Mode) (s : State) : (setMode m s).pstate = s.pstate := rfl
@[simp] theorem setMode_owned (m : Mode) (s : State) : (setMode m s).owned = s.owned := rfl
@[simp] theorem setMode_driven (m : Mode) (s : State) : (setMode m s).driven = s.driven := rfl
@[simp] theorem setMode_mode (m : Mode) (s : State) : (setMode m s).mode = m := rfl
@[simp] theorem setMode_pinRst (m : Mode) (s : State) : (setMode m s).pinRst = s.pinRst := rfl
@[simp] theorem setMode_pinDc (m : Mode) (s : State) : (setMode m s).pinDc = s.pinDc := rfl
@[simp] theorem setMode_pinCs (m : Mode) (s : State) : (setMode m s).pinCs = s.pinCs := rfl
@[simp] theorem setMode_res (m : Mode) (s : State) : (setMode m s).res = s.res := rfl
@[simp] theorem setMode_fatal (m : Mode) (s : State) : (setMode m s).fatal = s.fatal := rfl
@[simp] theorem setMode_k (m : Mode) (s : State) : (setMode m s).k = s.k := rfl
@[simp] theorem setMode_upc (m : Mode) (s : State) : (setMode m s).upc = s.upc := rfl
@[simp] theorem setMode_trace (m : Mode) (s : State) : (setMode m s).trace = s.trace := rfl
@[simp] theorem setMode_cfg (m : Mode) (s : State) : (setMode m s).cfg = s.cfg := rfl
@[simp] theorem setMode_env (m : Mode) (s : State) : (setMode m s).env = s.env := rfl
@[simp] theorem setMode_host (m : Mode) (s : State) : (setMode m s).host = s.host := rfl
@[simp] theorem setMode_answer (m : Mode) (s : State) : (setMode m s).answer = s.answer := rfl

/-! ### `clearK` -/

@[simp] theorem clearK_pstate (s : State) : (clearK s).pstate = s.pstate := rfl
@[simp] theorem clearK_owned (s : State) : (clearK s).owned = s.owned := rfl
@[simp] theorem clearK_driven (s : State) : (clearK s).driven = s.driven := rfl
@[simp] theorem clearK_mode (s : State) : (clearK s).mode = s.mode := rfl
@[simp] theorem clearK_pinRst (s : State) : (clearK s).pinRst = s.pinRst := rfl
@[simp] theorem clearK_pinDc (s : State) : (clearK s).pinDc = s.pinDc := rfl
@[simp] theorem clearK_pinCs (s : State) : (clearK s).pinCs = s.pinCs := rfl
@[simp] theorem clearK_res (s : State) : (clearK s).res = s.res := rfl
@[simp] theorem clearK_fatal (s : State) : (clearK s).fatal = s.fatal := rfl
@[simp] theorem clearK_k (s : State) : (clearK s).k = 0 := rfl
@[simp] theorem clearK_upc (s : State) : (clearK s).upc = s.upc := rfl
@[simp] theorem clearK_trace (s : State) : (clearK s).trace = s.trace := rfl
@[simp] theorem clearK_cfg (s : State) : (clearK s).cfg = s.cfg := rfl
@[simp] theorem clearK_env (s : State) : (clearK s).env = s.env := rfl
@[simp] theorem clearK_host (s : State) : (clearK s).host = s.host := rfl
@[simp] theorem clearK_answer (s : State) : (clearK s).answer = s.answer := rfl

/-! ### `present` -/

@[simp] theorem present_pstate (c : ResultCode) (v : Value) (s : State) : (present c v s).pstate = s.pstate := rfl
@[simp] theorem present_owned (c : ResultCode) (v : Value) (s : State) : (present c v s).owned = s.owned := rfl
@[simp] theorem present_driven (c : ResultCode) (v : Value) (s : State) : (present c v s).driven = s.driven := rfl
@[simp] theorem present_mode (c : ResultCode) (v : Value) (s : State) : (present c v s).mode = s.mode := rfl
@[simp] theorem present_pinRst (c : ResultCode) (v : Value) (s : State) : (present c v s).pinRst = s.pinRst := rfl
@[simp] theorem present_pinDc (c : ResultCode) (v : Value) (s : State) : (present c v s).pinDc = s.pinDc := rfl
@[simp] theorem present_pinCs (c : ResultCode) (v : Value) (s : State) : (present c v s).pinCs = s.pinCs := rfl
@[simp] theorem present_res (c : ResultCode) (v : Value) (s : State) : (present c v s).res = s.res := rfl
@[simp] theorem present_fatal (c : ResultCode) (v : Value) (s : State) : (present c v s).fatal = s.fatal := rfl
@[simp] theorem present_k (c : ResultCode) (v : Value) (s : State) : (present c v s).k = s.k := rfl
@[simp] theorem present_upc (c : ResultCode) (v : Value) (s : State) : (present c v s).upc = s.upc := rfl
@[simp] theorem present_trace (c : ResultCode) (v : Value) (s : State) : (present c v s).trace = s.trace := rfl
@[simp] theorem present_cfg (c : ResultCode) (v : Value) (s : State) : (present c v s).cfg = s.cfg := rfl
@[simp] theorem present_env (c : ResultCode) (v : Value) (s : State) : (present c v s).env = s.env := rfl
@[simp] theorem present_host (c : ResultCode) (v : Value) (s : State) : (present c v s).host = s.host := rfl
@[simp] theorem present_answer (c : ResultCode) (v : Value) (s : State) : (present c v s).answer = some ⟨c, v⟩ := rfl

/-! ### `atPosition` -/

@[simp] theorem atPosition_pstate (rest : List Micro) (s : State) : (atPosition rest s).pstate = s.pstate := rfl
@[simp] theorem atPosition_owned (rest : List Micro) (s : State) : (atPosition rest s).owned = s.owned := rfl
@[simp] theorem atPosition_driven (rest : List Micro) (s : State) : (atPosition rest s).driven = s.driven := rfl
@[simp] theorem atPosition_mode (rest : List Micro) (s : State) : (atPosition rest s).mode = s.mode := rfl
@[simp] theorem atPosition_pinRst (rest : List Micro) (s : State) : (atPosition rest s).pinRst = s.pinRst := rfl
@[simp] theorem atPosition_pinDc (rest : List Micro) (s : State) : (atPosition rest s).pinDc = s.pinDc := rfl
@[simp] theorem atPosition_pinCs (rest : List Micro) (s : State) : (atPosition rest s).pinCs = s.pinCs := rfl
@[simp] theorem atPosition_res (rest : List Micro) (s : State) : (atPosition rest s).res = s.res := rfl
@[simp] theorem atPosition_fatal (rest : List Micro) (s : State) : (atPosition rest s).fatal = s.fatal := rfl
@[simp] theorem atPosition_k (rest : List Micro) (s : State) : (atPosition rest s).k = s.k := rfl
@[simp] theorem atPosition_upc (rest : List Micro) (s : State) : (atPosition rest s).upc = .running rest := rfl
@[simp] theorem atPosition_trace (rest : List Micro) (s : State) : (atPosition rest s).trace = s.trace := rfl
@[simp] theorem atPosition_cfg (rest : List Micro) (s : State) : (atPosition rest s).cfg = s.cfg := rfl
@[simp] theorem atPosition_env (rest : List Micro) (s : State) : (atPosition rest s).env = s.env := rfl
@[simp] theorem atPosition_host (rest : List Micro) (s : State) : (atPosition rest s).host = s.host := rfl
@[simp] theorem atPosition_answer (rest : List Micro) (s : State) : (atPosition rest s).answer = s.answer := rfl

/-! ### `atIdle` -/

@[simp] theorem atIdle_pstate (s : State) : (atIdle s).pstate = s.pstate := rfl
@[simp] theorem atIdle_owned (s : State) : (atIdle s).owned = s.owned := rfl
@[simp] theorem atIdle_driven (s : State) : (atIdle s).driven = s.driven := rfl
@[simp] theorem atIdle_mode (s : State) : (atIdle s).mode = s.mode := rfl
@[simp] theorem atIdle_pinRst (s : State) : (atIdle s).pinRst = s.pinRst := rfl
@[simp] theorem atIdle_pinDc (s : State) : (atIdle s).pinDc = s.pinDc := rfl
@[simp] theorem atIdle_pinCs (s : State) : (atIdle s).pinCs = s.pinCs := rfl
@[simp] theorem atIdle_res (s : State) : (atIdle s).res = s.res := rfl
@[simp] theorem atIdle_fatal (s : State) : (atIdle s).fatal = s.fatal := rfl
@[simp] theorem atIdle_k (s : State) : (atIdle s).k = s.k := rfl
@[simp] theorem atIdle_upc (s : State) : (atIdle s).upc = .idle := rfl
@[simp] theorem atIdle_trace (s : State) : (atIdle s).trace = s.trace := rfl
@[simp] theorem atIdle_cfg (s : State) : (atIdle s).cfg = s.cfg := rfl
@[simp] theorem atIdle_env (s : State) : (atIdle s).env = s.env := rfl
@[simp] theorem atIdle_host (s : State) : (atIdle s).host = s.host := rfl
@[simp] theorem atIdle_answer (s : State) : (atIdle s).answer = s.answer := rfl

end Sys2Proof.Machine
end

