-- ==== Sys2Proof/Laws/Env.lean ====
section
/-!
SUPPORT. Draws: an environment advanced twice, and what its later answers are.
-/

namespace Sys2Proof.Machine

@[simp] theorem advanceEnv_zero (e : Env) : advanceEnv e 0 0 0 = e := by
  cases e; simp [advanceEnv]

@[simp] theorem advanceEnv_advanceEnv (e : Env) (b w i b' w' i' : Nat) :
    advanceEnv (advanceEnv e b w i) b' w' i' = advanceEnv e (b + b') (w + w') (i + i') := by
  simp [advanceEnv, Nat.add_assoc]

@[simp] theorem busyAt_advanceEnv (e : Env) (b w i j : Nat) :
    busyAt (advanceEnv e b w i) j = busyAt e (b + j) := by
  simp [busyAt, advanceEnv, Nat.add_assoc, List.getD]

@[simp] theorem spiAt_advanceEnv (e : Env) (b w i j : Nat) :
    spiAt (advanceEnv e b w i) j = spiAt e (w + j) := by
  simp [spiAt, advanceEnv, Nat.add_assoc, List.getD]

@[simp] theorem intrAt_advanceEnv (e : Env) (b w i j : Nat) :
    intrAt (advanceEnv e b w i) j = intrAt e (i + j) := by
  simp [intrAt, advanceEnv, Nat.add_assoc, List.getD]

end Sys2Proof.Machine
end

