-- ==== Sys2Proof/Laws/Runs.lean ====
section
/-!
SUPPORT. What the shared operations can do, one lemma each: a bus write, a delay, a busy sample, a wait, the release and
fatal paths, a listing run in two parts, a frame sent whole, and what no listing step touches.
-/

namespace Sys2Proof.Machine

/-- The state a run ended in. -/
def Run.state : Run → State
  | .ok s => s
  | .raised _ s => s

@[simp] theorem Run.state_ok (s : State) : (Run.ok s).state = s := rfl
@[simp] theorem Run.state_raised (e : ResultCode) (s : State) : (Run.raised e s).state = s := rfl

/-- The state a wait ended in. -/
def Waited.state : Waited → State
  | .interrupted s => s
  | .ready s => s
  | .timeout s => s

/-! ### Bus writes and delays -/

theorem writeBytes_nil (s : State) : writeBytes [] s = .ok s := rfl

/-- The state after a transaction that has ended with event `ev`. -/
def afterWrite (ev : Event) (s : State) : State :=
  { s with pinCs := !s.cfg.csActive, trace := s.trace ++ [ev], env := advanceEnv s.env 0 1 0 }

theorem writeBytes_ok {data : List Byte} {s : State} (hd : data ≠ []) (h : spiAt s.env 0 = true) :
    writeBytes data s = .ok (afterWrite (.spi s.pinDc data) s) := by
  simp [writeBytes, hd, h]; rfl

theorem writeBytes_fails {data : List Byte} {s : State} (hd : data ≠ []) (h : spiAt s.env 0 = false) :
    writeBytes data s = .raised .transportError (afterWrite (.spiFail s.pinDc data) s) := by
  simp [writeBytes, hd, h]; rfl

/-- The state after a delay that was performed. -/
def afterDelay (ticks : Nat) (s : State) : State :=
  { s with trace := s.trace ++ [.delay ticks], env := advanceEnv s.env 0 0 1 }

theorem delay_ok {ticks : Nat} {s : State} (h : intrAt s.env 0 = false) : delay ticks s = .ok (afterDelay ticks s) := by
  simp [delay, h]; rfl

theorem delay_interrupted {ticks : Nat} {s : State} (h : intrAt s.env 0 = true) :
    delay ticks s = .raised .interrupted (drawIntr s) := by
  simp [delay, h]

/-! ### Samples and waits -/

/-- The state after a sample that read `b`. -/
def afterSample (b : Bool) (s : State) : State :=
  { s with k := s.k + b.toNat, trace := s.trace ++ [.busy b], env := advanceEnv s.env 1 0 1 }

theorem sample_interrupted {s : State} (h : intrAt s.env 0 = true) : sample s = .interrupted (drawIntr s) := by
  simp [sample, h]

theorem sample_ready {s : State} (hi : intrAt s.env 0 = false) (hb : busyAt s.env 0 ≠ s.cfg.busyActive) :
    sample s = .ready (afterSample false s) := by
  have hn : busyNow (drawIntr s) = false := by simp [busyNow, hb]
  simp only [sample, hi, hn, readBusyLine]
  simp [afterSample, emit, drawBusy, drawIntr]

theorem sample_busy {s : State} (hi : intrAt s.env 0 = false) (hb : busyAt s.env 0 = s.cfg.busyActive) :
    sample s = .busy (afterSample true s) := by
  have hn : busyNow (drawIntr s) = true := by simp [busyNow, hb]
  simp only [sample, hi, hn, readBusyLine]
  simp [afterSample, emit, drawBusy, drawIntr]

theorem poll_ready {more : Nat} {s : State} (hi : intrAt s.env 0 = false) (hb : busyAt s.env 0 ≠ s.cfg.busyActive) :
    poll more s = .ready (afterSample false s) := by
  cases more <;> simp [poll, sample_ready hi hb]

theorem poll_zero_busy {s : State} (hi : intrAt s.env 0 = false) (hb : busyAt s.env 0 = s.cfg.busyActive) :
    poll 0 s = .timeout (afterSample true s) := by
  simp [poll, sample_busy hi hb]

theorem poll_succ_busy {more : Nat} {s : State} (hi : intrAt s.env 0 = false) (hj : intrAt s.env 1 = false)
    (hb : busyAt s.env 0 = s.cfg.busyActive) :
    poll (more + 1) s = poll more (afterDelay s.cfg.tPoll (afterSample true s)) := by
  have h : intrAt (afterSample true s).env 0 = false := by simpa [afterSample] using hj
  simp only [poll, sample_busy hi hb, delay_ok h]
  rfl

/-- A wait whose first sample reads ready. -/
theorem waitNotBusy_ready_now {s : State} (hi : intrAt s.env 0 = false) (hb : busyAt s.env 0 ≠ s.cfg.busyActive) :
    waitNotBusy s =
      .ready { s with k := 0, trace := s.trace ++ [.busy false], env := advanceEnv s.env 1 0 1 } := by
  have := poll_ready (more := s.cfg.nPollMax.pred) (s := clearK s) hi hb
  simpa [waitNotBusy, afterSample, clearK] using this

/-! ### The release and fatal paths -/

theorem release_eq (s : State) :
    release s = { s with
      owned := false, driven := false, mode := .none, pinRst := s.cfg.safeRst, pinDc := s.cfg.safeDc,
      pinCs := !s.cfg.csActive, trace := s.trace ++ releaseEvents s.cfg } := by
  simp [release, letGo, setGpio, emit, deselectChip, releaseEvents]

theorem setState_eq (p : PState) (s : State) :
    setState p s = { s with pstate := p, trace := s.trace ++ stateEvents s.pstate p } := by
  unfold setState stateEvents
  split
  · next h => simp [← h]
  · rfl

theorem fatal_eq (code : ResultCode) (s : State) :
    fatal code s = { s with
      pstate := .exited, owned := false, driven := false, mode := .none, pinRst := s.cfg.safeRst, pinDc := s.cfg.safeDc,
      pinCs := !s.cfg.csActive, fatal := true, res := code,
      trace := s.trace ++ releaseEvents s.cfg ++ stateEvents s.pstate .exited } := by
  simp [fatal, release_eq, setState_eq]

/-! ### Listings -/

@[simp] theorem runList_nil (s : State) : runList [] s = .ok s := rfl

theorem runList_cons (m : Micro) (ms : List Micro) (s : State) :
    runList (m :: ms) s = match runMicro m s with
      | .ok t => runList ms t
      | .raised e t => .raised e t := rfl

theorem runList_cons_ok {m : Micro} {ms : List Micro} {s t : State} (h : runMicro m s = .ok t) :
    runList (m :: ms) s = runList ms t := by
  simp [runList_cons, h]

theorem runList_cons_raised {m : Micro} {ms : List Micro} {s t : State} {e : ResultCode}
    (h : runMicro m s = .raised e t) : runList (m :: ms) s = .raised e t := by
  simp [runList_cons, h]

/-- A listing in two parts. -/
theorem runList_append (xs ys : List Micro) (s : State) :
    runList (xs ++ ys) s = match runList xs s with
      | .ok t => runList ys t
      | .raised e t => .raised e t := by
  induction xs generalizing s with
  | nil => rfl
  | cons m ms ih =>
    simp only [List.cons_append, runList_cons]
    cases runMicro m s with
    | ok t => exact ih t
    | raised e t => rfl

theorem runList_append_ok {xs ys : List Micro} {s t : State} (h : runList xs s = .ok t) :
    runList (xs ++ ys) s = runList ys t := by
  simp [runList_append, h]

theorem runList_append_raised {xs ys : List Micro} {s t : State} {e : ResultCode} (h : runList xs s = .raised e t) :
    runList (xs ++ ys) s = .raised e t := by
  simp [runList_append, h]

/-- A wait in a listing whose first sample reads ready. -/
theorem runMicro_wait_ready_now {e : ResultCode} {s : State} (hi : intrAt s.env 0 = false)
    (hb : busyAt s.env 0 ≠ s.cfg.busyActive) :
    runMicro (.wait e) s =
      .ok { s with k := 0, trace := s.trace ++ [.busy false], env := advanceEnv s.env 1 0 1 } := by
  simp [runMicro, waitNotBusy_ready_now hi hb, raiseOnTimeout]

/-! ### Frames sent whole -/

/-- `sendCommand` whose write succeeds. -/
theorem runList_sendCommand_ok {op : Byte} {s : State} (h : spiAt s.env 0 = true) :
    runList (listSendCommand s.cfg op) s = .ok (afterFrame ⟨op, []⟩ s) := by
  have hw : writeBytes [op] (setGpio .dc s.cfg.dcCmd s) = _ := writeBytes_ok (by simp) (by simpa using h)
  simp only [listSendCommand, runList, runMicro, hw]
  simp [afterWrite, setGpio, setMode, emit, afterFrame, modeAfter, dcAfter, frameEvents, commandEvents, dataEvents, writesOf]

/-- The first data after a command byte, its write succeeding (R152). -/
theorem runList_sendData_ok {data : List Byte} {s : State} (hd : data ≠ []) (hm : s.mode = .command)
    (h : spiAt s.env 0 = true) :
    runList (listSendData data) s = .ok { s with
      mode := .data, pinDc := dcData s.cfg, pinCs := !s.cfg.csActive,
      trace := s.trace ++ dataEvents s.cfg data, env := advanceEnv s.env 0 1 0 } := by
  have hc : hasContext s = true := by simp [hasContext, hm]
  simp only [listSendData, hd, if_false, runList, runMicro, hc, if_true, hm, reduceCtorEq]
  rw [writeBytes_ok hd (by simpa using h)]
  simp [afterWrite, setGpio, setMode, emit, dataEvents, hd]

/-- A frame sent whole, both its writes succeeding (R153). -/
theorem runList_sendFrame_ok {f : CommandFrame} {s : State} (h : WritesSucceedFor (writesOf f) s) :
    runList (listSendFrame s.cfg f) s = .ok (afterFrame f s) := by
  obtain ⟨op, data⟩ := f
  by_cases hd : data = []
  · subst hd
    simpa [listSendFrame] using runList_sendCommand_ok (op := op) (h 0 (by simp [writesOf]))
  · have h0 : spiAt s.env 0 = true := h 0 (by simp [writesOf, hd])
    have h1 : spiAt s.env 1 = true := h 1 (by simp [writesOf, hd])
    simp only [listSendFrame, hd, if_false]
    rw [runList_append_ok (runList_sendCommand_ok h0),
      runList_sendData_ok hd rfl (by simpa [afterFrame, writesOf] using h1)]
    simp [afterFrame, modeAfter, dcAfter, hd, frameEvents, commandEvents, dataEvents, writesOf]

/-- Data that is not empty, sent after a command, is the rest of a frame. -/
theorem listPlaneWrite_eq {c : Cfg} {op : Byte} {frame : List Byte} (h : frame ≠ []) :
    listPlaneWrite c op frame = listSendFrame c ⟨op, frame⟩ := by
  simp [listPlaneWrite, listSendFrame, h]

@[simp] theorem afterFrame_cfg (f : CommandFrame) (s : State) : (afterFrame f s).cfg = s.cfg := rfl
@[simp] theorem afterFrame_env (f : CommandFrame) (s : State) :
    (afterFrame f s).env = advanceEnv s.env 0 (writesOf f) 0 := rfl
@[simp] theorem afterFrame_pstate (f : CommandFrame) (s : State) : (afterFrame f s).pstate = s.pstate := rfl

@[simp] theorem afterFrames_nil (s : State) : afterFrames [] s = s := rfl
@[simp] theorem afterFrames_cons (f : CommandFrame) (fs : List CommandFrame) (s : State) :
    afterFrames (f :: fs) s = afterFrames fs (afterFrame f s) := rfl

@[simp] theorem afterFrames_cfg (fs : List CommandFrame) (s : State) : (afterFrames fs s).cfg = s.cfg := by
  induction fs generalizing s with
  | nil => rfl
  | cons f fs ih => simp [ih]

@[simp] theorem writesOfAll_cons (f : CommandFrame) (fs : List CommandFrame) :
    writesOfAll (f :: fs) = writesOf f + writesOfAll fs := by simp [writesOfAll]

/-- The frames of a command table sent in order, all writes succeeding. -/
theorem runList_sendFrames_ok (fs : List CommandFrame) {c : Cfg} {s : State} (hc : c = s.cfg)
    (h : WritesSucceedFor (writesOfAll fs) s) :
    runList (fs.flatMap (listSendFrame c)) s = .ok (afterFrames fs s) := by
  induction fs generalizing s with
  | nil => rfl
  | cons f fs ih =>
    subst hc
    have hf : WritesSucceedFor (writesOf f) s := fun j hj => h j (by simp; omega)
    rw [List.flatMap_cons, runList_append_ok (runList_sendFrame_ok hf), afterFrames_cons]
    refine ih rfl fun j hj => ?_
    simpa using h (writesOf f + j) (by simp; omega)

end Sys2Proof.Machine
end

