-- ==== Sys2Proof/Laws/Frames.lean ====
section
/-!
SUPPORT. What no listing step touches: `CFG`, the host's script, `UPC`, the port's answer, `RES` and `FATAL`, and the
events already in `TRACE`.
-/

namespace Sys2Proof.Machine

/-- `t` has grown out of `s` by steps of a listing. -/
structure Grown (s t : State) : Prop where
  cfg : t.cfg = s.cfg
  host : t.host = s.host
  upc : t.upc = s.upc
  answer : t.answer = s.answer
  res : t.res = s.res
  fatal : t.fatal = s.fatal
  trace : ∃ l, t.trace = s.trace ++ l

theorem Grown.refl (s : State) : Grown s s := ⟨rfl, rfl, rfl, rfl, rfl, rfl, [], by simp⟩

theorem Grown.trans {s t u : State} (h : Grown s t) (k : Grown t u) : Grown s u := by
  obtain ⟨a, b, c, d, e, f, l, g⟩ := h
  obtain ⟨a', b', c', d', e', f', l', g'⟩ := k
  exact ⟨a'.trans a, b'.trans b, c'.trans c, d'.trans d, e'.trans e, f'.trans f, l ++ l', by rw [g', g, List.append_assoc]⟩

theorem grown_setGpio (line : GpioLine) (level : Level) (s : State) : Grown s (setGpio line level s) :=
  ⟨by simp, by simp, by simp, by simp, by simp, by simp, _, setGpio_trace line level s⟩

theorem grown_setState (p : PState) (s : State) : Grown s (setState p s) :=
  ⟨by simp, by simp, by simp, by simp, by simp, by simp, _, setState_trace p s⟩

theorem grown_acquire (s : State) : Grown s (acquire s) := ⟨rfl, rfl, rfl, rfl, rfl, rfl, _, rfl⟩

theorem grown_letGo (s : State) : Grown s (letGo s) := ⟨rfl, rfl, rfl, rfl, rfl, rfl, _, rfl⟩

theorem grown_release (s : State) : Grown s (release s) :=
  (grown_setGpio _ _ s).trans ((grown_setGpio _ _ _).trans (grown_letGo _))

theorem grown_afterWrite (ev : Event) (s : State) : Grown s (afterWrite ev s) := ⟨rfl, rfl, rfl, rfl, rfl, rfl, _, rfl⟩

theorem grown_writeBytes (data : List Byte) (s : State) : Grown s (writeBytes data s).state := by
  by_cases hd : data = []
  · subst hd; exact .refl s
  · cases h : spiAt s.env 0 with
    | true => rw [writeBytes_ok hd h]; exact grown_afterWrite _ s
    | false => rw [writeBytes_fails hd h]; exact grown_afterWrite _ s

theorem grown_delay (ticks : Nat) (s : State) : Grown s (delay ticks s).state := by
  cases h : intrAt s.env 0 with
  | true => rw [delay_interrupted h]; exact ⟨rfl, rfl, rfl, rfl, rfl, rfl, [], by simp⟩
  | false => rw [delay_ok h]; exact ⟨rfl, rfl, rfl, rfl, rfl, rfl, _, rfl⟩

theorem grown_drawIntr (s : State) : Grown s (drawIntr s) := ⟨rfl, rfl, rfl, rfl, rfl, rfl, [], by simp⟩

theorem grown_clearK (s : State) : Grown s (clearK s) := ⟨rfl, rfl, rfl, rfl, rfl, rfl, [], by simp⟩

theorem grown_setMode (m : Mode) (s : State) : Grown s (setMode m s) := ⟨rfl, rfl, rfl, rfl, rfl, rfl, [], by simp⟩

theorem grown_afterSample (b : Bool) (s : State) : Grown s (afterSample b s) := ⟨rfl, rfl, rfl, rfl, rfl, rfl, _, rfl⟩

theorem grown_afterDelay (ticks : Nat) (s : State) : Grown s (afterDelay ticks s) := ⟨rfl, rfl, rfl, rfl, rfl, rfl, _, rfl⟩

/-- The three ways a sample ends. -/
theorem sample_cases (s : State) :
    (intrAt s.env 0 = true ∧ sample s = .interrupted (drawIntr s)) ∨
    (intrAt s.env 0 = false ∧ busyAt s.env 0 ≠ s.cfg.busyActive ∧ sample s = .ready (afterSample false s)) ∨
    (intrAt s.env 0 = false ∧ busyAt s.env 0 = s.cfg.busyActive ∧ sample s = .busy (afterSample true s)) := by
  cases hi : intrAt s.env 0 with
  | true => exact .inl ⟨rfl, sample_interrupted hi⟩
  | false =>
    by_cases hb : busyAt s.env 0 = s.cfg.busyActive
    · exact .inr (.inr ⟨rfl, hb, sample_busy hi hb⟩)
    · exact .inr (.inl ⟨rfl, hb, sample_ready hi hb⟩)

theorem grown_poll (more : Nat) (s : State) : Grown s (poll more s).state := by
  induction more generalizing s with
  | zero =>
    rcases sample_cases s with ⟨-, h⟩ | ⟨-, -, h⟩ | ⟨-, -, h⟩ <;> simp only [poll, h, Waited.state]
    · exact grown_drawIntr s
    · exact grown_afterSample _ s
    · exact grown_afterSample _ s
  | succ more ih =>
    rcases sample_cases s with ⟨-, h⟩ | ⟨-, -, h⟩ | ⟨-, -, h⟩
    · simp only [poll, h, Waited.state]; exact grown_drawIntr s
    · simp only [poll, h, Waited.state]; exact grown_afterSample _ s
    · simp only [poll, h]
      cases hj : intrAt (afterSample true s).env 0 with
      | true => rw [delay_interrupted hj]; exact (grown_afterSample _ s).trans (grown_drawIntr _)
      | false => rw [delay_ok hj]; exact (grown_afterSample _ s).trans ((grown_afterDelay _ _).trans (ih _))

theorem grown_waitNotBusy (s : State) : Grown s (waitNotBusy s).state :=
  (grown_clearK s).trans (grown_poll _ (clearK s))

theorem state_raiseOnTimeout (e : ResultCode) (w : Waited) : (raiseOnTimeout e w).state = w.state := by
  cases w <;> rfl

theorem grown_runMicro (m : Micro) (s : State) : Grown s (runMicro m s).state := by
  cases m with
  | setGpio line level => exact grown_setGpio line level s
  | writeBytes data => exact grown_writeBytes data s
  | delay ticks => exact grown_delay ticks s
  | setMode m => exact grown_setMode m s
  | needContext => simp only [runMicro]; split <;> exact .refl s
  | dataLine =>
    simp only [runMicro, Run.state_ok]
    split
    · exact .refl s
    · exact (grown_setGpio _ _ s).trans (grown_setMode _ _)
  | acquireIfUninitialized =>
    simp only [runMicro, Run.state_ok]
    split
    · exact grown_acquire s
    · exact .refl s
  | letGo => exact grown_letGo s
  | setState p => exact grown_setState p s
  | wait e => simpa [runMicro, state_raiseOnTimeout] using grown_waitNotBusy s
  | sample e => simpa [runMicro, state_raiseOnTimeout] using grown_poll _ s
  | pollDelay e =>
    simp only [runMicro]
    have h := grown_delay s.cfg.tPoll s
    cases hd : delay s.cfg.tPoll s with
    | raised e' t => simpa [hd] using h
    | ok t => rw [hd] at h; exact h.trans (by simpa [state_raiseOnTimeout] using grown_poll _ t)

theorem grown_runList (ms : List Micro) (s : State) : Grown s (runList ms s).state := by
  induction ms generalizing s with
  | nil => exact .refl s
  | cons m ms ih =>
    have h := grown_runMicro m s
    cases hm : runMicro m s with
    | raised e t => rw [runList_cons_raised hm]; simpa [hm] using h
    | ok t => rw [runList_cons_ok hm]; rw [hm] at h; exact h.trans (ih t)

end Sys2Proof.Machine
end

