-- ==== Sys2Proof/Laws/Packing.lean ====
section
/-!
SUPPORT. What is at each place of a packed frame (42_frame_packer.md).
-/

namespace Sys2Proof.Machine

/-- A scanline packs into `ceil(w / 8)` bytes. -/
theorem packedLine_length (p : Plane) (r) : (packedLine p r).length = (p.w+7)/8 := by simp [packedLine, ceilDiv8]

/-- Lines of equal length, one after another. -/
theorem flatMap_range_length (n m : Nat) (f : Nat → List Byte) (h : ∀ r, (f r).length = m) :
    ((List.range n).flatMap f).length = m * n := by
  induction n with
  | zero => simp
  | succ n ih => simp [List.range_succ, ih, h, Nat.mul_succ]

/-- Element `j` of line `r`, the lines having equal length. -/
theorem flatMap_range_get (n m : Nat) (f : Nat → List Byte) (h : ∀ r, (f r).length = m) (r j) (hr : r < n)
    (hj : j < m) :
    ((List.range n).flatMap f)[r * m + j]? = (f r)[j]? := by
  induction n with
  | zero => omega
  | succ n ih =>
    have hl := flatMap_range_length n m f h
    rw [List.range_succ, List.flatMap_append]
    simp only [List.flatMap_cons, List.flatMap_nil, List.append_nil]
    by_cases hrn : r < n
    · rw [List.getElem?_append_left, ih hrn]
      rw [hl]
      have : r * m + m ≤ m * n :=
          by rw [Nat.mul_comm m n]; have := Nat.mul_le_mul_right m (show r+1 ≤ n from hrn); rw [Nat.succ_mul] at this; exact this
      omega
    · have : r = n := by omega
      subst this
      rw [List.getElem?_append_right (by rw [hl, Nat.mul_comm]; omega), hl, Nat.mul_comm m r]
      simp

theorem packRaw_get (p : Plane) (r j) (hr : r < p.h) (hj : j < (p.w+7)/8) : (packRaw p)[r * ((p.w+7)/8) + j]? = some
    (packedByteAt p r j) := by
  rw [packRaw, flatMap_range_get _ _ _ (packedLine_length p) r j hr hj]
  simp only [packedLine, ceilDiv8]
  simp [hj]

/-- A frame of the panel's size is not empty. -/
theorem packRaw_ne (c : Cfg) (p : Plane) (h : fits c p = true) : packRaw p ≠ [] := by
  simp only [fits, Bool.and_eq_true, beq_iff_eq] at h
  have h0 := packRaw_get p 0 0 (by rw [h.2]; simp [Pos.val]) (by rw [h.1]; simp only [Pos.val]; omega)
  intro e
  rw [e] at h0
  simp at h0

/-- The weighted sum of 30_encoding.md R107. -/
theorem cellsByte_toNat (a b c d e f g h : Bit) :
    (cellsByte a b c d e f g h).toNat = a.toNat * 128 + b.toNat * 64 + c.toNat * 32 + d.toNat * 16
    + e.toNat * 8 + f.toNat * 4 + g.toNat * 2 + h.toNat := by revert a b c d e f g h; decide

/-- A cell of a well-formed plane (R107). -/
theorem cellAt_wf (p : Plane) (r x) (hw : p.wellFormed = true) (hr : r < p.h) :
   cellAt p r x = if x < p.w then p.px.getD (r * p.w + x) false else true := by
  simp only [cellAt, pixelAt]
  split
  · next h =>
    have : r * p.w + x < p.px.length := by
      simp [Plane.wellFormed] at hw; rw [hw]
      have := Nat.mul_le_mul_right p.w (show r+1 ≤ p.h from hr)
      rw [Nat.succ_mul] at this; rw [Nat.mul_comm p.w]; omega
    simp [List.getD, List.getElem?_eq_getElem this]
  · rfl

/-- Cell `k` from the left is bit `7 - k`. -/
theorem cellsByte_bits (a b c d e f g h : Bit) (k) (hk : k < 8) : (cellsByte a b c d e f g h).getLsbD
    (7-k) = [a,b,c,d,e,f,g,h].getD k false := by
  have : k = 0 ∨ k = 1 ∨ k = 2 ∨ k = 3 ∨ k = 4 ∨ k = 5 ∨ k = 6 ∨ k = 7 := by omega
  rcases this with rfl | rfl | rfl | rfl | rfl | rfl | rfl | rfl <;> (revert a b c d e f g h; decide)

/-- A packed frame's cells are the plane's cells, the padding among them (R106, R178). -/
theorem frameCell_packRaw (p : Plane) (r x) (hr : r < p.h) (hx : x < 8 * ceilDiv8 p.w) :
    frameCell p.w (packRaw p) r x = cellAt p r x := by
  obtain ⟨j, k, hk, rfl⟩ : ∃ j k, k < 8 ∧ x = 8 * j + k := ⟨x / 8, x % 8, by omega, by omega⟩
  have hg := packRaw_get p r j hr (by simp only [ceilDiv8] at hx; omega)
  simp only [frameCell, byteCell, List.getD, ceilDiv8, show (8 * j + k) / 8 = j by omega, show (8 * j + k) % 8 = k by omega,
    hg, Option.getD_some, packedByteAt, cellsByte_bits _ _ _ _ _ _ _ _ _ hk]
  have : k = 0 ∨ k = 1 ∨ k = 2 ∨ k = 3 ∨ k = 4 ∨ k = 5 ∨ k = 6 ∨ k = 7 := by omega
  rcases this with rfl | rfl | rfl | rfl | rfl | rfl | rfl | rfl <;> rfl

/-- Eight cells that are a byte's cells make that byte. -/
theorem packedByteAt_eq {p : Plane} {r j : Nat} {b : Byte} (h : ∀ k < 8, cellAt p r (8 * j + k) = byteCell b k) :
    packedByteAt p r j = b := by
  rw [packedByteAt, h 1 (by decide), h 2 (by decide), h 3 (by decide), h 4 (by decide), h 5 (by decide), h 6 (by decide),
    h 7 (by decide), show cellAt p r (8 * j) = byteCell b 0 from h 0 (by decide)]
  exact cellsByte_byteCell b

/-- The plane that a packed frame's cells spell. -/
def planeOfFrame (w h : Nat) (frame : List Byte) : Plane :=
  ⟨w, h, (List.range (w * h)).map fun i => frameCell w frame (i / w) (i % w)⟩

/-- What `isPackedFrame` says: the bytes are the packing of a plane of those dimensions. -/
theorem isPackedFrame_iff (w h : Nat) (frame : List Byte) : isPackedFrame w h frame = true ↔
    ∃ p : Plane, p.wellFormed = true ∧ p.w = w ∧ p.h = h ∧ packRaw p = frame := by
  constructor
  · intro hf
    simp only [isPackedFrame, Bool.and_eq_true, beq_iff_eq, List.all_eq_true, List.mem_range, Bool.or_eq_true,
      decide_eq_true_eq] at hf
    obtain ⟨hl, hc⟩ := hf
    refine ⟨planeOfFrame w h frame, by simp [planeOfFrame, Plane.wellFormed], rfl, rfl, List.ext_getElem? fun i => ?_⟩
    by_cases hi : i < ceilDiv8 w * h
    · have hS : 0 < ceilDiv8 w := Nat.pos_of_ne_zero fun e => by simp [e] at hi
      have hr : i / ceilDiv8 w < h := Nat.div_lt_of_lt_mul hi
      have hj : i % ceilDiv8 w < ceilDiv8 w := Nat.mod_lt _ hS
      have hij : i / ceilDiv8 w * ceilDiv8 w + i % ceilDiv8 w = i := Nat.div_add_mod' i (ceilDiv8 w)
      have hg := packRaw_get (planeOfFrame w h frame) _ _ hr hj
      rw [show (planeOfFrame w h frame).w = w from rfl, show (w + 7) / 8 = ceilDiv8 w from rfl, hij] at hg
      rw [hg, List.getElem?_eq_getElem (by omega), Option.some_inj]
      refine packedByteAt_eq fun k hk => ?_
      have hx : (8 * (i % ceilDiv8 w) + k) / 8 = i % ceilDiv8 w := by omega
      have hx' : (8 * (i % ceilDiv8 w) + k) % 8 = k := by omega
      have hb : frameCell w frame (i / ceilDiv8 w) (8 * (i % ceilDiv8 w) + k) = byteCell (frame[i]'(by omega)) k := by
        simp only [frameCell, hx, hx', hij, List.getD, List.getElem?_eq_getElem (show i < frame.length by omega),
          Option.getD_some]
      rw [← hb, cellAt]
      split
      · next hw =>
        have hw' : 8 * (i % ceilDiv8 w) + k < w := hw
        have hlt : i / ceilDiv8 w * w + (8 * (i % ceilDiv8 w) + k) < w * h := by
          have := Nat.mul_le_mul_right w (show i / ceilDiv8 w + 1 ≤ h from hr)
          rw [Nat.succ_mul, Nat.mul_comm h] at this; omega
        have hd : (i / ceilDiv8 w * w + (8 * (i % ceilDiv8 w) + k)) / w = i / ceilDiv8 w := by
          rw [Nat.mul_comm, Nat.mul_add_div (by omega), Nat.div_eq_of_lt hw', Nat.add_zero]
        have hm : (i / ceilDiv8 w * w + (8 * (i % ceilDiv8 w) + k)) % w = 8 * (i % ceilDiv8 w) + k := by
          rw [Nat.mul_comm, Nat.mul_add_mod, Nat.mod_eq_of_lt hw']
        simp [pixelAt, planeOfFrame, List.getD, hlt, hd, hm]
      · next hw => exact ((hc _ hr _ (by omega)).resolve_left hw).symm
    · have hp : (packRaw (planeOfFrame w h frame)).length = ceilDiv8 w * h :=
        flatMap_range_length _ _ _ (packedLine_length _)
      rw [List.getElem?_eq_none (by omega), List.getElem?_eq_none (by omega)]
  · rintro ⟨p, -, rfl, rfl, rfl⟩
    simp only [isPackedFrame, Bool.and_eq_true, beq_iff_eq, List.all_eq_true, List.mem_range, Bool.or_eq_true,
      decide_eq_true_eq]
    refine ⟨flatMap_range_length _ _ _ (packedLine_length p), fun r hr x hx => ?_⟩
    rw [frameCell_packRaw p r x hr hx]
    by_cases h : x < p.w
    · exact .inl h
    · exact .inr (by simp [cellAt, h])

/-- `allInactive()` has the panel's dimensions. -/
theorem fits_inactive (c : Cfg) : fits c (allInactive c) = true := by simp [fits, allInactive]

/-- What `pack` accepts. -/
theorem pack_fits {c p f} (h : pack c p = some f) : fits c p = true ∧ f = packRaw p ∧ f ≠ [] := by
  unfold pack at h; split at h
  · next hf => simp at h; subst h; exact ⟨hf, rfl, packRaw_ne c p hf⟩
  · simp at h

end Sys2Proof.Machine
end

