-- ==== Sys2Proof/Laws/Waits.lean ====
section
/-!
SUPPORT. The busy-poll to each of its ends (43_panel_driver.md R190), and the handle that an operation needs.
-/

namespace Sys2Proof.Machine

/-- With the handle held an operation runs. -/
theorem onBus_held {s : State} (h : s.owned = true) (o) : onBus s o = o := by simp [onBus, h]

/-- Without it, it is refused. -/
theorem onBus_free {s : State} (h : s.owned = false) (o) : onBus s o = .refused .busNotOwned := by simp [onBus, h]

/-- The state after one turn of the poll that read busy and delayed. -/
def afterTurn (s : State) : State := afterDelay s.cfg.tPoll (afterSample true s)

theorem poll_turn {more : Nat} {s : State} (hi : intrAt s.env 0 = false) (hj : intrAt s.env 1 = false)
    (hb : busyAt s.env 0 = s.cfg.busyActive) : poll (more + 1) s = poll more (afterTurn s) := poll_succ_busy hi hj hb

theorem busy_shift {n : Nat} {s : State} (h : BusyFor 0 (n+1) s) : BusyFor 0 n (afterTurn s) := by
  intro j hj
  have := h (j+1) (by omega)
  simp only [Nat.zero_add] at this ⊢
  show busyAt (advanceEnv (advanceEnv s.env 1 0 1) 0 0 1) j = s.cfg.busyActive
  simpa [Nat.add_comm] using this

theorem intr_shift {n : Nat} {s : State} (h : NoInterruptFor (n+2) s) : NoInterruptFor n (afterTurn s) := by
  intro j hj
  have := h (j+2) (by omega)
  show intrAt (advanceEnv (advanceEnv s.env 1 0 1) 0 0 1) j = _
  simpa [Nat.add_comm] using this

/-- A poll that reads busy `n` times and then ready. -/
theorem poll_ready_after {n more : Nat} {s : State} (hn : n ≤ more) (hb : BusyFor 0 n s)
    (hr : busyAt s.env n ≠ s.cfg.busyActive) (hi : NoInterruptFor (2*n+1) s) :
    poll more s = .ready { s with
      k := s.k + n
      trace := s.trace ++ waitEvents s.cfg n
      env := advanceEnv s.env (n+1) 0 (2*n+1) } := by
  induction n generalizing more s with
  | zero => rw [poll_ready (hi 0 (by omega)) hr]; rfl
  | succ n ih =>
    obtain ⟨more, rfl⟩ : ∃ m, more = m + 1 := ⟨more - 1, by omega⟩
    rw [poll_turn (hi 0 (by omega)) (hi 1 (by omega)) (hb 0 (by omega))]
    rw [ih (by omega) (busy_shift hb) (by simpa [afterTurn, afterDelay, afterSample, Nat.add_comm] using hr)
        (intr_shift (by rw [show 2*n+1+2 = 2*(n+1)+1 by ring]; exact hi))]
    simp [afterTurn, afterDelay, afterSample, waitEvents, Nat.add_comm, Nat.add_left_comm, Nat.mul_add]

/-- A poll whose `n + 1` samples all read busy. -/
theorem poll_timeout {n : Nat} {s : State} (hb : BusyFor 0 (n+1) s) (hi : NoInterruptFor (2*n+1) s) :
    poll n s = .timeout { s with
      k := s.k + (n+1)
      trace := s.trace ++ timeoutEvents s.cfg n
      env := advanceEnv s.env (n+1) 0 (2*n+1) } := by
  induction n generalizing s with
  | zero => rw [poll_zero_busy (hi 0 (by omega)) (hb 0 (by omega))]; rfl
  | succ n ih =>
    rw [poll_turn (hi 0 (by omega)) (hi 1 (by omega)) (hb 0 (by omega))]
    rw [ih (busy_shift hb) (intr_shift (by rw [show 2*n+1+2 = 2*(n+1)+1 by ring]; exact hi))]
    simp [afterTurn, afterDelay, afterSample, timeoutEvents, Nat.add_comm, Nat.add_left_comm, Nat.mul_add]

/-- A poll interrupted at its `n`-th sample. -/
theorem poll_interrupted_at_sample {n more : Nat} {s : State} (hn : n ≤ more) (hb : BusyFor 0 n s)
    (hi : NoInterruptFor (2*n) s)
    (h : intrAt s.env (2*n) = true) :
    poll more s = .interrupted { s with
      k := s.k + n
      trace := s.trace ++ (waitEvents s.cfg n).take (2*n)
      env := advanceEnv s.env n 0 (2*n+1) } := by
  induction n generalizing more s with
  | zero =>
    cases more <;> simp [poll, sample_interrupted h, drawIntr]
  | succ n ih =>
    obtain ⟨more, rfl⟩ : ∃ m, more = m + 1 := ⟨more - 1, by omega⟩
    rw [poll_turn (hi 0 (by omega)) (hi 1 (by omega)) (hb 0 (by omega))]
    rw [ih (by omega) (busy_shift hb) (intr_shift (by rw [show 2*n+2 = 2*(n+1) by ring]; exact hi))
      (by simpa [afterTurn, afterDelay, afterSample, Nat.mul_add, Nat.add_comm, Nat.add_left_comm] using h)]
    have e : (waitEvents s.cfg (n+1)).take (2*(n+1)) = .busy true :: .delay s.cfg.tPoll :: (waitEvents s.cfg n).take
        (2*n) := by
      rw [show 2*(n+1) = 2*n+1+1 by ring]; rfl
    rw [e]
    simp [afterTurn, afterDelay, afterSample, Nat.add_comm, Nat.add_left_comm, Nat.mul_add]

/-- A poll interrupted at the delay after its `n`-th sample. -/
theorem poll_interrupted_at_delay {n more : Nat} {s : State} (hn : n < more) (hb : BusyFor 0 (n+1) s)
    (hi : NoInterruptFor (2*n+1) s)
    (h : intrAt s.env (2*n+1) = true) :
    poll more s = .interrupted { s with
      k := s.k + (n+1)
      trace := s.trace ++ timeoutEvents s.cfg n
      env := advanceEnv s.env (n+1) 0 (2*n+2) } := by
  induction n generalizing more s with
  | zero =>
    obtain ⟨more, rfl⟩ : ∃ m, more = m + 1 := ⟨more - 1, by omega⟩
    have h' : intrAt (afterSample true s).env 0 = true := by simpa [afterSample] using h
    simp only [poll, sample_busy (hi 0 (by omega)) (hb 0 (by omega)), delay_interrupted h']
    simp [drawIntr, afterSample, timeoutEvents]
  | succ n ih =>
    obtain ⟨more, rfl⟩ : ∃ m, more = m + 1 := ⟨more - 1, by omega⟩
    rw [poll_turn (hi 0 (by omega)) (hi 1 (by omega)) (hb 0 (by omega))]
    rw [ih (by omega) (busy_shift hb) (intr_shift (by rw [show 2*n+1+2 = 2*(n+1)+1 by ring]; exact hi))
      (by simpa [afterTurn, afterDelay, afterSample, Nat.mul_add, Nat.add_comm, Nat.add_left_comm] using h)]
    simp [afterTurn, afterDelay, afterSample, timeoutEvents, Nat.add_comm, Nat.add_left_comm, Nat.mul_add]

/-- A wait in a listing that times out. -/
theorem timeout_wait {e : ResultCode} {s : State} (hb : BusyFor 0 s.cfg.nPollMax.val s)
    (hi : NoInterruptFor (2 * s.cfg.nPollMax.val - 1) s) :
   runMicro (.wait e) s = .raised e { s with
      k := s.cfg.nPollMax.val
      trace := s.trace ++ timeoutEvents s.cfg (s.cfg.nPollMax.val - 1)
      env := advanceEnv s.env s.cfg.nPollMax.val 0 (2 * s.cfg.nPollMax.val - 1) } := by
  have hp : s.cfg.nPollMax.val = s.cfg.nPollMax.pred + 1 := rfl
  simp only [runMicro, waitNotBusy]
  rw [poll_timeout (s := clearK s) (by rw [← hp]; exact hb)
      (by rw [hp] at hi; rw [show 2 * (s.cfg.nPollMax.pred + 1) - 1 = 2 * s.cfg.nPollMax.pred + 1 by omega] at hi; exact hi)]
  simp [raiseOnTimeout, clearK, hp, Nat.mul_add]

end Sys2Proof.Machine
end

