-- ==== Sys2Proof/Laws/Ends.lean ====
section
/-!
SUPPORT. The ends of a listing: of a frame, of a wait, of the reset pulse, and from these of the whole operations.
-/

namespace Sys2Proof.Machine

/-- A plane write whose writes succeed. -/
theorem planeWrite_ok {op : Byte} {frame : List Byte} {s : State} (hne : frame ≠ []) (h : WritesSucceedFor 2 s) :
   runList (listPlaneWrite s.cfg op frame) s = .ok (afterFrame ⟨op, frame⟩ s) := by
  rw [listPlaneWrite_eq hne]; exact runList_sendFrame_ok (by simpa [writesOf, hne] using h)

theorem planeWrite_append {c : Cfg} {op : Byte} {frame : List Byte} {rest : List Micro} {s : State} (hc : c = s.cfg)
    (hne : frame ≠ []) (h : WritesSucceedFor 2 s) :
   runList (listPlaneWrite c op frame ++ rest) s = runList rest (afterFrame ⟨op, frame⟩ s) := by
  subst hc; exact runList_append_ok (planeWrite_ok hne h)

theorem sendFrame_append {c : Cfg} {f : CommandFrame} {rest : List Micro} {s : State} (hc : c = s.cfg)
    (h : WritesSucceedFor (writesOf f) s) :
   runList (listSendFrame c f ++ rest) s = runList rest (afterFrame f s) := by
  subst hc; exact runList_append_ok (runList_sendFrame_ok h)

theorem runList_setState (p : PState) (ms) (s : State) : runList (.setState p :: ms) s = runList ms (setState p s) :=
    rfl

theorem writesOf_le (f : CommandFrame) : writesOf f ≤ 2 := by unfold writesOf; split <;> omega

/-- A command table sent whole, as one update. -/
theorem afterFrames_eq (fs : List CommandFrame) (s : State) : afterFrames fs s = { s with
    mode := (fs.getLast?.map modeAfter).getD s.mode
    pinDc := (fs.getLast?.map (dcAfter s.cfg)).getD s.pinDc
    pinCs := if fs = [] then s.pinCs else !s.cfg.csActive
    trace := s.trace ++ fs.flatMap (frameEvents s.cfg)
    env := advanceEnv s.env 0 (writesOfAll fs) 0 } := by
  induction fs generalizing s with
  | nil => simp [writesOfAll]
  | cons f fs ih =>
    rw [afterFrames_cons, ih]
    cases fs with
    | nil => simp [afterFrame, writesOfAll]
    | cons g gs => simp [afterFrame, List.getLast?_cons]

/-- The reset pulse, uninterrupted. -/
theorem runList_reset_ok {s : State} (h : NoInterruptFor 2 s) : runList (listReset s.cfg) s = .ok { s with
    pinRst := !s.cfg.rstActive, mode := .none
    trace := s.trace ++ resetEvents s.cfg, env := advanceEnv s.env 0 0 2 } := by
  simp [listReset, runList, runMicro, delay, h 0 (by decide), h 1 (by decide), setGpio, emit, drawIntr, setMode,
    resetEvents]

/-- `init` in a quiet environment, from its reset pulse up to its second wait. -/
theorem init_upto (s : State) (c : Cfg) (hcfg : c = s.cfg) (hb : busyAt s.env 0 ≠ s.cfg.busyActive)
    (hw : WritesSucceedFor (writesOfAll s.cfg.initSeq) s) (hi : NoInterruptFor 3 s) (rest : List Micro) :
    runList (listReset c ++ .wait .initError :: c.initSeq.flatMap (listSendFrame c) ++ rest) s =
      runList rest { s with
        k := 0
        pinRst := !s.cfg.rstActive
        pinDc := (s.cfg.initSeq.getLast?.map (dcAfter s.cfg)).getD s.pinDc
        pinCs := if s.cfg.initSeq = [] then s.pinCs else !s.cfg.csActive
        mode := (s.cfg.initSeq.getLast?.map modeAfter).getD .none
        trace := s.trace ++ resetEvents s.cfg ++ .busy false :: s.cfg.initSeq.flatMap (frameEvents s.cfg)
        env := advanceEnv s.env 1 (writesOfAll s.cfg.initSeq) 3 } := by
  subst hcfg
  rw [List.append_assoc, runList_append_ok (runList_reset_ok fun j hj => hi j (by omega)), List.cons_append]
  have i2 := hi 2 (by omega)
  rw [runList_cons_ok (runMicro_wait_ready_now (by simpa using i2) (by simpa using hb))]
  rw [runList_append_ok (runList_sendFrames_ok _ (by rfl) (by intro j hj; simpa using hw j hj)), afterFrames_eq]
  simp

/-- `init` in a quiet environment, from its reset pulse on. -/
theorem init_tail (s : State) (c : Cfg) (hcfg : c = s.cfg) (hcs : s.pinCs = !s.cfg.csActive)
    (hb0 : busyAt s.env 0 ≠ s.cfg.busyActive) (hb1 : busyAt s.env 1 ≠ s.cfg.busyActive)
    (hw : WritesSucceedFor (writesOfAll s.cfg.initSeq) s) (hi : NoInterruptFor 4 s) :
    runList (listReset c ++ .wait .initError :: c.initSeq.flatMap (listSendFrame c) ++ [.wait .initError,
        .setState .ready]) s =
      .ok (setState .ready { s with
        k := 0
        pinRst := !s.cfg.rstActive
        pinDc := (s.cfg.initSeq.getLast?.map (dcAfter s.cfg)).getD s.pinDc
        mode := (s.cfg.initSeq.getLast?.map modeAfter).getD .none
        trace := s.trace ++ resetEvents s.cfg ++ .busy false :: s.cfg.initSeq.flatMap
            (frameEvents s.cfg) ++ [.busy false]
        env := advanceEnv s.env 2 (writesOfAll s.cfg.initSeq) 4 }) := by
  rw [init_upto s c hcfg hb0 hw (fun j hj => hi j (by omega))]
  have i3 := hi 3 (by omega)
  rw [runList_cons_ok (runMicro_wait_ready_now (by simpa using i3) (by simpa using hb1))]
  simp [runList, runMicro, ← hcs]

/-- What frames and waits leave unchanged: everything but `MODE`, `PIN_DC`, `PIN_CS`, `K`,
    `TRACE` and the environment. -/
structure Kept (s t : State) : Prop where
  pstate : t.pstate = s.pstate
  owned : t.owned = s.owned
  driven : t.driven = s.driven
  pinRst : t.pinRst = s.pinRst
  res : t.res = s.res
  fatal : t.fatal = s.fatal
  upc : t.upc = s.upc
  cfg : t.cfg = s.cfg
  host : t.host = s.host
  answer : t.answer = s.answer

theorem Kept.refl (s : State) : Kept s s := ⟨rfl, rfl, rfl, rfl, rfl, rfl, rfl, rfl, rfl, rfl⟩

theorem Kept.trans {s t u : State} (a : Kept s t) (b : Kept t u) : Kept s u :=
  ⟨b.1.trans a.1, b.2.trans a.2, b.3.trans a.3, b.4.trans a.4, b.5.trans a.5, b.6.trans a.6, b.7.trans a.7,
      b.8.trans a.8,
    b.9.trans a.9, b.10.trans a.10⟩

/-- A frame that failed: the command byte was refused, or the data was. -/
structure FrameFailed (f : CommandFrame) (s t : State) : Prop where
  kept : Kept s t
  k : t.k = s.k
  parked : t.pinCs = !s.cfg.csActive
  trace : t.trace = s.trace ++ [.gpio .dc s.cfg.dcCmd, .spiFail s.cfg.dcCmd [f.op]] ∨
    f.data ≠ [] ∧ t.trace = s.trace ++ [.gpio .dc s.cfg.dcCmd, .spi s.cfg.dcCmd [f.op], .gpio .dc (dcData s.cfg),
        .spiFail (dcData s.cfg) f.data]

theorem kept_afterFrame (f : CommandFrame) (s : State) : Kept s (afterFrame f s) :=
    ⟨rfl, rfl, rfl, rfl, rfl, rfl, rfl, rfl, rfl, rfl⟩

/-- The first data after a command byte, its write failing (R152). -/
theorem runList_sendData_fails {data : List Byte} {s : State} (hd : data ≠ []) (hm : s.mode = .command)
    (h : spiAt s.env 0 = false) :
    runList (listSendData data) s = .raised .transportError { s with
      mode := .data, pinDc := dcData s.cfg, pinCs := !s.cfg.csActive,
      trace := s.trace ++ [.gpio .dc (dcData s.cfg), .spiFail (dcData s.cfg) data], env :=
          advanceEnv s.env 0 1 0 } := by
  have hc : hasContext s = true := by simp [hasContext, hm]
  simp only [listSendData, hd, if_false, runList, runMicro, hc, if_true, hm, reduceCtorEq]
  rw [writeBytes_fails hd (by simpa using h)]
  simp [afterWrite, setGpio, setMode, emit]

/-- The two ends of a frame. -/
theorem sendFrame_cases (f : CommandFrame) {c : Cfg} {s : State} (hc : c = s.cfg) :
    runList (listSendFrame c f) s = .ok (afterFrame f s) ∨
    ∃ t, runList (listSendFrame c f) s = .raised .transportError t ∧ FrameFailed f s t := by
  subst hc
  cases h0 : spiAt s.env 0 with
  | false =>
    refine .inr ⟨afterWrite (.spiFail s.cfg.dcCmd [f.op]) (setGpio .dc s.cfg.dcCmd s), ?_, ?_⟩
    · have hw : writeBytes [f.op] (setGpio .dc s.cfg.dcCmd s) = _ := writeBytes_fails (by simp) (by simpa using h0)
      simp only [listSendFrame, listSendCommand, List.cons_append, runList, runMicro, hw]
      simp [setGpio, emit]
    · exact ⟨⟨rfl, rfl, rfl, rfl, rfl, rfl, rfl, rfl, rfl, rfl⟩, rfl, rfl, .inl (by simp [afterWrite])⟩
  | true =>
    by_cases hd : f.data = []
    · exact .inl (runList_sendFrame_ok (by intro j hj; simp [writesOf, hd] at hj; simpa [hj] using h0))
    · cases h1 : spiAt s.env 1 with
      | true =>
        refine .inl (runList_sendFrame_ok ?_)
        intro j hj
        simp [writesOf, hd] at hj
        have : j = 0 ∨ j = 1 := by omega
        rcases this with rfl | rfl <;> assumption
      | false =>
        refine .inr ⟨_, by
          simp only [listSendFrame, hd, if_false]
          rw [runList_append_ok (runList_sendCommand_ok h0),
            runList_sendData_fails hd rfl (by simpa [afterFrame, writesOf] using h1)], ?_⟩
        · exact ⟨⟨rfl, rfl, rfl, rfl, rfl, rfl, rfl, rfl, rfl, rfl⟩, rfl, rfl, .inr ⟨hd, by
            simp [afterFrame, frameEvents, commandEvents, dataEvents]⟩⟩

/-- What a wait may leave behind. -/
structure Polled (s t : State) : Prop where
  kept : Kept s t
  mode : t.mode = s.mode
  pinDc : t.pinDc = s.pinDc
  pinCs : t.pinCs = s.pinCs
  k : t.k ≤ s.cfg.nPollMax.val
  trace : ∃ l, t.trace = s.trace ++ l ∧ l.length ≤ 2 * s.cfg.nPollMax.val - 1 ∧ ∀ e ∈ l, isWrite e = false

/-- What a poll may leave behind, with `n` samples and `m` events at most. -/
def Polling (n m : Nat) (s t : State) : Prop :=
  Kept s t ∧ t.mode = s.mode ∧ t.pinDc = s.pinDc ∧ t.pinCs = s.pinCs ∧ t.k ≤ s.k + n ∧ ∃ l, t.trace = s.trace ++ l ∧
      l.length ≤ m ∧ ∀ e ∈ l, isWrite e = false

theorem polling_poll (more : Nat) (s : State) : Polling (more + 1) (2 * more + 1) s (poll more s).state := by
  have hI : ∀ n m, Polling n m s (drawIntr s) := fun n m => ⟨⟨rfl, rfl, rfl, rfl, rfl, rfl, rfl, rfl, rfl, rfl⟩, rfl,
      rfl, rfl, by simp, [], by simp, by simp, by simp⟩
  have hS : ∀ b n m, 1 ≤ n → 1 ≤ m → Polling n m s (afterSample b s) := fun b n m h1 h2 =>
    ⟨⟨rfl, rfl, rfl, rfl, rfl, rfl, rfl, rfl, rfl, rfl⟩, rfl, rfl, rfl,
        by (cases b <;> simp [afterSample]); omega, [.busy b], rfl, h2, by simp [isWrite]⟩
  induction more generalizing s with
  | zero =>
    rcases sample_cases s with ⟨-, h⟩ | ⟨-, -, h⟩ | ⟨-, -, h⟩ <;> simp only [poll, h, Waited.state]
    · exact hI _ _
    · exact hS _ _ _ (by omega) (by omega)
    · exact hS _ _ _ (by omega) (by omega)
  | succ more ih =>
    rcases sample_cases s with ⟨-, h⟩ | ⟨-, -, h⟩ | ⟨-, -, h⟩
    · simp only [poll, h, Waited.state]; exact hI _ _
    · simp only [poll, h, Waited.state]; exact hS _ _ _ (by omega) (by omega)
    · simp only [poll, h]
      cases hj : intrAt (afterSample true s).env 0 with
      | true =>
        rw [delay_interrupted hj]
        obtain ⟨a, b, c, d, e, f⟩ := hS true (more + 2) (2 * (more+1) + 1) (by omega) (by omega)
        exact ⟨⟨a.1, a.2, a.3, a.4, a.5, a.6, a.7, a.8, a.9, a.10⟩, b, c, d, e, f⟩
      | false =>
        rw [delay_ok hj]
        have hk : Kept s (afterDelay s.cfg.tPoll (afterSample true s)) :=
            ⟨rfl, rfl, rfl, rfl, rfl, rfl, rfl, rfl, rfl, rfl⟩
        obtain ⟨a, b, c, d, e, l, f, g, i⟩ := ih (afterDelay s.cfg.tPoll (afterSample true s))
          (fun n m => ⟨⟨rfl, rfl, rfl, rfl, rfl, rfl, rfl, rfl, rfl, rfl⟩, rfl, rfl, rfl,
              by simp, [], by simp, by simp, by simp⟩)
          (fun b n m h1 h2 =>
    ⟨⟨rfl, rfl, rfl, rfl, rfl, rfl, rfl, rfl, rfl, rfl⟩, rfl, rfl, rfl,
        by (cases b <;> simp [afterSample]); omega, [.busy b], rfl, h2, by simp [isWrite]⟩)
        refine ⟨hk.trans a, b, c, d, ?_, .busy true :: .delay s.cfg.tPoll :: l, ?_, by simp; omega, ?_⟩
        · have e' : (poll more (afterDelay s.cfg.tPoll (afterSample true s))).state.k ≤ (s.k + 1) + (more + 1) := e
          show (poll more (afterDelay s.cfg.tPoll (afterSample true s))).state.k ≤ _
          omega
        · show (poll more (afterDelay s.cfg.tPoll (afterSample true s))).state.trace = _
          rw [f]; simp [afterDelay, afterSample]
        · intro e he
          simp only [List.mem_cons] at he
          rcases he with rfl | rfl | he
          · rfl
          · rfl
          · exact i e he

theorem polled_waitNotBusy (s : State) : Polled s (waitNotBusy s).state := by
  obtain ⟨a, b, c, d, e, l, f, g, i⟩ := polling_poll s.cfg.nPollMax.pred (clearK s)
  have hp : s.cfg.nPollMax.val = s.cfg.nPollMax.pred + 1 := rfl
  exact ⟨⟨a.1, a.2, a.3, a.4, a.5, a.6, a.7, a.8, a.9, a.10⟩, b, c, d,
      by rw [hp]; simpa [waitNotBusy, clearK] using e, l, f, by omega, i⟩

/-- The three ends of a wait. -/
theorem wait_cases (e : ResultCode) (s : State) : ∃ t, Polled s t ∧
    (runMicro (.wait e) s = .ok t ∨ runMicro (.wait e) s = .raised e t ∨
        runMicro (.wait e) s = .raised .interrupted t) := by
  refine ⟨_, polled_waitNotBusy s, ?_⟩
  simp only [runMicro]
  cases waitNotBusy s <;> simp [raiseOnTimeout, Waited.state]

/-- What holds at both ends of a frame, with the rest of the listing after the good one. -/
theorem ends_frame {P : Run → Prop} (f : CommandFrame) {c : Cfg} {rest : List Micro} {s : State} (hc : c = s.cfg)
    (ok : P (runList rest (afterFrame f s))) (failed : ∀ t, FrameFailed f s t → P (.raised .transportError t)) :
    P (runList (listSendFrame c f ++ rest) s) := by
  rcases sendFrame_cases f hc with h | ⟨t, h, hf⟩
  · rwa [runList_append_ok h]
  · rw [runList_append_raised h]; exact failed t hf

/-- What holds at the three ends of a wait. -/
theorem ends_wait {P : Run → Prop} {e : ResultCode} {rest : List Micro} {s : State}
    (h : ∀ t, Polled s t → P (runList rest t) ∧ P (.raised e t) ∧ P (.raised .interrupted t)) :
    P (runList (.wait e :: rest) s) := by
  obtain ⟨t, ht, h1 | h1 | h1⟩ := wait_cases e s
  · rw [runList_cons_ok h1]; exact (h t ht).1
  · rw [runList_cons_raised h1]; exact (h t ht).2.1
  · rw [runList_cons_raised h1]; exact (h t ht).2.2

/-- A reset pulse that the interrupt cut short. -/
structure ResetCut (s t : State) : Prop where
  pstate : t.pstate = s.pstate
  owned : t.owned = s.owned
  driven : t.driven = s.driven
  mode : t.mode = s.mode
  pinDc : t.pinDc = s.pinDc
  pinCs : t.pinCs = s.pinCs
  res : t.res = s.res
  fatal : t.fatal = s.fatal
  k : t.k = s.k
  upc : t.upc = s.upc
  cfg : t.cfg = s.cfg
  host : t.host = s.host
  answer : t.answer = s.answer
  trace : t.trace = s.trace ++ (resetEvents s.cfg).take 1 ∨ t.trace = s.trace ++ (resetEvents s.cfg).take 3

/-- The state after a reset pulse. -/
def afterReset (s : State) : State := { s with
      pinRst := !s.cfg.rstActive, mode := .none
      trace := s.trace ++ resetEvents s.cfg, env := advanceEnv s.env 0 0 2 }

/-- The two ends of the reset pulse. -/
theorem reset_cases {c : Cfg} {s : State} (hc : c = s.cfg) : runList (listReset c) s = .ok (afterReset s) ∨ ∃ t,
    runList (listReset c) s = .raised .interrupted t ∧ ResetCut s t := by
  subst hc
  cases h0 : intrAt s.env 0
  · cases h1 : intrAt s.env 1
    · left; simp [listReset, runList, runMicro, delay, h0, h1, setGpio, emit, drawIntr, setMode, resetEvents,
        afterReset]
    · right; refine ⟨_, by simp [listReset, runList, runMicro, delay, h0, h1, setGpio, emit, drawIntr]; rfl, ?_⟩
      exact ⟨rfl, rfl, rfl, rfl, rfl, rfl, rfl, rfl, rfl, rfl, rfl, rfl, rfl, .inr (by simp [resetEvents])⟩
  · right; refine ⟨_, by simp [listReset, runList, runMicro, delay, h0, setGpio, emit, drawIntr]; rfl, ?_⟩
    exact ⟨rfl, rfl, rfl, rfl, rfl, rfl, rfl, rfl, rfl, rfl, rfl, rfl, rfl, .inl (by simp [resetEvents])⟩

/-- What holds at both ends of the reset pulse. -/
theorem ends_reset {P : Run → Prop} {c : Cfg} {rest : List Micro} {s : State} (hc : c = s.cfg)
    (ok : P (runList rest (afterReset s))) (cut : ∀ t, ResetCut s t → P (.raised .interrupted t)) :
    P (runList (listReset c ++ rest) s) := by
  rcases reset_cases hc with h | ⟨t, h, hf⟩
  · rwa [runList_append_ok h]
  · rw [runList_append_raised h]; exact cut t hf

/-- Events that leave the red plane's last-written content as it is (10_state.md R52). -/
def RedSame (c : Cfg) (l : List Event) : Prop := ∀ v, (l.foldl (redStep c) v).last = v.last

theorem RedSame.append {c : Cfg} {a b : List Event} (h : RedSame c a) (k : RedSame c b) : RedSame c (a ++ b) := by
  intro v; rw [List.foldl_append, k, h]

theorem redSame_of_noWrite {c : Cfg} {l : List Event} (h : ∀ e ∈ l, isWrite e = false) : RedSame c l := by
  intro v
  induction l generalizing v with
  | nil => rfl
  | cons e l ih =>
    rw [List.foldl_cons, ih (fun e he => h e (by simp [he]))]
    have := h e (by simp)
    cases e <;> simp_all [redStep, isWrite]

theorem dc_ne (c : Cfg) : dcData c ≠ c.dcCmd := by unfold dcData; cases c.dcCmd <;> simp

theorem redSame_frame {c : Cfg} {f : CommandFrame} (h : f.op ≠ c.cmdRed) : RedSame c (frameEvents c f) := by
  intro v
  have := dc_ne c
  by_cases hd : f.data = [] <;> simp [frameEvents, commandEvents, dataEvents, redStep, hd, h, this]

/-- The events `l` carry no command outside `ops`. -/
def OnlyCommands (c : Cfg) (ops : List Byte) (l : List Event) : Prop := ∀ e ∈ l, ∀ op, carriesCommand c op e = true →
    op ∈ ops

/-- At most `n` events, that carry no command outside `ops`. -/
structure Wrote (c : Cfg) (ops : List Byte) (n : Nat) (l : List Event) : Prop where
  len : l.length ≤ n
  only : OnlyCommands c ops l
  red : c.cmdRed ∉ ops → RedSame c l

theorem Wrote.append {c ops a b n m} (h : Wrote c ops n a) (k : Wrote c ops m b) : Wrote c ops (n + m) (a ++ b) :=
  ⟨by have := h.len; have := k.len; simp; omega, by intro e he; rw [List.mem_append] at he; exact he.elim (h.only e) (k.only e),
   fun hr => (h.red hr).append (k.red hr)⟩

theorem Wrote.mono {c ops a n m} (h : Wrote c ops n a) (hm : n ≤ m) : Wrote c ops m a := ⟨h.len.trans hm, h.only, h.red⟩

theorem wrote_noWrite {c ops n l} (hl : l.length ≤ n) (h : ∀ e ∈ l, isWrite e = false) : Wrote c ops n l :=
  ⟨hl, fun e he op ho => by have := h e he; cases e <;> simp_all [isWrite, carriesCommand], fun _ => redSame_of_noWrite h⟩

theorem wrote_frame {c : Cfg} {f : CommandFrame} {ops} (h : f.op ∈ ops) : Wrote c ops 4 (frameEvents c f) := by
  have := dc_ne c
  refine ⟨by unfold frameEvents commandEvents dataEvents; split <;> simp, ?_, fun hr => redSame_frame (fun e => hr (e ▸ h))⟩
  intro e he op ho
  by_cases hd : f.data = [] <;> simp [frameEvents, commandEvents, dataEvents, hd] at he
  · rcases he with rfl | rfl <;> simp [carriesCommand] at ho; rw [← ho]; exact h
  · rcases he with rfl | rfl | rfl | rfl <;> simp [carriesCommand, this] at ho; rw [← ho]; exact h

theorem wrote_failed {c : Cfg} {f : CommandFrame} {ops} {l} (h : f.op ∈ ops)
    (hl : l = [.gpio .dc c.dcCmd, .spiFail c.dcCmd [f.op]] ∨
   l = [.gpio .dc c.dcCmd, .spi c.dcCmd [f.op], .gpio .dc (dcData c),
       .spiFail (dcData c) f.data]) : Wrote c ops 4 l := by
  have := dc_ne c
  rcases hl with rfl | rfl
  · refine ⟨by simp, ?_, fun hr v => by simp [redStep]⟩
    intro e he op ho
    simp at he; rcases he with rfl | rfl <;> simp [carriesCommand] at ho; rw [← ho]; exact h
  · refine ⟨by simp, ?_, fun hr v => ?_⟩
    · intro e he op ho
      simp at he; rcases he with rfl | rfl | rfl | rfl <;> simp [carriesCommand, this] at ho; rw [← ho]; exact h
    · simp [redStep]

/-- What the middle of an operation does: it appends at most `n` events with no command outside `ops`, moves the
framer and the poll count, and touches nothing else but `PSTATE`. -/
structure Worked (ops : List Byte) (n : Nat) (s t : State) : Prop where
  owned : t.owned = s.owned
  driven : t.driven = s.driven
  pinRst : t.pinRst = s.pinRst
  res : t.res = s.res
  fatal : t.fatal = s.fatal
  upc : t.upc = s.upc
  cfg : t.cfg = s.cfg
  host : t.host = s.host
  answer : t.answer = s.answer
  parked : s.pinCs = (!s.cfg.csActive) → t.pinCs = (!s.cfg.csActive)
  k : s.k ≤ s.cfg.nPollMax.val → t.k ≤ s.cfg.nPollMax.val
  trace : ∃ l, t.trace = s.trace ++ l ∧ Wrote s.cfg ops n l

theorem Worked.refl (ops n) (s : State) : Worked ops n s s := ⟨rfl, rfl, rfl, rfl, rfl, rfl, rfl, rfl, rfl, id, id, [],
    by simp, wrote_noWrite (by simp) (by simp)⟩

theorem Worked.trans {ops n m} {s t u : State} (a : Worked ops n s t) (b : Worked ops m t u) : Worked ops (n + m) s u := by
  obtain ⟨a1, a2, a3, a4, a5, a6, a7, a8, a9, a10, a11, l, a12, a13⟩ := a
  obtain ⟨b1, b2, b3, b4, b5, b6, b7, b8, b9, b10, b11, k, b12, b13⟩ := b
  rw [a7] at b10 b11 b13
  exact ⟨b1.trans a1, b2.trans a2, b3.trans a3, b4.trans a4, b5.trans a5, b6.trans a6, b7.trans a7, b8.trans a8,
      b9.trans a9,
    fun h => b10 (a10 h), fun h => b11 (a11 h), l ++ k, by rw [b12, a12, List.append_assoc], a13.append b13⟩

theorem Worked.mono {ops n m} {s t : State} (a : Worked ops n s t) (h : n ≤ m) : Worked ops m s t := by
  obtain ⟨a1, a2, a3, a4, a5, a6, a7, a8, a9, a10, a11, l, a12, a13⟩ := a
  exact ⟨a1, a2, a3, a4, a5, a6, a7, a8, a9, a10, a11, l, a12, a13.mono h⟩

theorem Polled.worked {ops} {s t : State} (h : Polled s t) : Worked ops (2 * s.cfg.nPollMax.val - 1) s t := by
  obtain ⟨⟨a1, a2, a3, a4, a5, a6, a7, a8, a9, a10⟩, m, d, c, k, l, e, n, w⟩ := h
  exact ⟨a2, a3, a4, a5, a6, a7, a8, a9, a10, fun h => c.trans h, fun _ => k, l, e, wrote_noWrite n w⟩

theorem FrameFailed.worked {ops f} {s t : State} (h : FrameFailed f s t) (ho : f.op ∈ ops) : Worked ops 4 s t := by
  obtain ⟨⟨a1, a2, a3, a4, a5, a6, a7, a8, a9, a10⟩, k, p, e⟩ := h
  refine ⟨a2, a3, a4, a5, a6, a7, a8, a9, a10, fun h => p, fun h => by omega, ?_⟩
  rcases e with e | ⟨_, e⟩
  · exact ⟨_, e, wrote_failed ho (.inl rfl)⟩
  · exact ⟨_, e, wrote_failed ho (.inr rfl)⟩

theorem worked_afterFrame {ops f} {s : State} (ho : f.op ∈ ops) : Worked ops 4 s (afterFrame f s) :=
  ⟨rfl, rfl, rfl, rfl, rfl, rfl, rfl, rfl, rfl, fun _ => rfl, id, _, rfl, wrote_frame ho⟩

theorem worked_setState {ops p} {s : State} : Worked ops 1 s (setState p s) := by
  rw [setState_eq]
  refine ⟨rfl, rfl, rfl, rfl, rfl, rfl, rfl, rfl, rfl, id, id, _, rfl, wrote_noWrite ?_ ?_⟩
  · unfold stateEvents; split <;> simp
  · unfold stateEvents; split <;> simp [isWrite]

/-- The data/command line agrees with `MODE` (10_state.md R55 (d)). -/
def Settled (s : State) : Prop := (s.mode = .data → s.pinDc = dcData s.cfg) ∧ (s.mode = .command →
    s.pinDc = s.cfg.dcCmd)

theorem settled_afterFrame (f) (s : State) : Settled (afterFrame f s) := by
  unfold Settled afterFrame modeAfter dcAfter; by_cases h : f.data = [] <;> simp [h]

theorem Polled.settled {s t : State} (h : Polled s t) (k : Settled s) : Settled t := by
  unfold Settled; rw [h.mode, h.pinDc, h.kept.cfg]; exact k

theorem settled_setState {p} {s : State} (h : Settled s) : Settled (setState p s) := by
  unfold Settled at *; simpa using h

/-- The ends of `display`, `displayBlack` and `sleep`: `final` is `PSTATE` at a good end, `during` holds what it can be
in between beside the state at the start. -/
inductive Ended (ops : List Byte) (n : Nat) (timeout : ResultCode) (during : List PState) (final : PState) (s : State) :
    Run → Prop where
  | ok (t : State) (w : Worked ops (n + 1) s t) (p : t.pstate = final) (d : Settled t) :
      Ended ops n timeout during final s (.ok t)
  | timeout (t : State) (w : Worked ops n s t) (p : t.pstate ∈ s.pstate :: during) (d : Settled s → Settled t) :
      Ended ops n timeout during final s (.raised timeout t)
  | died (e : ResultCode) (t : State) (h : e = .transportError ∨ e = .interrupted) (w : Worked ops n s t)
      (p : t.pstate ∈ s.pstate :: during) :
    Ended ops n timeout during final s (.raised e t)

/-- From the refresh frame on. -/
theorem ended_tail {ops n s u m} (w : Worked ops n s u) (hp : u.pstate = .displaying) (hop : s.cfg.refresh.op ∈ ops)
    (hm : m = n + 4 + (2 * s.cfg.nPollMax.val - 1)) :
    Ended ops m .refreshTimeoutError [.displaying] .ready s
        (runList (listSendFrame s.cfg s.cfg.refresh ++ [.wait .refreshTimeoutError, .setState .ready]) u) := by
  subst hm
  refine ends_frame _ w.cfg.symm ?_ ?_
  · refine ends_wait fun t ht => ?_
    have hc : (afterFrame s.cfg.refresh u).cfg = s.cfg := w.cfg
    have hw := (w.trans (worked_afterFrame hop)).trans ht.worked
    rw [hc] at hw
    have hd := ht.settled (settled_afterFrame _ _)
    have hpt : t.pstate = .displaying := ht.kept.pstate.trans hp
    refine ⟨?_, .timeout t (hw.mono (by omega)) (by simp [hpt]) fun _ => hd, .died _ t (.inr rfl) (hw.mono (by omega))
        (by simp [hpt])⟩
    simp only [runList, runMicro]
    exact .ok _ ((hw.trans worked_setState).mono (by omega)) (by simp) (settled_setState hd)
  · intro t ht
    exact .died _ t (.inl rfl) ((w.trans (ht.worked hop)).mono (by omega)) (by simp [ht.kept.pstate, hp])

/-- One plane write of a refresh. -/
theorem ended_plane {ops n s u m op frame rest} (w : Worked ops n s u) (hp : u.pstate = .displaying) (hop : op ∈ ops)
    (hf : frame ≠ []) (hm : n + 4 ≤ m)
   (h : ∀ t, Worked ops (n + 4) s t → t.pstate = .displaying → Ended ops m .refreshTimeoutError [.displaying] .ready s
       (runList rest t)) :
    Ended ops m .refreshTimeoutError [.displaying] .ready s (runList (listPlaneWrite s.cfg op frame ++ rest) u) := by
  rw [listPlaneWrite_eq hf]
  refine ends_frame _ w.cfg.symm (h _ (w.trans (worked_afterFrame hop)) hp) ?_
  intro t ht
  exact .died _ t (.inl rfl) ((w.trans (ht.worked hop)).mono hm) (by simp [ht.kept.pstate, hp])

/-- The gate at the start of an operation. -/
theorem ended_gate {ops fin s m rest dur} (hm : (2 * s.cfg.nPollMax.val - 1) ≤ m)
   (h : ∀ t, Worked ops (2 * s.cfg.nPollMax.val - 1) s t → t.pstate = s.pstate →
       Ended ops m .refreshTimeoutError dur fin s (runList rest t)) :
    Ended ops m .refreshTimeoutError dur fin s (runList (.wait .refreshTimeoutError :: rest) s) := by
  refine ends_wait fun t ht => ⟨h t ht.worked ht.kept.pstate, .timeout t (ht.worked.mono hm)
      (by simp [ht.kept.pstate]) ht.settled,
    .died _ t (.inr rfl) (ht.worked.mono hm) (by simp [ht.kept.pstate])⟩

theorem ended_display {s : State} {b r : List Byte} (hb : b ≠ []) (hr : r ≠ []) :
    Ended [s.cfg.cmdBlack, s.cfg.cmdRed, s.cfg.refresh.op]
        (2 * (2 * s.cfg.nPollMax.val - 1) + 1 + 12) .refreshTimeoutError [.displaying] .ready s
      (runList (listDisplay s.cfg b r) s) := by
  simp only [listDisplay, List.cons_append, List.append_assoc]
  refine ended_gate (by omega) fun t ht hp => ?_
  rw [runList_setState]
  refine ended_plane (ht.trans worked_setState) (by simp) (by simp) hb (by omega) fun u hu hp => ?_
  refine ended_plane hu hp (by simp) hr (by omega) fun v hv hp => ?_
  exact ended_tail hv hp (by simp) (by omega)

theorem ended_displayBlack {s : State} {b : List Byte} (hb : b ≠ []) :
    Ended [s.cfg.cmdBlack, s.cfg.refresh.op]
        (2 * (2 * s.cfg.nPollMax.val - 1) + 1 + 8) .refreshTimeoutError [.displaying] .ready s
      (runList (listDisplayBlack s.cfg b) s) := by
  simp only [listDisplayBlack, List.cons_append, List.append_assoc]
  refine ended_gate (by omega) fun t ht hp => ?_
  rw [runList_setState]
  refine ended_plane (ht.trans worked_setState) (by simp) (by simp) hb (by omega) fun u hu hp => ?_
  exact ended_tail hu hp (by simp) (by omega)

theorem ended_sleep {s : State} :
    Ended [s.cfg.sleep.op] (2 * s.cfg.nPollMax.val - 1 + 4) .refreshTimeoutError [] .sleeping s
        (runList (listSleep s.cfg) s) := by
  simp only [listSleep, List.cons_append]
  refine ended_gate (by omega) fun t ht hp => ?_
  refine ends_frame _ ht.cfg.symm ?_ ?_
  · simp only [runList, runMicro]
    exact .ok _ (((ht.trans (worked_afterFrame (by simp))).trans worked_setState).mono (by omega)) (by simp)
        (settled_setState (settled_afterFrame _ _))
  · intro u hu
    exact .died _ u (.inl rfl) ((ht.trans (hu.worked (by simp))).mono (by omega)) (by simp [hu.kept.pstate, hp])

/-- init from the state after the pulse. -/
theorem worked_afterFrames {ops : List Byte} (fs : List CommandFrame) (h : ∀ f ∈ fs, f.op ∈ ops) (s : State) :
    Worked ops (4 * fs.length) s (afterFrames fs s) := by
  induction fs generalizing s with
  | nil => exact .refl _ _ s
  | cons f fs ih =>
    exact ((worked_afterFrame (h f (by simp))).trans (ih (fun g hg => h g (by simp [hg])) _)).mono (by simp; omega)

/-- What holds at both ends of a command table. -/
theorem ends_frames {P : Run → Prop} (ops : List Byte) (fs : List CommandFrame) (hops : ∀ f ∈ fs,
    f.op ∈ ops) {c : Cfg} {rest : List Micro} {s : State} (hc : c = s.cfg)
    (ok : ∀ t, Worked ops (4 * fs.length) s t → t.pstate = s.pstate → (Settled s → Settled t) → P (runList rest t))
    (failed : ∀ t, Worked ops (4 * fs.length) s t → t.pstate = s.pstate → P (.raised .transportError t)) :
    P (runList (fs.flatMap (listSendFrame c) ++ rest) s) := by
  induction fs generalizing s with
  | nil => exact ok s (.refl _ _ s) rfl id
  | cons f fs ih =>
    rw [List.flatMap_cons, List.append_assoc]
    have hf := hops f (by simp)
    refine ends_frame f hc ?_ ?_
    · refine ih (fun g hg => hops g (by simp [hg])) hc ?_ ?_
      · intro t ht hp hs
        exact ok t (((worked_afterFrame hf).trans ht).mono (by simp; omega)) hp (fun _ => hs (settled_afterFrame _ _))
      · intro t ht hp
        exact failed t (((worked_afterFrame hf).trans ht).mono (by simp; omega)) hp
    · intro t ht
      exact failed t ((ht.worked hf).mono (by simp)) ht.kept.pstate

/-- What the middle of `init` does: as `Worked`, but that it moves the reset line too. -/
structure InitWorked (n : Nat) (s t : State) : Prop where
  owned : t.owned = s.owned
  driven : t.driven = s.driven
  res : t.res = s.res
  fatal : t.fatal = s.fatal
  upc : t.upc = s.upc
  cfg : t.cfg = s.cfg
  host : t.host = s.host
  answer : t.answer = s.answer
  parked : s.pinCs = (!s.cfg.csActive) → t.pinCs = (!s.cfg.csActive)
  k : s.k ≤ s.cfg.nPollMax.val → t.k ≤ s.cfg.nPollMax.val
  trace : ∃ l, t.trace = s.trace ++ l ∧ l.length ≤ n

theorem InitWorked.worked {ops n m} {s t u : State} (a : InitWorked n s t) (b : Worked ops m t u) :
    InitWorked (n + m) s u := by
  obtain ⟨a1, a2, a4, a5, a6, a7, a8, a9, a10, a11, l, a12, a13⟩ := a
  obtain ⟨b1, b2, b3, b4, b5, b6, b7, b8, b9, b10, b11, k, b12, b13⟩ := b
  rw [a7] at b10 b11 b13
  exact ⟨b1.trans a1, b2.trans a2, b4.trans a4, b5.trans a5, b6.trans a6, b7.trans a7, b8.trans a8, b9.trans a9,
    fun h => b10 (a10 h), fun h => b11 (a11 h), l ++ k,
        by rw [b12, a12, List.append_assoc], by have := b13.len; simp; omega⟩

theorem InitWorked.mono {n m} {s t : State} (a : InitWorked n s t) (h : n ≤ m) : InitWorked m s t := by
  obtain ⟨a1, a2, a4, a5, a6, a7, a8, a9, a10, a11, l, a12, a13⟩ := a
  exact ⟨a1, a2, a4, a5, a6, a7, a8, a9, a10, a11, l, a12, by omega⟩

/-- The ends of `init`, from the state in which the handle is held. -/
inductive InitEnded (n : Nat) (s : State) : Run → Prop where
  | ok (t : State) (w : InitWorked (n + 1) s t) (p : t.pstate = .ready) (d : Settled t) : InitEnded n s (.ok t)
  | died (e : ResultCode) (t : State) (h : e = .transportError ∨ e = .interrupted ∨ e = .initError)
      (w : InitWorked n s t) (p : t.pstate = s.pstate) : InitEnded n s (.raised e t)

/-- The ends of `init` from its reset pulse on. -/
theorem ended_initTail (s : State) : InitEnded (4 + 4 * s.cfg.initSeq.length + 2 * (2 * s.cfg.nPollMax.val - 1)) s
   (runList (listReset s.cfg ++ .wait .initError :: s.cfg.initSeq.flatMap (listSendFrame s.cfg) ++ [.wait .initError,
       .setState .ready]) s) := by
  rw [List.append_assoc, List.cons_append]
  refine ends_reset rfl ?_ ?_
  · have hr : InitWorked 4 s (afterReset s) := ⟨rfl, rfl, rfl, rfl, rfl, rfl, rfl, rfl, id, id, _, rfl,
      by simp [resetEvents]⟩
    have hs : Settled (afterReset s) := by simp [Settled, afterReset]
    refine ends_wait fun t ht => ?_
    have w1 := hr.worked (ht.worked (ops := []))
    have e1 : (afterReset s).cfg = s.cfg := rfl
    rw [e1] at w1
    have hp : t.pstate = s.pstate := ht.kept.pstate
    refine ⟨?_, .died _ t (by simp) (w1.mono (by omega)) hp, .died _ t (by simp) (w1.mono (by omega)) hp⟩
    refine ends_frames (s.cfg.initSeq.map (·.op)) _ (fun f hf => List.mem_map_of_mem hf) w1.cfg.symm ?_ ?_
    · intro u hu hpu hsu
      have w2 := w1.worked hu
      refine ends_wait fun v hv => ?_
      have w3 := w2.worked (hv.worked (ops := []))
      rw [w2.cfg] at w3
      have hpv : v.pstate = s.pstate := by rw [hv.kept.pstate, hpu, hp]
      refine ⟨?_, .died _ v (by simp) (w3.mono (by omega)) hpv, .died _ v (by simp) (w3.mono (by omega)) hpv⟩
      simp only [runList, runMicro]
      exact .ok _ ((w3.worked (worked_setState (ops := []))).mono (by omega)) (by simp)
          (settled_setState (hv.settled (hsu (ht.settled hs))))
    · intro u hu hpu
      exact .died _ u (by simp) ((w1.worked hu).mono (by omega)) (by rw [hpu, hp])
  · intro t ht
    refine .died _ t (by simp) ⟨ht.owned, ht.driven, ht.res, ht.fatal, ht.upc, ht.cfg, ht.host, ht.answer,
        fun h => ht.pinCs.trans h, fun h => by rw [ht.k]; exact h, ?_⟩ ht.pstate
    rcases ht.trace with h | h
    · exact ⟨_, h, by simp [resetEvents]; omega⟩
    · exact ⟨_, h, by simp [resetEvents]; omega⟩

/-- The state in which `init` begins its reset pulse. -/
def inited (s : State) : State := if s.pstate = .uninitialized then acquire s else s

theorem ended_init (s : State) : InitEnded (4 + 4 * s.cfg.initSeq.length + 2 * (2 * s.cfg.nPollMax.val - 1)) (inited s)
    (runList (listInit s.cfg) s) := by
  have hc : (inited s).cfg = s.cfg := by unfold inited; split <;> rfl
  have h1 : runMicro .acquireIfUninitialized s = .ok (inited s) := rfl
  have := ended_initTail (inited s)
  rw [hc] at this
  simp only [listInit, List.cons_append]
  rw [runList_cons_ok h1]
  simpa only [List.cons_append] using this

end Sys2Proof.Machine
end

