-- ==== Sys2Proof/Laws/HostPort.lean ====
section
/-!
SUPPORT. The surface operations: what their checks decide, their good course up to the last wait,
    and everything each can end as.
-/

namespace Sys2Proof.Machine

theorem planDisplay_run {s : State} {b r : Plane} (hp : s.pstate = .ready ∨ s.pstate = .displaying)
    (ho : s.owned = true)
   (hb : fits s.cfg b = true) (hr : fits s.cfg r = true) : planDisplay b r s = .run (listDisplay s.cfg (packRaw b)
       (packRaw r)) := by
  rcases hp with h | h <;> simp [planDisplay, planTwoPlanes, h, checkState, pack, hb, hr, planOnBus, ho]

theorem planDisplayBlack_run {s : State} {b : Plane} (hp : s.pstate = .ready ∨ s.pstate = .displaying)
    (ho : s.owned = true)
   (hb : fits s.cfg b = true) : planDisplayBlack b s = .run (listDisplayBlack s.cfg (packRaw b)) := by
  rcases hp with h | h <;> simp [planDisplayBlack, h, checkState, pack, hb, planOnBus, ho]

/-- `display` in a quiet environment, up to its last wait. -/
theorem display_upto (s : State) (b r : List Byte) (hb : b ≠ []) (hr : r ≠ []) (hb0 : busyAt s.env 0 ≠ s.cfg.busyActive)
    (hi : intrAt s.env 0 = false)
   (hw : WritesSucceedFor (4 + writesOf s.cfg.refresh) s) (rest : List Micro) :
   runList (.wait .refreshTimeoutError :: .setState .displaying :: listPlaneWrite s.cfg s.cfg.cmdBlack b ++ listPlaneWrite s.cfg s.cfg.cmdRed r ++ listSendFrame s.cfg s.cfg.refresh ++ rest) s =
   runList rest { s with
     pstate := .displaying, k := 0,
     pinDc := dcAfter s.cfg s.cfg.refresh, pinCs := !s.cfg.csActive, mode := modeAfter s.cfg.refresh
     trace := s.trace ++ .busy false :: stateEvents s.pstate .displaying ++ frameEvents s.cfg ⟨s.cfg.cmdBlack,
         b⟩ ++ frameEvents s.cfg ⟨s.cfg.cmdRed, r⟩ ++ frameEvents s.cfg s.cfg.refresh
     env := advanceEnv s.env 1 (4 + writesOf s.cfg.refresh) 1 } := by
  simp only [List.cons_append, List.append_assoc]
  rw [runList_cons_ok (runMicro_wait_ready_now hi hb0), runList_setState]
  rw [planeWrite_append (by simp) hb (by intro j hj; simpa using hw j (by omega))]
  rw [planeWrite_append (by simp) hr (by intro j hj; simpa [hb, writesOf] using hw (2 + j) (by omega))]
  rw [sendFrame_append (by simp) (by intro j hj; simpa [hb, hr, writesOf, ← Nat.add_assoc] using hw (4 + j) (by omega))]
  congr 1
  simp [afterFrame, setState_eq, writesOf, hb, hr, dcAfter]

/-- `displayBlack` in a quiet environment, up to its last wait. -/
theorem dblack_upto (s : State) (b : List Byte) (hb : b ≠ []) (hb0 : busyAt s.env 0 ≠ s.cfg.busyActive)
    (hi : intrAt s.env 0 = false)
   (hw : WritesSucceedFor (2 + writesOf s.cfg.refresh) s) (rest : List Micro) :
   runList (.wait .refreshTimeoutError :: .setState .displaying :: listPlaneWrite s.cfg s.cfg.cmdBlack b ++ listSendFrame s.cfg s.cfg.refresh ++ rest) s =
   runList rest { s with
     pstate := .displaying, k := 0,
     pinDc := dcAfter s.cfg s.cfg.refresh, pinCs := !s.cfg.csActive, mode := modeAfter s.cfg.refresh
     trace := s.trace ++ .busy false :: stateEvents s.pstate .displaying ++ frameEvents s.cfg ⟨s.cfg.cmdBlack,
         b⟩ ++ frameEvents s.cfg s.cfg.refresh
     env := advanceEnv s.env 1 (2 + writesOf s.cfg.refresh) 1 } := by
  simp only [List.cons_append, List.append_assoc]
  rw [runList_cons_ok (runMicro_wait_ready_now hi hb0), runList_setState]
  rw [planeWrite_append (by simp) hb (by intro j hj; simpa using hw j (by omega))]
  rw [sendFrame_append (by simp) (by intro j hj; simpa [hb, writesOf, ← Nat.add_assoc] using hw (2 + j) (by omega))]
  congr 1
  simp [afterFrame, setState_eq, writesOf, hb, dcAfter]

/-- What the checks of `clear` and `display` decide. -/
theorem planTwoPlanes_cases (op : Checked) (b r : Plane) (s : State) (hop : op = .clear ∨ op = .display):
    (∃ e, planTwoPlanes op b r s = .fail e ∧ (e = .stateError ∨ e = .dimensionError ∧
        (s.pstate = .ready ∨ s.pstate = .displaying) ∧ ¬ (fits s.cfg b = true ∧ fits s.cfg r = true))) ∨
    (planTwoPlanes op b r s = .refuse .busNotOwned ∧ s.owned = false) ∨
    (s.owned = true ∧ (s.pstate = .ready ∨ s.pstate = .displaying) ∧ fits s.cfg b = true ∧ fits s.cfg r = true ∧
        planTwoPlanes op b r s = .run (listDisplay s.cfg (packRaw b) (packRaw r))) := by
  unfold planTwoPlanes planOnBus pack
  rcases hop with rfl | rfl <;>
  cases hp : s.pstate <;> simp only [checkState] <;> cases hb : fits s.cfg b <;> cases hr : fits s.cfg r <;> cases ho :
      s.owned <;> simp

theorem planDisplayBlack_cases (b : Plane) (s : State) :
    (∃ e, planDisplayBlack b s = .fail e ∧ (e = .stateError ∨ e = .dimensionError ∧
        (s.pstate = .ready ∨ s.pstate = .displaying))) ∨
    (planDisplayBlack b s = .refuse .busNotOwned ∧ s.owned = false) ∨
    (s.owned = true ∧ (s.pstate = .ready ∨ s.pstate = .displaying) ∧ fits s.cfg b = true ∧ planDisplayBlack b s = .run
        (listDisplayBlack s.cfg (packRaw b))) := by
  unfold planDisplayBlack planOnBus pack
  cases hp : s.pstate <;> simp only [checkState] <;> cases hb : fits s.cfg b <;> cases ho : s.owned <;> simp

theorem planSleep_cases (s : State) :
    (planSleep s = .fail .stateError) ∨ (planSleep s = .refuse .busNotOwned ∧ s.owned = false) ∨
    (s.owned = true ∧ s.pstate = .ready ∧ planSleep s = .run (listSleep s.cfg)) := by
  unfold planSleep planOnBus
  cases hp : s.pstate <;> simp only [checkState] <;> cases ho : s.owned <;> simp

theorem planExit_cases (s : State) :
    (planExit s = .fail .stateError ∨ planExit s = .fail .alreadyExited) ∨ (planExit s = .refuse .busNotOwned ∧
        s.owned = false) ∨
    (s.owned = true ∧ (s.pstate = .ready ∨ s.pstate = .displaying ∨ s.pstate = .sleeping) ∧ planExit s = .run
        (listExit s.cfg)) := by
  unfold planExit planOnBus
  cases hp : s.pstate <;> simp only [checkState] <;> cases ho : s.owned <;> simp

theorem planInit_cases (s : State) :
    (planInit s = .fail .stateError) ∨ (∃ r, planInit s = .refuse r) ∨
    (((s.owned = false ∧ s.pstate = .uninitialized) ∨ (s.owned = true ∧ s.pstate = .displaying)) ∧ planInit s = .run
        (listInit s.cfg)) := by
  unfold planInit planOnBus
  cases hp : s.pstate <;> simp only [checkState] <;> cases ho : s.owned <;> simp

/-- The state after `exit`'s listing. -/
def afterExit (s : State) : State := { s with
        pstate := .exited, owned := false, driven := false, mode := .none
        pinRst := s.cfg.safeRst, pinDc := s.cfg.safeDc, pinCs := !s.cfg.csActive
        trace := s.trace ++ releaseEvents s.cfg ++ stateEvents s.pstate .exited }

theorem runList_exit (s : State) : runList (listExit s.cfg) s = .ok (afterExit s) := by
  simp only [listExit, listRelease, List.cons_append, List.nil_append, runList, runMicro, setState_eq]
  simp [setGpio, emit, letGo, deselectChip, afterExit, releaseEvents]

/-- Everything an operation of the host port can end as. -/
inductive Surfaced (i : Instr) (s : State) : State → Prop where
  | failed (e : ResultCode) (hi : e = .stateError ∨ e = .alreadyExited ∧ i = .exit ∨ e = .dimensionError ∧
      (∃ b r, i = .display b r ∨ i = .displayBlack b)) (hg : ∀ im, i ≠ .getbuffer im) :
      Surfaced i s (present e .none { s with res := e })
  | converted (im : Image) (hi : i = .getbuffer im) : Surfaced i s (present .ok (.plane (monoPlane im)) s)
  | init (R : Run) (hi : i = .init) (hs : (s.owned = false ∧ s.pstate = .uninitialized) ∨
      (s.owned = true ∧ s.pstate = .displaying)) (hr :
      InitEnded (4 + 4 * s.cfg.initSeq.length + 2 * (2 * s.cfg.nPollMax.val - 1)) (inited s) R) : Surfaced i s
      (endSurface R)
  | display (R : Run) (hi : i = .clear ∨ ∃ b r, i = .display b r) (ho : s.owned = true) (hs : s.pstate = .ready ∨
      s.pstate = .displaying)
      (hr : Ended [s.cfg.cmdBlack, s.cfg.cmdRed, s.cfg.refresh.op]
          (2 * (2 * s.cfg.nPollMax.val - 1) + 1 + 12) .refreshTimeoutError [.displaying] .ready s R) : Surfaced i s
          (endSurface R)
  | displayBlack (R : Run) (hi : ∃ b, i = .displayBlack b) (ho : s.owned = true) (hs : s.pstate = .ready ∨
      s.pstate = .displaying)
      (hr : Ended [s.cfg.cmdBlack, s.cfg.refresh.op]
          (2 * (2 * s.cfg.nPollMax.val - 1) + 1 + 8) .refreshTimeoutError [.displaying] .ready s R) : Surfaced i s
          (endSurface R)
  | sleep (R : Run) (hi : i = .sleep) (ho : s.owned = true) (hs : s.pstate = .ready)
      (hr : Ended [s.cfg.sleep.op] (2 * s.cfg.nPollMax.val - 1 + 4) .refreshTimeoutError [] .sleeping s R) :
          Surfaced i s (endSurface R)
  | exit (hi : i = .exit) (ho : s.owned = true) (hs : s.pstate = .ready ∨ s.pstate = .displaying ∨
      s.pstate = .sleeping) : Surfaced i s (endSurfaceOk (afterExit s))

/-- The one case analysis of a surface operation. -/
theorem surfaced {i : Instr} {s t : State} (hi : isSurface i = true) (h : exec i s = .next t) : Surfaced i s t := by
  cases i <;> simp [isSurface] at hi <;> simp only [exec] at h
  case init =>
    unfold execInit at h
    rcases planInit_cases s with hp | ⟨r, hp⟩ | ⟨hs, hp⟩ <;> simp only [hp, runPlan, reduceCtorEq,
        Host.Outcome.next.injEq] at h <;> subst h
    · exact .failed _ (by simp) (by simp)
    · exact .init _ rfl hs (ended_init s)
  case clear =>
    unfold execClear planClear at h
    rcases planTwoPlanes_cases .clear (allInactive s.cfg) (allInactive s.cfg) s (by simp) with ⟨e, hp, he⟩ | ⟨hp, ho⟩ |
        ⟨ho, hs, hb, hr, hp⟩ <;> simp only [hp, runPlan, reduceCtorEq, Host.Outcome.next.injEq] at h <;> subst h
    · rcases he with rfl | ⟨rfl, -, hn⟩
      · exact .failed _ (by simp) (by simp)
      · simp [fits_inactive] at hn
    · exact .display _ (.inl rfl) ho hs (ended_display (packRaw_ne _ _ hb) (packRaw_ne _ _ hr))
  case display b r =>
    unfold execDisplay planDisplay at h
    rcases planTwoPlanes_cases .display b r s (by simp) with ⟨e, hp, he⟩ | ⟨hp, ho⟩ | ⟨ho, hs, hb, hr, hp⟩
        <;> simp only [hp, runPlan, reduceCtorEq, Host.Outcome.next.injEq] at h <;> subst h
    · rcases he with rfl | ⟨rfl, -, hn⟩
      · exact .failed _ (by simp) (by simp)
      · exact .failed _ (.inr (.inr ⟨rfl, _, _, .inl rfl⟩)) (by simp)
    · exact .display _ (.inr ⟨b, r, rfl⟩) ho hs (ended_display (packRaw_ne _ _ hb) (packRaw_ne _ _ hr))
  case displayBlack b =>
    unfold execDisplayBlack at h
    rcases planDisplayBlack_cases b s with ⟨e, hp, he⟩ | ⟨hp, ho⟩ | ⟨ho, hs, hb, hp⟩
        <;> simp only [hp, runPlan, reduceCtorEq, Host.Outcome.next.injEq] at h <;> subst h
    · rcases he with rfl | ⟨rfl, -⟩
      · exact .failed _ (by simp) (by simp)
      · exact .failed _ (.inr (.inr ⟨rfl, b, b, .inr rfl⟩)) (by simp)
    · exact .displayBlack _ ⟨b, rfl⟩ ho hs (ended_displayBlack (packRaw_ne _ _ hb))
  case sleep =>
    unfold execSleep at h
    rcases planSleep_cases s with hp | ⟨hp, ho⟩ | ⟨ho, hs, hp⟩ <;> simp only [hp, runPlan, reduceCtorEq,
        Host.Outcome.next.injEq] at h <;> subst h
    · exact .failed _ (by simp) (by simp)
    · exact .sleep _ rfl ho hs ended_sleep
  case exit =>
    unfold execExit at h
    rcases planExit_cases s with (hp | hp) | ⟨hp, ho⟩ | ⟨ho, hs, hp⟩ <;> simp only [hp, runPlan, reduceCtorEq,
        Host.Outcome.next.injEq, runList_exit] at h <;> subst h
    · exact .failed _ (by simp) (by simp)
    · exact .failed _ (by simp) (by simp)
    · exact .exit rfl ho hs
  case getbuffer im =>
    simp only [execGetbuffer, Host.Outcome.next.injEq] at h
    subst h
    exact .converted im rfl

/-- An operation ended by a fatal code. -/
theorem fatal_end {e : ResultCode} (he : e = .transportError ∨ e = .interrupted ∨ e = .initError) (t : State) :
   endRaised e t = { fatal e t with answer := some ⟨e, .none⟩ } := by rcases he with rfl | rfl | rfl <;> rfl

theorem inited_pstate (s : State) : (inited s).pstate = s.pstate := by unfold inited; split <;> rfl

end Sys2Proof.Machine
end

