-- ==== Sys2Proof/Laws/Layers.lean ====
section
/-!
SUPPORT. The layer operations: what each can end as, and what no listing step breaks.
-/

namespace Sys2Proof.Machine

/-- What every step of a listing keeps, the listing keeps, however it ends. -/
theorem runList_keeps {P : State → Prop} {ms : List Micro} (h : ∀ m ∈ ms, ∀ s, P s → P (runMicro m s).state) {s : State}
    (hs : P s) :
    P (runList ms s).state := by
  induction ms generalizing s with
  | nil => exact hs
  | cons m ms ih =>
    have h1 := h m (by simp) s hs
    cases hm : runMicro m s with
    | raised e t => rw [runList_cons_raised hm]; rw [hm] at h1; exact h1
    | ok t => rw [runList_cons_ok hm]; rw [hm] at h1; exact ih (fun m hm => h m (by simp [hm])) h1

/-- `DRIVEN = OWNED`, and a parked chip-select while the handle is held (10_state.md R55 (a), (e)). -/
def PinsOk (s : State) : Prop := s.driven = s.owned ∧ (s.owned = true → s.pinCs = (!s.cfg.csActive))

theorem pinsOk_writeBytes (d : List Byte) {s : State} (h : PinsOk s) : PinsOk (writeBytes d s).state := by
  by_cases hd : d = []
  · subst hd; exact h
  · cases hw : spiAt s.env 0
    · rw [writeBytes_fails hd hw]; exact ⟨h.1, fun _ => rfl⟩
    · rw [writeBytes_ok hd hw]; exact ⟨h.1, fun _ => rfl⟩

theorem pinsOk_of_polled {s t : State} (p : Kept s t) (c : t.pinCs = s.pinCs) (h : PinsOk s) : PinsOk t := by
  unfold PinsOk; rw [p.driven, p.owned, p.cfg, c]; exact h

theorem pinsOk_delay (n) {s : State} (h : PinsOk s) : PinsOk (delay n s).state := by
  cases hw : intrAt s.env 0
  · rw [delay_ok hw]; exact h
  · rw [delay_interrupted hw]; exact h

theorem pinsOk_runMicro (m : Micro) {s : State} (h : PinsOk s) : PinsOk (runMicro m s).state := by
  have hpoll : ∀ n {s}, PinsOk s → PinsOk (poll n s).state := fun n {s} hs => by
    obtain ⟨a, b, c, d, -⟩ := polling_poll n s
    exact pinsOk_of_polled a d hs
  cases m with
  | setGpio line level => cases line <;> exact h
  | writeBytes data => exact pinsOk_writeBytes data h
  | delay ticks => exact pinsOk_delay ticks h
  | setMode m => exact h
  | needContext => simp only [runMicro]; split <;> exact h
  | dataLine => simp only [runMicro, Run.state_ok]; split <;> exact h
  | acquireIfUninitialized => simp only [runMicro, Run.state_ok]; split; exact ⟨rfl, fun _ => rfl⟩; exact h
  | letGo => exact ⟨rfl, fun h => by cases h⟩
  | setState p => simp only [runMicro, Run.state_ok]; unfold PinsOk at *; simpa using h
  | wait e => simp only [runMicro, state_raiseOnTimeout]; exact hpoll _ (s := clearK s) h
  | sample e => simp only [runMicro, state_raiseOnTimeout]; exact hpoll _ h
  | pollDelay e =>
    simp only [runMicro]
    have := pinsOk_delay s.cfg.tPoll h
    cases hd : delay s.cfg.tPoll s with
    | raised e' t => rw [hd] at this; exact this
    | ok t => rw [hd] at this; simp only [state_raiseOnTimeout]; exact hpoll _ this

theorem pinsOk_runList (ms : List Micro) {s : State} (h : PinsOk s) : PinsOk (runList ms s).state :=
  runList_keeps (fun m _ _ h => pinsOk_runMicro m h) h

/-- The listing steps a layer operation is made of. -/
def isLayerMicro : Micro → Bool
  | .setGpio _ _ => true
  | .writeBytes _ => true
  | .delay _ => true
  | .setMode _ => true
  | .needContext => true
  | .dataLine => true
  | _ => false

theorem layer_runMicro (m : Micro) (hm : isLayerMicro m = true) (s : State) : (runMicro m s).state.pstate = s.pstate ∧
    (runMicro m s).state.k = s.k := by
  cases m <;> simp [isLayerMicro] at hm
  case setGpio line level => simp [runMicro]
  case writeBytes d =>
    by_cases hd : d = []
    · subst hd; exact ⟨rfl, rfl⟩
    · cases hw : spiAt s.env 0 <;> simp [runMicro, writeBytes_fails, writeBytes_ok, hd, hw, afterWrite]
  case delay n => cases hw : intrAt s.env 0 <;> simp [runMicro, delay_ok, delay_interrupted, hw, afterDelay]
  case setMode => exact ⟨rfl, rfl⟩
  case needContext => simp only [runMicro]; split <;> exact ⟨rfl, rfl⟩
  case dataLine => simp only [runMicro]; split <;> simp

theorem layer_runList (ms : List Micro) (hm : ms.all isLayerMicro = true) (s : State) :
    (runList ms s).state.pstate = s.pstate ∧ (runList ms s).state.k = s.k :=
  runList_keeps (P := fun t => t.pstate = s.pstate ∧ t.k = s.k) (fun m h t ht => by
    have := layer_runMicro m (List.all_eq_true.mp hm m h) t; exact ⟨this.1.trans ht.1, this.2.trans ht.2⟩) ⟨rfl, rfl⟩

/-- The codes a listing step can raise. -/
def raisesOf : Micro → List ResultCode
  | .writeBytes _ => [.transportError]
  | .delay _ => [.interrupted]
  | .needContext => [.protocolError]
  | .wait e => [e, .interrupted]
  | .sample e => [e, .interrupted]
  | .pollDelay e => [e, .interrupted]
  | _ => []

theorem runMicro_raises {m s e t} (h : runMicro m s = .raised e t) : e ∈ raisesOf m := by
  have hw : ∀ e' w, raiseOnTimeout e' w = .raised e t → e ∈ [e', .interrupted] := by
    intro e' w hh; cases w <;> simp [raiseOnTimeout] at hh <;> simp [hh.1]
  cases m <;> simp only [runMicro, reduceCtorEq] at h
  case writeBytes d => unfold writeBytes at h; split at h; simp at h; split at h <;> simp at h; simp [raisesOf, h.1]
  case delay d => unfold delay at h; split at h <;> simp at h; simp [raisesOf, h.1]
  case needContext => split at h <;> simp at h; simp [raisesOf, h.1]
  case wait e' => exact hw _ _ h
  case sample e' => exact hw _ _ h
  case pollDelay e' =>
    split at h
    · next e'' u hd => unfold delay at hd; split at hd <;> simp at hd; simp at h; simp [raisesOf, ← h.1, ← hd.1]
    · exact hw _ _ h

theorem runList_raises {ms s e t} (h : runList ms s = .raised e t) : ∃ m ∈ ms, e ∈ raisesOf m := by
  induction ms generalizing s with
  | nil => simp at h
  | cons m ms ih =>
    cases hm : runMicro m s with
    | raised e' t' => rw [runList_cons_raised hm] at h; simp at h; exact ⟨m, by simp, h.1 ▸ runMicro_raises hm⟩
    | ok u => rw [runList_cons_ok hm] at h; obtain ⟨m', h1, h2⟩ := ih h; exact ⟨m', by simp [h1], h2⟩

/-- The codes a layer operation's listing can raise. -/
def layerCodes : List ResultCode := [.transportError, .interrupted, .protocolError]

theorem layerMicro_raises {m e} (hm : isLayerMicro m = true) (h : e ∈ raisesOf m) : e ∈ layerCodes := by
  cases m <;> simp [isLayerMicro] at hm <;> simp [raisesOf] at h <;> simp [layerCodes, h]

/-- What a layer operation does. -/
structure Layered (s : State) (R : Run) : Prop where
  grown : Grown s R.state
  pstate : R.state.pstate = s.pstate
  k : s.k ≤ s.cfg.nPollMax.val → R.state.k ≤ s.cfg.nPollMax.val
  pins : PinsOk s → PinsOk R.state
  raises : ∀ e t, R = .raised e t → e ∈ layerCodes

theorem layered_list (ms) (hm : ms.all isLayerMicro = true) (s : State) : Layered s (runList ms s) :=
  ⟨grown_runList ms s, (layer_runList ms hm s).1,
      fun h => by rw [(layer_runList ms hm s).2]; exact h, pinsOk_runList ms,
   fun e t h => by obtain ⟨m, h1, h2⟩ := runList_raises h; exact layerMicro_raises (List.all_eq_true.mp hm m h1) h2⟩

/-- Everything an operation below the host port can end as. -/
inductive LayerEnd (s : State) : State → Prop where
  | run (v : Value) (R : Run) (h : Layered s R) : LayerEnd s (endLayer v R)
  | rejected : LayerEnd s (present .dimensionError .none s)

theorem layerEnd_present (s : State) (v) : LayerEnd s (present .ok v s) :=
  .run v (.ok s) ⟨.refl s, rfl, id, id, by simp⟩

theorem layerEnd_ok {s t : State} (v) (h : Grown s t) (p : t.pstate = s.pstate) (k : t.k = s.k) (c : PinsOk s →
    PinsOk t) : LayerEnd s (present .ok v t) :=
  .run v (.ok t) ⟨h, p, fun h => by simpa [k] using h, c, by simp⟩

theorem sendFrame_layer (c f) : (listSendFrame c f).all isLayerMicro = true := by
  by_cases h : f.data = [] <;> simp [listSendFrame, listSendCommand, listSendData, h, isLayerMicro]

theorem sendData_layer (b) : (listSendData b).all isLayerMicro = true := by
  by_cases h : b = [] <;> simp [listSendData, h, isLayerMicro]

theorem planeWrite_layer (c o b) : (listPlaneWrite c o b).all isLayerMicro = true := by
  by_cases h : b = [] <;> simp [listPlaneWrite, listSendCommand, listSendData, h, isLayerMicro]

/-- The one case analysis of a layer operation. -/
theorem layer_end {i : Instr} {s t : State} (hi : isSurface i = false) (h : exec i s = .next t) : LayerEnd s t := by
  have hb : ∀ {o}, onBus s o = .next t → o = .next t := by
    intro o ho; unfold onBus at ho; split at ho; exact ho; simp at ho
  cases i <;> simp [isSurface] at hi <;> simp only [exec] at h
  case writeBytes d =>
    have := hb h; simp at this; subst this
    refine .run _ _ ⟨grown_writeBytes d s, ?_, ?_, pinsOk_writeBytes d, ?_⟩
    · exact (layer_runMicro (.writeBytes d) rfl s).1
    · intro h; have := (layer_runMicro (.writeBytes d) rfl s).2; simp only [runMicro] at this; rw [this]; exact h
    · intro e u h; exact layerMicro_raises (m := .writeBytes d) rfl (runMicro_raises h)
  case readBusy =>
    have := hb h; simp at this; subst this
    exact .run _ _ ⟨⟨rfl, rfl, rfl, rfl, rfl, rfl, _, rfl⟩, rfl, id, id, by simp⟩
  case setGpio l v =>
    have := hb h; simp at this; subst this
    exact .run _ _ ⟨grown_setGpio l v s, (layer_runMicro (.setGpio l v) rfl s).1,
        fun h => by simpa using h, pinsOk_runMicro (.setGpio l v), by simp⟩
  case reset =>
    have := hb h; simp at this; subst this
    exact .run _ _ (layered_list _ rfl s)
  case delay n =>
    have := hb h; simp at this; subst this
    refine .run _ _ ⟨grown_delay n s, (layer_runMicro (.delay n) rfl s).1, ?_, pinsOk_delay n, ?_⟩
    · intro h; have := (layer_runMicro (.delay n) rfl s).2; simp only [runMicro] at this; rw [this]; exact h
    · intro e u h; exact layerMicro_raises (m := .delay n) rfl (runMicro_raises h)
  case acquire =>
    unfold execAcquire at h; split at h <;> simp at h; subst h
    exact .run _ _ ⟨grown_acquire s, rfl, id, fun _ => ⟨rfl, fun _ => rfl⟩, by simp⟩
  case release =>
    have := hb h; simp at this; subst this
    exact .run _ _ ⟨grown_release s,
        by simp [release_eq], by simp [release_eq], fun _ => by simp [PinsOk, release_eq], by simp⟩
  case sendCommand o =>
    have := hb h; simp at this; subst this
    exact .run _ _ (layered_list _ rfl s)
  case sendData b =>
    unfold execSendData at h
    split at h
    · simp at h; subst h; exact .run _ _ (layered_list _ (sendData_layer b) s)
    · have := hb h; simp at this; subst this; exact .run _ _ (layered_list _ (sendData_layer b) s)
  case sendFrame f =>
    have := hb h; simp at this; subst this
    exact .run _ _ (layered_list _ (sendFrame_layer _ f) s)
  case wireCmdFrame f =>
    have := hb h; simp at this; subst this
    exact .run _ _ (layered_list _ (sendFrame_layer _ f) s)
  case cfgFrame f =>
    have := hb h; simp at this; subst this
    exact .run _ _ (layered_list _ (sendFrame_layer _ f) s)
  case wirePlaneWrite o f =>
    unfold execWirePlaneWrite at h
    split at h
    · have := hb h; simp at this; subst this; exact .run _ _ (layered_list _ (planeWrite_layer _ o f) s)
    · simp at h
  case pack p =>
    unfold execPack at h; split at h <;> simp at h <;> subst h
    · exact layerEnd_present s _
    · exact .rejected
  case packRaw p => unfold execPackRaw at h; simp at h; subst h; exact layerEnd_present s _
  case allInactive => unfold execAllInactive at h; simp at h; subst h; exact layerEnd_present s _
  case packedByte => unfold execPackedByte at h; simp at h; subst h; exact layerEnd_present s _
  case waitNotBusy =>
    have := hb h; simp at this; subst this
    have hp := polled_waitNotBusy s
    have hg := grown_waitNotBusy s
    cases hw : waitNotBusy s with
    | interrupted u =>
      rw [hw] at hp hg
      exact .run .none (.raised .interrupted u) ⟨hg, hp.kept.pstate, fun _ => hp.k, pinsOk_of_polled hp.kept hp.pinCs,
          by simp [layerCodes]⟩
    | ready u =>
      rw [hw] at hp hg
      exact .run .ready (.ok u) ⟨hg, hp.kept.pstate, fun _ => hp.k, pinsOk_of_polled hp.kept hp.pinCs, by simp⟩
    | timeout u =>
      rw [hw] at hp hg
      exact .run .timeout (.ok u) ⟨hg, hp.kept.pstate, fun _ => hp.k, pinsOk_of_polled hp.kept hp.pinCs, by simp⟩

end Sys2Proof.Machine
end

