-- ==== Sys2Proof/Laws/PerInstr.lean ====
section
/-!
SUPPORT. A family of statements about instructions as syntax, one lemma for each constructor. `CodeFirst`: an
instruction's bytes begin with its operation code exactly when it has one, and it has one exactly when it is in the
format of the operation codes (30_encoding.md R109 to R113).
-/

namespace Sys2Proof.Laws.CodeFirst

/-- The operation code stands first, and only the four formats without fixed bits have none. -/
def Statement (i : Instr) : Prop :=
  (∀ c, opCode i = some c → (encode i).head? = some c) ∧ ((opCode i).isSome = true ↔ formatOf i = .op)

theorem init : Statement .init := by simp [Statement, opCode, encode, formatOf]
theorem clear : Statement .clear := by simp [Statement, opCode, encode, formatOf]
theorem display (black red : Plane) : Statement (.display black red) := by simp [Statement, opCode, encode, formatOf]
theorem displayBlack (black : Plane) : Statement (.displayBlack black) := by simp [Statement, opCode, encode, formatOf]
theorem sleep : Statement .sleep := by simp [Statement, opCode, encode, formatOf]
theorem exit : Statement .exit := by simp [Statement, opCode, encode, formatOf]
theorem getbuffer (image : Image) : Statement (.getbuffer image) := by simp [Statement, opCode, encode, formatOf]
theorem writeBytes (data : List Byte) : Statement (.writeBytes data) := by simp [Statement, opCode, encode, formatOf]
theorem readBusy : Statement .readBusy := by simp [Statement, opCode, encode, formatOf]
theorem setGpio (line : GpioLine) (level : Level) : Statement (.setGpio line level) := by
  simp [Statement, opCode, encode, formatOf]
theorem reset : Statement .reset := by simp [Statement, opCode, encode, formatOf]
theorem delay (ticks : Nat) : Statement (.delay ticks) := by simp [Statement, opCode, encode, formatOf]
theorem acquire : Statement .acquire := by simp [Statement, opCode, encode, formatOf]
theorem release : Statement .release := by simp [Statement, opCode, encode, formatOf]
theorem sendCommand (opcode : Byte) : Statement (.sendCommand opcode) := by simp [Statement, opCode, encode, formatOf]
theorem sendData (bytes : List Byte) : Statement (.sendData bytes) := by simp [Statement, opCode, encode, formatOf]
theorem sendFrame (frame : CommandFrame) : Statement (.sendFrame frame) := by simp [Statement, opCode, encode, formatOf]
theorem pack (plane : Plane) : Statement (.pack plane) := by simp [Statement, opCode, encode, formatOf]
theorem packRaw (plane : Plane) : Statement (.packRaw plane) := by simp [Statement, opCode, encode, formatOf]
theorem allInactive : Statement .allInactive := by simp [Statement, opCode, encode, formatOf]
theorem waitNotBusy : Statement .waitNotBusy := by simp [Statement, opCode, encode, formatOf]
theorem wireCmdFrame (frame : CommandFrame) : Statement (.wireCmdFrame frame) := by
  simp [Statement, opCode, formatOf]
theorem wirePlaneWrite (op : Byte) (frame : List Byte) : Statement (.wirePlaneWrite op frame) := by
  simp [Statement, opCode, formatOf]
theorem packedByte (a b c d e f g h : Bit) : Statement (.packedByte a b c d e f g h) := by
  simp [Statement, opCode, formatOf]
theorem cfgFrame (frame : CommandFrame) : Statement (.cfgFrame frame) := by simp [Statement, opCode, formatOf]

end Sys2Proof.Laws.CodeFirst
end

