-- ==== Sys2Proof/Laws/Steps.lean ====
section
/-!
SUPPORT. Everything a step can be, and what one listing position does.
-/

namespace Sys2Proof.Machine

/-- What one listing position does. -/
structure Moved (s t : State) : Prop where
  cfg : t.cfg = s.cfg
  host : t.host = s.host
  trace : ∃ l, t.trace = s.trace ++ l
  pins : PinsOk s → PinsOk t
  sticky : s.fatal = true → t.fatal = true
  fatal : s.fatal = false → t.fatal = true → t.upc = .idle ∧ t.pstate = .exited ∧ t.owned = false ∧
      (t.res = .transportError ∨ t.res = .initError ∨ t.res = .interrupted)

theorem moved_grown {s t : State} {u : Upc} (g : Grown s t) (p : PinsOk s → PinsOk t) : Moved s { t with upc := u } :=
  ⟨g.cfg, g.host, g.trace, p, fun h => g.fatal.trans h, fun h h' => absurd ((g.fatal.trans h).symm.trans h')
      (by decide)⟩

theorem moved_raised {s t : State} {e} (g : Grown s t) (p : PinsOk s → PinsOk t) : Moved s (atIdle (endRaised e t)) := by
  by_cases hf : e = .transportError ∨ e = .interrupted ∨ e = .initError
  · obtain ⟨l, hl⟩ := g.trace
    rw [fatal_end hf, fatal_eq]
    exact ⟨g.cfg, g.host, ⟨l ++ releaseEvents t.cfg ++ stateEvents t.pstate .exited, by simp [atIdle, hl]⟩,
        fun _ => by simp [PinsOk, atIdle], fun _ => rfl, fun _ _ => ⟨rfl, rfl, rfl, by simp [atIdle]; tauto⟩⟩
  · have : atIdle (endRaised e t) = { t with res := (endRaised e t).res, answer := some ⟨e, .none⟩, upc := .idle } :=
      by cases e <;> first | rfl | simp at hf
    rw [this]
    exact ⟨g.cfg, g.host, g.trace, p, fun h => g.fatal.trans h, fun h h' => absurd ((g.fatal.trans h).symm.trans h')
        (by decide)⟩

theorem moved_afterMicro {s : State} {rest} {R : Run} (g : Grown s R.state) (p : PinsOk s → PinsOk R.state) :
    Moved s (afterMicro rest R) := by
  cases R with
  | ok t => exact moved_grown g p
  | raised e t => exact moved_raised g p

theorem moved_microStep (m rest) (s : State) : Moved s (microStep m rest s) := by
  have gen : ∀ m, Moved s (afterMicro rest (runMicro m s)) := fun m => moved_afterMicro (grown_runMicro m s)
      (pinsOk_runMicro m)
  cases m <;> simp only [microStep] <;> try exact gen _
  case wait e => exact moved_grown (grown_clearK s) id
  case sample e =>
    rcases sample_cases s with ⟨-, h⟩ | ⟨-, -, h⟩ | ⟨-, -, h⟩ <;> rw [h]
    · exact moved_raised (grown_drawIntr s) id
    · exact moved_grown (grown_afterSample _ s) id
    · simp only; split
      · exact moved_raised (grown_afterSample _ s) id
      · exact moved_grown (grown_afterSample _ s) id
  case pollDelay e => exact moved_afterMicro (grown_delay _ s) (pinsOk_delay _)

theorem moved_advance {l s t} (h : advance l s = .next t) : Moved s t := by
  unfold advance at h
  split at h
  · simp at h; subst h
    exact ⟨rfl, rfl, ⟨[], by simp [atIdle, endSurfaceOk, present]⟩, id, id, fun h h' => absurd (h.symm.trans h')
        (by decide)⟩
  · split at h <;> simp at h; subst h; exact moved_microStep _ _ _

/-- An operation begun has a listing to run, or has ended as the whole step would. -/
theorem begin_cases {i s t} (h : beginOp i s = .next t) : (∃ l, t = atPosition l s) ∨
    (exec i s = .next t ∧ isSurface i = true) := by
  have key : ∀ p, exec i s = runPlan p s → isSurface i = true → beginPlan p s = .next t → (∃ l, t = atPosition l s) ∨
      (exec i s = .next t ∧ isSurface i = true) := by
    intro p h1 hi h2
    cases p with
    | fail e => right; rw [h1]; exact ⟨h2, hi⟩
    | refuse r => simp [beginPlan] at h2
    | run l => left; simp [beginPlan] at h2; exact ⟨l, h2.symm⟩
  cases i <;> simp only [beginOp, reduceCtorEq] at h
  case init => exact key _ rfl rfl h
  case clear => exact key _ rfl rfl h
  case display b r => exact key (planDisplay b r s) rfl rfl h
  case displayBlack b => exact key (planDisplayBlack b s) rfl rfl h
  case sleep => exact key _ rfl rfl h
  case exit => exact key _ rfl rfl h
  case getbuffer im => exact .inr ⟨h, rfl⟩

/-- Everything a step can be. -/
inductive Stepped (s : State) : State → Prop where
  | silent : s.upc = .idle → s.host = [] → Stepped s s
  | exec (i a later t) : s.upc = .idle → s.host = a :: later → (isSurface i = true ∨ ∃ f b, a = .harness f b) →
      exec i { s with host := later } = .next t → Stepped s t
  | began (a later l) (b) : s.upc = .idle → s.host = a :: later → a = .begin b →
      Stepped s (atPosition l { s with host := later })
  | await (later) : s.upc = .idle → s.host = .await :: later → Stepped s { s with host := later }
  | status (r later) : s.upc = .idle → s.host = .readStatus r :: later →
      Stepped s (readStatus r { s with host := later })
  | reset (later) : ResetStrikes s → (∃ n, s.host = .blockReset n :: later) → Stepped s (blockReset { s with host := later })
  | advance (l h t) : s.upc = .running l → advance l { s with host := h } = .next t →
      (h = s.host ∨ ∃ n later, s.host = .blockReset n :: later) → Stepped s t

/-- The one case analysis of a step. -/
theorem stepped {s t} (h : step s = .next t) : Stepped s t := by
  unfold step at h
  split at h
  · next l hu =>
    unfold runningStep at h
    split at h
    · next hh => exact .advance l s.host t hu h (.inl rfl)
    · exact .advance l s.host t hu h (.inl rfl)
    · next later hh => simp at h; subst h; exact .reset _ ⟨_, _, hh, .inr rfl⟩ ⟨_, hh⟩
    · next n later hh => exact .advance l _ t hu h (.inr ⟨_, _, hh⟩)
    all_goals simp at h
  · next hu =>
    unfold idleStep at h
    split at h
    · next hh => simp at h; subst h; exact .silent hu hh
    · next a later hh =>
      unfold hostStep at h
      split at h
      · next bytes =>
        unfold onHostPort at h
        split at h
        · simp at h
        · split at h
          · next hi => exact .exec _ _ _ _ hu hh (.inl hi) h
          · simp at h
      · next bytes =>
        unfold onHostPort at h
        split at h
        · simp at h
        · split at h
          · next i r hd hi =>
            rcases begin_cases h with ⟨l, rfl⟩ | ⟨h, _⟩
            · exact .began _ _ _ _ hu hh rfl
            · exact .exec _ _ _ _ hu hh (.inl hi) h
          · simp at h
      · simp at h; subst h; exact .await _ hu hh
      · unfold harnessCall at h
        split at h
        · simp at h
        · exact .exec _ _ _ _ hu hh (.inr ⟨_, _, rfl⟩) h
      · simp at h; subst h; exact .status _ _ hu hh
      · simp at h; subst h; exact .reset _ ⟨_, _, hh, .inl hu⟩ ⟨_, hh⟩

theorem readStatus_eq (r : StatusReg) (s : State) :
    readStatus r s = { s with env := (readStatus r s).env, answer := (readStatus r s).answer } := by
  cases r <;> rfl

end Sys2Proof.Machine
end

