-- ==== Sys2Proof/Laws/Positions.lean ====
section
/-!
SUPPORT. A listing run position by position through `UPC` (10_state.md R36).
-/

namespace Sys2Proof.Machine

/-- The state at a position. -/
def atUpc (u : Upc) (s : State) : State := { s with upc := u }
def Run.map (f : State → State) : Run → Run
  | .ok s => .ok (f s)
  | .raised e s => .raised e (f s)
def Waited.map (f : State → State) : Waited → Waited
  | .interrupted s => .interrupted (f s)
  | .ready s => .ready (f s)
  | .timeout s => .timeout (f s)

theorem delay_upc (u n s) : delay n (atUpc u s) = (delay n s).map (atUpc u) := by
  unfold delay; show (if intrAt s.env 0 then _ else _) = _; split <;> rfl

theorem sample_upc (u s) : sample (atUpc u s) = match sample s with
   | .interrupted t => .interrupted (atUpc u t)
   | .ready t => .ready (atUpc u t)
   | .busy t => .busy (atUpc u t) := by
  have e : (atUpc u s).env = s.env := rfl
  have e' : (atUpc u s).cfg = s.cfg := rfl
  rcases sample_cases s with ⟨h1, h⟩ | ⟨h1, h2, h⟩ | ⟨h1, h2, h⟩ <;> rw [h]
  · rw [sample_interrupted (by rw [e]; exact h1)]; rfl
  · rw [sample_ready (by rw [e]; exact h1) (by rw [e, e']; exact h2)]; rfl
  · rw [sample_busy (by rw [e]; exact h1) (by rw [e, e']; exact h2)]; rfl

theorem poll_upc (u n s) : poll n (atUpc u s) = (poll n s).map (atUpc u) := by
  induction n generalizing s with
  | zero => simp only [poll, sample_upc]; cases sample s <;> rfl
  | succ n ih =>
    simp only [poll, sample_upc]
    cases sample s with
    | interrupted t => rfl
    | ready t => rfl
    | busy t =>
      simp only [delay_upc]
      show (match (delay t.cfg.tPoll t).map (atUpc u) with | .raised _ v => _ | .ok v => _) = _
      cases delay t.cfg.tPoll t with
      | raised e v => rfl
      | ok v => exact ih v

theorem raise_map (e w f) : raiseOnTimeout e (Waited.map f w) = (raiseOnTimeout e w).map f := by cases w <;> rfl

theorem setState_atUpc (u p s) : setState p (atUpc u s) = atUpc u (setState p s) :=
    by rw [setState_eq, setState_eq]; rfl

/-- No listing step reads or writes `UPC`. -/
theorem runMicro_upc (u m s) : runMicro m (atUpc u s) = (runMicro m s).map (atUpc u) := by
  cases m with
  | setGpio line level => cases line <;> rfl
  | writeBytes d =>
    have e : (atUpc u s).env = s.env := rfl
    by_cases hd : d = []
    · subst hd; rfl
    · simp only [runMicro]
      cases hw : spiAt s.env 0
      · rw [writeBytes_fails hd hw, writeBytes_fails hd (by rw [e]; exact hw)]; rfl
      · rw [writeBytes_ok hd hw, writeBytes_ok hd (by rw [e]; exact hw)]; rfl
  | delay n => exact delay_upc u n s
  | setMode m => rfl
  | needContext => simp only [runMicro]; show (if hasContext s then _ else _) = _; split <;> rfl
  | dataLine => simp only [runMicro, Run.map]; show Run.ok (if s.mode = .data then _ else _) = _; split <;> rfl
  | acquireIfUninitialized => simp only [runMicro, Run.map]; show Run.ok (if s.pstate = _ then _ else _) = _; split
      <;> rfl
  | letGo => rfl
  | setState p => simp only [runMicro, Run.map, setState_atUpc]
  | wait e => simp only [runMicro, waitNotBusy]; rw [← raise_map, ← poll_upc]; rfl
  | sample e => simp only [runMicro]; rw [← raise_map, ← poll_upc]; rfl
  | pollDelay e =>
    simp only [runMicro]
    rw [delay_upc]
    show (match (delay s.cfg.tPoll s).map (atUpc u) with | .raised _ v => _ | .ok v => _) = _
    cases delay s.cfg.tPoll s with
    | raised e' v => rfl
    | ok v => simp only [Run.map]; show raiseOnTimeout e (poll (samplesLeft v) (atUpc u v)) = _; rw [poll_upc,
        raise_map]; rfl

theorem endRaised_upc (u e s) : atIdle (endRaised e (atUpc u s)) = atIdle (endRaised e s) := by
  by_cases hf : e = .transportError ∨ e = .interrupted ∨ e = .initError
  · rw [fatal_end hf, fatal_end hf, fatal_eq, fatal_eq]; rfl
  · cases e <;> first | rfl | simp at hf

/-- Some number of steps lead from one state to the other. -/
def Reach (s t : State) : Prop := ∃ n, core.run n s = .next t

theorem run_add (n m : Nat) (s : State) : core.run (n + m) s = match core.run n s with
   | .next t => core.run m t
   | .fault r => .fault r
   | .refused r => .refused r := by
  induction n generalizing s with
  | zero => simp [Host.Core.run]
  | succ n ih =>
    rw [Nat.succ_add]
    simp only [Host.Core.run]
    cases core.step s with
    | next t => exact ih t
    | fault r => rfl
    | refused r => rfl

theorem Reach.trans {s t u} (h : Reach s t) (k : Reach t u) : Reach s u := by
  obtain ⟨n, h⟩ := h; obtain ⟨m, k⟩ := k
  exact ⟨n + m, by rw [run_add, h]; exact k⟩

theorem reach_step {s t} (h : step s = .next t) : Reach s t :=
    ⟨1, by have h' : core.step s = .next t := h; simp only [Host.Core.run, h']⟩

theorem Reach.refl (s) : Reach s s := ⟨0, rfl⟩

theorem step_at {m rest s} (hh : s.host = []) (ho : needsBus m = true → s.owned = true) :
   step (atPosition (m :: rest) s) = .next (microStep m rest (atPosition (m :: rest) s)) := by
  have : (needsBus m && !(atPosition (m :: rest) s).owned) = false := by
    cases hn : needsBus m
    · rfl
    · have := ho hn; simp [atPosition, this]
  have hh' : (atPosition (m :: rest) s).host = [] := hh
  show runningStep (m :: rest) _ = _
  simp only [runningStep, hh', advance, this]
  rfl

theorem microStep_plain {m rest s} (hw : ∀ e, m ≠ .wait e) (hs : ∀ e, m ≠ .sample e) (hd : ∀ e, m ≠ .pollDelay e) :
   microStep m rest s = afterMicro rest (runMicro m s) := by
  cases m <;> first | rfl | exact absurd rfl (hw _) | exact absurd rfl (hs _) | exact absurd rfl (hd _)

theorem afterMicro_upc (u rest R) : afterMicro rest (Run.map (atUpc u) R) = afterMicro rest R := by
  cases R with
  | ok t => rfl
  | raised e t => exact endRaised_upc u e t

/-- A wait, sample by sample. -/
theorem reach_sample (e rest) (n : Nat) (s : State) (hn : samplesLeft s = n) (hh : s.host = []) (ho : s.owned = true) :
   Reach (atPosition (.sample e :: rest) s) (afterMicro rest (raiseOnTimeout e (poll n s))) := by
  induction n generalizing s with
  | zero =>
    refine reach_step ((step_at hh (fun _ => ho)).trans ?_)
    congr 1
    simp only [microStep]
    show (match sample (atUpc _ s) with | .interrupted t => _ | .ready t => _ | .busy t => _) = _
    rw [sample_upc]
    have : samplesLeft (atPosition (.sample e :: rest) s) = 0 := hn
    simp only [poll, this, if_true]
    cases sample s with
    | interrupted t => exact endRaised_upc _ _ _
    | ready t => rfl
    | busy t => exact endRaised_upc _ _ _
  | succ n ih =>
    have hsl : samplesLeft (atPosition (.sample e :: rest) s) = n + 1 := hn
    have hst : step (atPosition (.sample e :: rest) s) = .next (match sample s with
        | .interrupted t => atIdle (endRaised .interrupted t)
        | .ready t => atPosition rest t
        | .busy t => atPosition (.pollDelay e :: rest) t) := by
      refine (step_at hh (fun _ => ho)).trans ?_
      congr 1
      simp only [microStep]
      show (match sample (atUpc _ s) with | .interrupted t => _ | .ready t => _ | .busy t => _) = _
      rw [sample_upc]
      simp only [hsl]
      cases sample s with
      | interrupted t => exact endRaised_upc _ _ _
      | ready t => rfl
      | busy t => rfl
    refine (reach_step hst).trans ?_
    rcases sample_cases s with ⟨-, h⟩ | ⟨-, -, h⟩ | ⟨-, -, h⟩
    · simp only [poll, h]; exact .refl _
    · simp only [poll, h]; exact .refl _
    · simp only [poll, h]
      have hst2 : step (atPosition (.pollDelay e :: rest) (afterSample true s)) = .next (afterMicro (.sample e :: rest)
          (delay s.cfg.tPoll (afterSample true s))) := by
        refine (step_at (s := afterSample true s) hh (fun _ => ho)).trans ?_
        congr 1
        simp only [microStep]
        show afterMicro _ (delay _ (atUpc _ (afterSample true s))) = _
        rw [delay_upc, afterMicro_upc]
        rfl
      refine (reach_step hst2).trans ?_
      show Reach (afterMicro (.sample e :: rest) (delay s.cfg.tPoll (afterSample true s)))
          (afterMicro rest (raiseOnTimeout e (match delay s.cfg.tPoll
          (afterSample true s) with | .raised _ v => _ | .ok v => _)))
      cases hi : intrAt (afterSample true s).env 0
      · rw [delay_ok hi]
        refine ih _ ?_ hh ho
        unfold samplesLeft at hn ⊢
        show s.cfg.nPollMax.pred - (s.k + 1) = n
        omega
      · rw [delay_interrupted hi]; exact .refl _

/-- One listing step, position by position. -/
theorem reach_micro {m rest s} (hh : s.host = []) (ho : needsBus m = true → s.owned = true) (hs : ∀ e, m ≠ .sample e)
    (hd : ∀ e, m ≠ .pollDelay e) :
   Reach (atPosition (m :: rest) s) (afterMicro rest (runMicro m s)) := by
  by_cases hw : ∃ e, m = .wait e
  · obtain ⟨e, rfl⟩ := hw
    refine (reach_step ((step_at hh ho).trans rfl)).trans ?_
    show Reach (atPosition (.sample e :: rest) (clearK s)) _
    exact reach_sample e rest _ (clearK s) (by simp [samplesLeft, clearK]) hh (ho rfl)
  · refine reach_step ((step_at hh ho).trans ?_)
    rw [microStep_plain (fun e h => hw ⟨e, h⟩) hs hd]
    congr 1
    show afterMicro rest (runMicro m (atUpc _ s)) = _
    rw [runMicro_upc, afterMicro_upc]

/-- With the handle held or not, no step of the listing that uses the bus stands where it is not. -/
def busOk : Bool → List Micro → Bool
  | _, [] => true
  | o, m :: ms => (!needsBus m || o) && (match m with
     | .sample _ => false
     | .pollDelay _ => false
     | .letGo => busOk false ms
     | _ => busOk o ms)

theorem owned_runMicro (m s t) (h : runMicro m s = .ok t) (hl : m ≠ .letGo) : s.owned = true → t.owned = true := by
  intro ho
  cases m with
  | setGpio line level => simp [runMicro] at h; subst h; simpa using ho
  | writeBytes d => simp only [runMicro] at h; unfold writeBytes at h; split at h; simp at h; subst h; exact ho; split at h <;> simp at h; subst h; simpa using ho
  | delay n => simp only [runMicro] at h; unfold delay at h; split at h <;> simp at h; subst h; simpa using ho
  | setMode m => simp [runMicro] at h; subst h; exact ho
  | needContext => simp only [runMicro] at h; split at h <;> simp at h; subst h; exact ho
  | dataLine => simp only [runMicro] at h; simp at h; subst h; split; exact ho; simpa using ho
  | acquireIfUninitialized => simp only [runMicro] at h; simp at h; subst h; split; rfl; exact ho
  | letGo => exact absurd rfl hl
  | setState p => simp [runMicro] at h; subst h; simpa using ho
  | wait e =>
    have := polled_waitNotBusy s
    simp only [runMicro] at h
    cases hw : waitNotBusy s
        <;> simp [hw, raiseOnTimeout] at h; subst h; rw [hw] at this; exact this.kept.owned.trans ho
  | sample e =>
    have := (polling_poll (samplesLeft s) s).1
    simp only [runMicro] at h
    cases hw : poll (samplesLeft s) s
        <;> simp [hw, raiseOnTimeout] at h; subst h; rw [hw] at this; exact this.owned.trans ho
  | pollDelay e =>
    simp only [runMicro] at h
    split at h
    · simp at h
    · next u hd =>
      have hu : u.owned = true := by unfold delay at hd; split at hd <;> simp at hd; subst hd; simpa using ho
      have := (polling_poll (samplesLeft u) u).1
      cases hw : poll (samplesLeft u) u
          <;> simp [hw, raiseOnTimeout] at h; subst h; rw [hw] at this; exact this.owned.trans hu

/-- A listing run position by position ends as the listing run whole. -/
theorem reach_list (ms : List Micro) (o : Bool) (s : State) (hh : s.host = []) (ho : o = true → s.owned = true)
    (hb : busOk o ms = true) :
   Reach (atPosition ms s) (atIdle (endSurface (runList ms s))) := by
  induction ms generalizing s o with
  | nil =>
    refine reach_step ?_
    show runningStep [] (atPosition [] s) = _
    have hh' : (atPosition [] s).host = [] := hh
    simp only [runningStep, hh', advance]; rfl
  | cons m ms ih =>
    have h1 : needsBus m = true → s.owned = true := by
      intro hn; apply ho; simp only [busOk, hn, Bool.and_eq_true] at hb; simpa using hb.1
    have hs : ∀ e, m ≠ .sample e := by rintro e rfl; simp [busOk] at hb
    have hd : ∀ e, m ≠ .pollDelay e := by rintro e rfl; simp [busOk] at hb
    refine (reach_micro hh h1 hs hd).trans ?_
    have g := grown_runMicro m s
    cases hm : runMicro m s with
    | raised e t => rw [runList_cons_raised hm]; exact .refl _
    | ok t =>
      rw [runList_cons_ok hm]
      rw [hm] at g
      have hht : t.host = [] := g.host.trans hh
      by_cases hl : m = .letGo
      · subst hl
        exact ih false t hht (by simp) (by simp [busOk] at hb; exact hb.2)
      · refine ih o t hht (fun h => owned_runMicro m s t hm hl (ho h)) ?_
        cases m <;> simp_all [busOk]

theorem busOk_frame (c f rest) (h : busOk true rest = true) : busOk true (listSendFrame c f ++ rest) = true := by
  by_cases hd : f.data = [] <;> simp [listSendFrame, listSendCommand, listSendData, hd, busOk, needsBus, h]

theorem busOk_frames (c fs rest) (h : busOk true rest = true) :
    busOk true (List.flatMap (listSendFrame c) fs ++ rest) = true := by
  induction fs with
  | nil => exact h
  | cons f fs ih => rw [List.flatMap_cons, List.append_assoc]; exact busOk_frame c f _ ih

theorem busOk_plane (c o b rest) (h : busOk true rest = true) : busOk true (listPlaneWrite c o b ++ rest) = true := by
  by_cases hd : b = [] <;> simp [listPlaneWrite, listSendCommand, listSendData, hd, busOk, needsBus, h]

end Sys2Proof.Machine
end

