-- ==== Sys2Proof/Tests/Slice0.lean ====
section
/-!
SUPPORT. The model's own tests, on the synthetic configuration `CFG_TEST` and the hand-derived vectors of
spec/95_test_vectors.md (V<n> below), the decoding of words written out from 30_encoding.md R110 to R112, and terms that
WellFormed refuses.
-/

namespace Sys2Proof.Tests

open Sys2Proof.Machine

/-! ### Set-up (95_test_vectors.md section 1) -/

def cfgTest : Cfg where
  width := ⟨11⟩
  height := ⟨1⟩
  initSeq := [⟨0xA0, [0x01, 0x02]⟩, ⟨0xA1, []⟩]
  cmdBlack := 0xB0
  cmdRed := 0xB1
  refresh := ⟨0xC0, []⟩
  sleep := ⟨0xD0, [0x5A]⟩
  tRstPulse := 2
  tRstSettle := 5
  tPoll := 1
  nPollMax := ⟨2⟩
  rstActive := false
  dcCmd := false
  csActive := false
  busyActive := true
  safeRst := false
  safeDc := false

/-- The answers listed, then quiet ones enough for one operation. -/
def envOf (busy : List Level) (spi intr : List Bool) : Env where
  busy := busy ++ List.replicate 8 false
  spi := spi ++ List.replicate 16 true
  intr := intr ++ List.replicate 8 false
  busyTaken := 0
  spiTaken := 0
  intrTaken := 0

def quiet : Env := envOf [] [] []

/-- The reset state under `CFG_TEST` with the given environment. -/
def fresh (e : Env) : State := { State.resetWith cfgTest with env := e }

/-- The state just after `acquire()` (V8a). -/
def held (e : Env) : State :=
  { fresh e with owned := true, driven := true, pinRst := true, pinCs := true }

/-- "From Ready": the state after V33. -/
def ready (e : Env) : State := { held e with pstate := .ready, mode := .command }

/-- The state after V36: a refresh has timed out. -/
def displaying (e : Env) : State := { ready e with pstate := .displaying, res := .refreshTimeoutError, k := 3 }

def exited (e : Env) : State := { fresh e with pstate := .exited }

def planeOf (w h : Nat) (px : List Nat) : Plane := ⟨w, h, px.map (· == 1)⟩

def white : Plane := planeOf 12 2 (List.replicate 24 1)
def blackAll : Plane := planeOf 12 2 (List.replicate 24 0)
def dot00 : Plane := planeOf 12 2 (0 :: List.replicate 23 1)
def dot1B : Plane := planeOf 12 2 (List.replicate 23 1 ++ [0])
def stripe : Plane := planeOf 12 2 [0,1,0,1,0,1,0,1,0,1,0,1, 1,0,1,0,1,0,1,0,1,0,1,0]
def wide : Plane := planeOf 16 2 (List.replicate 32 1)

/-- What a test looks at after one operation: the events, the result code on the port, `SR0` and `RES`. -/
def seen : Host.Outcome State Fault Refusal → Option (List Event × Option Answer × Byte × Byte)
  | .next t => some (t.trace, t.answer, sr0 t, sr1 t)
  | .fault _ => none
  | .refused _ => none

/-- The refusal of a step, if it is one. -/
def refusal : Host.Outcome State Fault Refusal → Option Refusal
  | .next _ => none
  | .fault _ => none
  | .refused r => some r

def done (c : ResultCode) : Option Answer := some ⟨c, .none⟩

/-- The events of V33 after `EvAcquire`. -/
def evInit : List Event :=
  [.gpio .rst false, .delay 2, .gpio .rst true, .delay 5, .busy false,
   .gpio .dc false, .spi false [0xA0], .gpio .dc true, .spi true [0x01, 0x02],
   .gpio .dc false, .spi false [0xA1], .busy false, .pstate .ready]

def evRelease : List Event := [.gpio .rst false, .gpio .dc false, .release]

def evFatal : List Event := evRelease ++ [.pstate .exited]

/-- The ten frame events of V30. -/
def evFrames30 : List Event :=
  [.gpio .dc false, .spi false [0xB0], .gpio .dc true, .spi true [0x7F, 0xFF, 0xFF, 0xFF],
   .gpio .dc false, .spi false [0xB1], .gpio .dc true, .spi true [0xFF, 0xFF, 0xFF, 0xEF],
   .gpio .dc false, .spi false [0xC0]]

def evTimeout : List Event := [.busy true, .delay 1, .busy true, .delay 1, .busy true]

/-! ### Terms WellFormed refuses -/

theorem test_wf_short_plane : Instr.wellFormed (.pack ⟨12, 2, [true]⟩) = false := by decide
theorem test_wf_bad_red : Instr.wellFormed (.display white ⟨1, 1, []⟩) = false := by decide
theorem test_wf_long_black : Instr.wellFormed (.displayBlack ⟨1, 1, [true, true]⟩) = false := by decide
theorem test_wf_bad_raw : Instr.wellFormed (.packRaw ⟨0, 5, [true]⟩) = false := by decide
theorem test_wf_bad_image : Instr.wellFormed (.getbuffer ⟨2, 2, [.bit true]⟩) = false := by decide
theorem test_wf_good : Instr.wellFormed (.display white dot1B) = true := by decide

/-! ### Decoding: codes of R110, R111 and operands of R112 written out -/

theorem test_decode_init : decode .op [0x01] = .ok (.init, []) := by decide
theorem test_decode_clear : decode .op [0x02] = .ok (.clear, []) := by decide
/-- `03`, then a 2 x 1 plane `01`, then a 1 x 1 plane `1`. -/
theorem test_decode_display : decode .op [0x03, 0x02, 0x01, 0x40, 0x01, 0x01, 0x80] =
    .ok (.display (planeOf 2 1 [0, 1]) (planeOf 1 1 [1]), []) := by decide
/-- `04`, then a 9 x 1 plane whose last pixel opens a second byte. -/
theorem test_decode_displayBlack : decode .op [0x04, 0x09, 0x01, 0x81, 0x80] =
    .ok (.displayBlack (planeOf 9 1 [1, 0, 0, 0, 0, 0, 0, 1, 1]), []) := by decide
theorem test_decode_sleep : decode .op [0x05] = .ok (.sleep, []) := by decide
theorem test_decode_exit : decode .op [0x06] = .ok (.exit, []) := by decide
theorem test_decode_getbuffer : decode .op [0x07, 0x03, 0x01, 0x00, 0x01, 0x07] =
    .ok (.getbuffer ⟨3, 1, [.bit false, .bit true, .value 5]⟩, []) := by decide
theorem test_decode_writeBytes : decode .op [0x10, 0x02, 0xAA, 0xBB, 0xCC] = .ok (.writeBytes [0xAA, 0xBB], [0xCC]) := by
  decide
theorem test_decode_readBusy : decode .op [0x11] = .ok (.readBusy, []) := by decide
theorem test_decode_setGpio : decode .op [0x12, 0x01, 0x01] = .ok (.setGpio .dc true, []) := by decide
theorem test_decode_setGpio_rst : decode .op [0x12, 0x00, 0x00] = .ok (.setGpio .rst false, []) := by decide
theorem test_decode_reset : decode .op [0x13] = .ok (.reset, []) := by decide
/-- 300 = 2 * 128 + 44. -/
theorem test_decode_delay : decode .op [0x14, 0xAC, 0x02] = .ok (.delay 300, []) := by decide
theorem test_decode_acquire : decode .op [0x15] = .ok (.acquire, []) := by decide
theorem test_decode_release : decode .op [0x16] = .ok (.release, []) := by decide
theorem test_decode_sendCommand : decode .op [0x20, 0xA1] = .ok (.sendCommand 0xA1, []) := by decide
theorem test_decode_sendData : decode .op [0x21, 0x01, 0x5A] = .ok (.sendData [0x5A], []) := by decide
theorem test_decode_sendFrame : decode .op [0x22, 0xD0, 0x01, 0x5A] = .ok (.sendFrame ⟨0xD0, [0x5A]⟩, []) := by decide
theorem test_decode_pack : decode .op [0x30, 0x01, 0x03, 0xA0] = .ok (.pack (planeOf 1 3 [1, 0, 1]), []) := by decide
theorem test_decode_packRaw : decode .op [0x31, 0x08, 0x01, 0x7E] =
    .ok (.packRaw (planeOf 8 1 [0, 1, 1, 1, 1, 1, 1, 0]), []) := by decide
theorem test_decode_allInactive : decode .op [0x32] = .ok (.allInactive, []) := by decide
theorem test_decode_waitNotBusy : decode .op [0x40] = .ok (.waitNotBusy, []) := by decide
theorem test_decode_wireCmdFrame : decode .wireCmdFrame [0xA0, 0x01, 0x02] = .ok (.wireCmdFrame ⟨0xA0, [0x01, 0x02]⟩, []) := by
  decide
theorem test_decode_wirePlaneWrite : decode .wirePlaneWrite [0xB0, 0x7F, 0xFF] = .ok (.wirePlaneWrite 0xB0 [0x7F, 0xFF], []) := by
  decide
/-- R106: bit 7 is the leftmost cell; `0x5F` is `0 1 0 1 1 1 1 1`. -/
theorem test_decode_packedByte : decode .packedByte [0x5F] =
    .ok (.packedByte false true false true true true true true, []) := by decide
theorem test_decode_cfgFrame : decode .cfgFrame [0xA1, 0x00] = .ok (.cfgFrame ⟨0xA1, []⟩, []) := by decide
theorem test_decode_reserved : decode .op [0x41] = .error (.reservedCode 0x41) := by decide
theorem test_decode_busy_line : decode .op [0x12, 0x02, 0x00] = .error (.notAnOutputLine 0x02) := by decide
theorem test_decode_truncated : decode .op [0x22, 0xD0, 0x02, 0x5A] = .error .truncated := by decide
theorem test_decode_redundant : decode .op [0x14, 0x80, 0x00] = .error .nonMinimalNumber := by decide
theorem test_table_word : decodeTableWord 8 0x40 = some .waitNotBusy := by decide
theorem test_table_word_reserved : decodeTableWord 8 0x00 = none := by decide

/-! ### Transport -/

/-- V1. -/
theorem test_writeBytes_ok : seen (exec (.writeBytes [0xA0]) (held quiet)) =
    some ([.spi false [0xA0]], done .ok, 0x08, 0x00) := by decide
/-- V3: the fatal path. -/
theorem test_writeBytes_fails : seen (exec (.writeBytes [0x01, 0x02]) (held (envOf [] [false] []))) =
    some ([.spiFail false [0x01, 0x02]] ++ evFatal, done .transportError, 0x44, 0x01) := by decide
/-- V4b. -/
theorem test_readBusy_busy : seen (exec .readBusy (held (envOf [true] [] []))) =
    some ([.busy true], some ⟨.ok, .bool true⟩, 0x08, 0x00) := by decide
/-- V4c: with `BUSY_ACTIVE = 0` raw 0 is busy. -/
theorem test_readBusy_polarity : seen (exec .readBusy { held quiet with cfg.busyActive := false }) =
    some ([.busy true], some ⟨.ok, .bool true⟩, 0x08, 0x00) := by decide
/-- V5a: bit 1 of `SR4` is `PIN_DC`. -/
theorem test_setGpio_dc : exec (.setGpio .dc true) (held quiet) =
    .next { held quiet with pinDc := true, trace := [.gpio .dc true], answer := done .ok } := by rfl
/-- V6: `MODE` is lost, `PIN_DC` is not touched. -/
theorem test_reset_pulse : seen (exec .reset { held quiet with mode := .data, pinDc := true }) =
    some ([.gpio .rst false, .delay 2, .gpio .rst true, .delay 5], done .ok, 0x08, 0x00) := by decide
/-- V9. -/
theorem test_delay_zero : seen (exec (.delay 0) (held quiet)) = some ([.delay 0], done .ok, 0x08, 0x00) := by decide
/-- R141: on an interrupt the delay is not performed and not recorded. -/
theorem test_delay_interrupted : seen (exec (.delay 7) (held (envOf [] [] [true]))) =
    some (evFatal, done .interrupted, 0x44, 0x08) := by decide
/-- V8a. -/
theorem test_acquire : exec .acquire (fresh quiet) =
    .next { held quiet with trace := [.acquire], answer := done .ok } := by rfl
/-- V8b. -/
theorem test_release : seen (exec .release { held quiet with pinDc := true }) =
    some (evRelease, done .ok, 0x00, 0x00) := by decide
/-- R130: the handle is not held. -/
theorem test_refused_without_handle : refusal (exec (.writeBytes [0x00]) (fresh quiet)) = some .busNotOwned := by decide

/-! ### Framer -/

/-- V24: from `MODE = Data`. -/
theorem test_sendCommand : seen (exec (.sendCommand 0xA1) { held quiet with mode := .data, pinDc := true }) =
    some ([.gpio .dc false, .spi false [0xA1]], done .ok, 0x18, 0x00) := by decide
/-- V23: the line is not written again. -/
theorem test_sendData_again : seen (exec (.sendData [0x03]) { held quiet with mode := .data, pinDc := true }) =
    some ([.spi true [0x03]], done .ok, 0x28, 0x00) := by decide
/-- V28: the context is checked before emptiness. -/
theorem test_sendData_no_context : seen (exec (.sendData []) (held quiet)) =
    some ([], done .protocolError, 0x08, 0x00) := by decide
/-- V26. -/
theorem test_sendFrame : seen (exec (.sendFrame ⟨0xD0, [0x5A]⟩) (held quiet)) =
    some ([.gpio .dc false, .spi false [0xD0], .gpio .dc true, .spi true [0x5A]], done .ok, 0x28, 0x00) := by decide
/-- R100, with no data: one transaction. -/
theorem test_wireCmdFrame : seen (exec (.wireCmdFrame ⟨0xC0, []⟩) (held quiet)) =
    some ([.gpio .dc false, .spi false [0xC0]], done .ok, 0x18, 0x00) := by decide
theorem test_cfgFrame : seen (exec (.cfgFrame ⟨0xA0, [0x01, 0x02]⟩) (held quiet)) =
    some ([.gpio .dc false, .spi false [0xA0], .gpio .dc true, .spi true [0x01, 0x02]], done .ok, 0x28, 0x00) := by decide
/-- R103, with `FRAME_LEN = 4`. -/
theorem test_wirePlaneWrite : seen (exec (.wirePlaneWrite 0xB1 [0xFF, 0xFF, 0xFF, 0xEF]) (held quiet)) =
    some ([.gpio .dc false, .spi false [0xB1], .gpio .dc true, .spi true [0xFF, 0xFF, 0xFF, 0xEF]], done .ok, 0x28, 0x00) := by
  decide
/-- A part of a frame (20_memory.md R83), and a frame of 12 by 2 whose padding bits are 0 (R82, R106). -/
theorem test_wirePlaneWrite_refused :
    refusal (exec (.wirePlaneWrite 0xB1 [0xFF]) (held quiet)) = some .notAPlaneWrite ∧
    refusal (exec (.wirePlaneWrite 0xB1 [0x00, 0x00, 0x00, 0x00]) (held quiet)) = some .notAPlaneWrite ∧
    refusal (exec (.wirePlaneWrite 0xB1 [0x00, 0x0F, 0x00, 0x0F]) (held quiet)) = none := by decide

/-! ### Packer -/

/-- V13, V16, V17, V19b. -/
theorem test_packRaw_padding : packRaw (planeOf 12 1 [0,1,0,1,0,1,0,1,0,1,0,1]) = [0x55, 0x5F] := by decide
theorem test_packRaw_narrow : packRaw (planeOf 1 3 [0, 1, 0]) = [0x7F, 0xFF, 0x7F] := by decide
theorem test_packRaw_no_columns : packRaw (planeOf 0 3 []) = [] := by decide
/-- V12. -/
theorem test_pack_black : exec (.pack blackAll) (fresh quiet) =
    .next { fresh quiet with answer := some ⟨.ok, .bytes [0x00, 0x0F, 0x00, 0x0F]⟩ } := by rfl
/-- V19e. -/
theorem test_pack_wide : exec (.pack wide) (fresh quiet) =
    .next { fresh quiet with answer := done .dimensionError } := by rfl
/-- V10. -/
theorem test_packRaw : exec (.packRaw (planeOf 8 1 [0,1,1,1,1,1,1,0])) (fresh quiet) =
    .next { fresh quiet with answer := some ⟨.ok, .bytes [0x7E]⟩ } := by rfl
/-- V11, R172. -/
theorem test_allInactive : exec .allInactive (fresh quiet) =
    .next { fresh quiet with answer := some ⟨.ok, .plane white⟩ } := by rfl
/-- V15: pixel (1, 11) is bit 4 of byte 3. -/
theorem test_packRaw_dot1B : packRaw dot1B = [0xFF, 0xFF, 0xFF, 0xEF] := by decide
/-- V18, first byte: `1 0 0 0 0 0 0 1`. -/
theorem test_packedByte : exec (.packedByte true false false false false false false true) (fresh quiet) =
    .next { fresh quiet with answer := some ⟨.ok, .byte 0x81⟩ } := by rfl

/-! ### Sequencer -/

/-- The example of R190: busy, busy, ready. -/
theorem test_waitNotBusy_ready : seen (exec .waitNotBusy (held (envOf [true, true] [] []))) =
    some ([.busy true, .delay 1, .busy true, .delay 1, .busy false], some ⟨.ok, .ready⟩, 0x08, 0x00) := by decide
/-- The example of R190: busy, busy, busy. -/
theorem test_waitNotBusy_timeout : seen (exec .waitNotBusy (held (envOf [true, true, true] [] []))) =
    some (evTimeout, some ⟨.ok, .timeout⟩, 0x08, 0x00) := by decide
/-- V33. -/
theorem test_init : seen (exec .init (fresh quiet)) = some (.acquire :: evInit, done .ok, 0x19, 0x00) := by decide
/-- V46: re-init. -/
theorem test_init_again : seen (exec .init (displaying quiet)) = some (evInit, done .ok, 0x19, 0x00) := by decide
/-- V32. -/
theorem test_clear : seen (exec .clear (ready quiet)) =
    some ([.busy false, .pstate .displaying,
      .gpio .dc false, .spi false [0xB0], .gpio .dc true, .spi true [0xFF, 0xFF, 0xFF, 0xFF],
      .gpio .dc false, .spi false [0xB1], .gpio .dc true, .spi true [0xFF, 0xFF, 0xFF, 0xFF],
      .gpio .dc false, .spi false [0xC0], .busy false, .pstate .ready], done .ok, 0x19, 0x00) := by decide
/-- V30. -/
theorem test_display : seen (exec (.display dot00 dot1B) (ready quiet)) =
    some ([.busy false, .pstate .displaying] ++ evFrames30 ++ [.busy false, .pstate .ready], done .ok, 0x19, 0x00) := by
  decide
/-- V36: the refresh times out. -/
theorem test_display_timeout : seen (exec (.display dot00 dot1B) (ready (envOf [false, true, true, true] [] []))) =
    some ([.busy false, .pstate .displaying] ++ evFrames30 ++ evTimeout, done .refreshTimeoutError, 0x1A, 0x05) := by decide
/-- V31. -/
theorem test_displayBlack : seen (exec (.displayBlack blackAll) (ready quiet)) =
    some ([.busy false, .pstate .displaying,
      .gpio .dc false, .spi false [0xB0], .gpio .dc true, .spi true [0x00, 0x0F, 0x00, 0x0F],
      .gpio .dc false, .spi false [0xC0], .busy false, .pstate .ready], done .ok, 0x19, 0x00) := by decide
/-- V40d. -/
theorem test_displayBlack_early : seen (exec (.displayBlack dot00) (fresh quiet)) =
    some ([], done .stateError, 0x00, 0x07) := by decide
/-- V41. -/
theorem test_sleep : seen (exec .sleep (ready quiet)) =
    some ([.busy false, .gpio .dc false, .spi false [0xD0], .gpio .dc true, .spi true [0x5A], .pstate .sleeping],
      done .ok, 0x2B, 0x00) := by decide
/-- V48: with `N_POLL_MAX = 1` one busy sample is a timeout. -/
theorem test_sleep_gate : seen (exec .sleep { ready (envOf [true] [] []) with cfg.nPollMax := ⟨0⟩ }) =
    some ([.busy true], done .refreshTimeoutError, 0x19, 0x05) := by decide
/-- V42d. -/
theorem test_exit : seen (exec .exit (displaying quiet)) = some (evFatal, done .ok, 0x04, 0x00) := by decide
/-- V42b. -/
theorem test_exit_twice : seen (exec .exit (exited quiet)) = some ([], done .alreadyExited, 0x04, 0x06) := by decide
/-- V49. -/
theorem test_getbuffer : exec (.getbuffer ⟨12, 2, stripe.px.map SrcPixel.bit⟩) (exited quiet) =
    .next { exited quiet with answer := some ⟨.ok, .plane stripe⟩ } := by rfl

/-! ### The vectors of errors in mid-operation -/

/-- V43: the fourth write fails. -/
theorem test_display_bus_failure :
    seen (exec (.display dot00 dot1B) (ready (envOf [] [true, true, true, false] []))) =
      some ([.busy false, .pstate .displaying] ++ evFrames30.take 7 ++ [.spiFail true [0xFF, 0xFF, 0xFF, 0xEF]] ++ evFatal,
        done .transportError, 0x44, 0x01) := by decide
/-- V44: the interrupt at the second sample of the final wait. -/
theorem test_display_interrupted :
    seen (exec (.display dot00 dot1B) (ready (envOf [false, true] [] [false, false, false, true]))) =
      some ([.busy false, .pstate .displaying] ++ evFrames30 ++ [.busy true, .delay 1] ++ evFatal,
        done .interrupted, 0x44, 0x08) := by decide
/-- V35: the second wait of `init` times out. -/
theorem test_init_timeout : seen (exec .init (fresh (envOf [false, true, true, true] [] []))) =
    some (.acquire :: evInit.take 11 ++ evTimeout ++ evFatal, done .initError, 0x44, 0x04) := by decide
/-- V7: the interrupt at the first delay. -/
theorem test_init_interrupted : seen (exec .init (fresh (envOf [] [] [true]))) =
    some ([.acquire, .gpio .rst false] ++ evFatal, done .interrupted, 0x44, 0x08) := by decide

/-! ### The port, the status registers, and an operation run position by position -/

/-- V33, V41: `SR4` with busy bit 0. -/
theorem test_sr4_ready : sr4 (ready quiet) = 0x15 := by decide
theorem test_sr4_data : sr4 { ready quiet with pinDc := true } = 0x17 := by decide
/-- R114: a layer code on the host port. -/
theorem test_layer_code_on_host_port :
    refusal (step { ready quiet with host := [.op [0x10, 0x01, 0x00]] }) = some .layerOpOnHostPort := by decide
/-- R325: a second operation while one runs. -/
theorem test_second_operation :
    refusal (step { ready quiet with upc := .running [], host := [.op [0x02]] }) = some .portBusy := by decide
/-- V41, one position a step: the begin, nine positions (the wait's start and its one sample, the frame's six steps, the
state change) and the end. -/
theorem test_sleep_by_positions :
    seen (core.run 11 { ready quiet with host := [.begin [0x05]] }) = seen (exec .sleep (ready quiet)) := by decide
/-- R301: block reset after two positions of `exit`; the lines cease to be driven, no result, the trace empty. -/
theorem test_reset_in_exit :
    core.run 4 { ready quiet with host := [.begin [0x06], .blockReset 2] } = .next (fresh quiet) := by rfl
/-- The fetch stand-in: the table word of `INIT` from reset runs `init()`. -/
theorem test_fetch_word : seen (step ((fresh quiet).withFetchWord 8 0x01)) = seen (exec .init (fresh quiet)) := by decide

end Sys2Proof.Tests
end

