-- ==== Sys2Proof/Tests/Witness.lean ====
section
/-!
SUPPORT. For every statement that has hypotheses, concrete states and operands that meet all of them together, clause by
clause, on the synthetic configuration `CFG_TEST` (`N_POLL_MAX = 3`, `FRAME_LEN = 4`).
-/

namespace Sys2Proof.Tests

open Sys2Proof.Machine

/-- A machine asleep. -/
def sleeping (e : Env) : State := { ready e with pstate := .sleeping, mode := .data, pinDc := true }

/-- A machine that has died of a bus failure. -/
def dead (e : Env) : State := { exited e with fatal := true, res := .transportError }

/-- A machine in the middle of `sleep`, at the frame's command byte. -/
def midway (e : Env) : State := { ready e with upc := .running (listSleep cfgTest).tail }

/-- The host's next action. -/
def hosted (a : HostAction) (s : State) : State := { s with host := [a] }

theorem next_of_seen {o : Host.Outcome State Fault Refusal} (h : (seen o).isSome = true) : ∃ t, o = .next t := by
  cases o with
  | next t => exact ⟨t, rfl⟩
  | fault r => cases r
  | refused r => simp [seen] at h

theorem answered_of_seen {o : Host.Outcome State Fault Refusal} {c : ResultCode} {v : Value}
    (h : (seen o).map (fun x => x.2.1) = some (some ⟨c, v⟩)) : ∃ t, o = .next t ∧ t.answer = some ⟨c, v⟩ := by
  cases o with
  | next t => exact ⟨t, rfl, by simpa [seen] using h⟩
  | fault r => cases r
  | refused r => simp [seen] at h

/-! ### The port and the encoding -/

theorem witness_BlockResetCutsAnOperationShort :
    ∃ l, (hosted (.blockReset 0) (midway quiet)).upc = .running l ∧
      (hosted (.blockReset 0) (midway quiet)).host = .blockReset 0 :: [] := ⟨_, rfl, rfl⟩

theorem witness_StepRunsTheDecodedOperation :
    ((ready quiet).upc = .idle ∧ (ready quiet).host = []) ∧
    ((hosted (.op [0x05]) (ready quiet)).upc = .idle ∧ decode .op [0x05] = .ok (.sleep, []) ∧
      isSurface .sleep = true) ∧
    (hosted (.harness .op [0x15]) (fresh quiet)).upc = .idle ∧ decode .op [0x15] = .ok (.acquire, []) := by decide

theorem witness_HostPortRefusesOtherCodes :
    (hosted (.op [0x41]) (ready quiet)).upc = .idle ∧ (∀ i, opCode i ≠ some 0x41) ∧
    decode .op [0x15] = .ok (.acquire, []) ∧ isSurface .acquire = false := by
  refine ⟨rfl, fun i => ?_, by decide, rfl⟩
  cases i <;> simp [opCode]

theorem witness_PortIsBusyWhileAnOperationRuns :
    ∃ l, (hosted (.op [0x02]) (midway quiet)).upc = .running l ∧ HostAction.op [0x02] ≠ .await ∧
      ∀ n, HostAction.op [0x02] ≠ .blockReset n := ⟨_, rfl, by decide, by simp⟩

theorem witness_DecodeUndoesEncode :
    (Instr.display white dot1B).wellFormed = true ∧ formatOf (.display white dot1B) ≠ .wireCmdFrame ∧
    formatOf (.display white dot1B) ≠ .wirePlaneWrite ∧ (Instr.wireCmdFrame ⟨0xA0, [0x01]⟩).wellFormed = true := by decide

theorem witness_EncodeUndoesDecode : decode .op [0x14, 0xAC, 0x02, 0xFF] = .ok (.delay 300, [0xFF]) := by decide

/-! ### Transport and framer -/

/-- The handle is held, and each branch of `writeBytes`. -/
theorem witness_WriteBytesIsOneTransaction :
    (held quiet).owned = true ∧ spiAt quiet 0 = true ∧ spiAt (envOf [] [false] []) 0 = false := by decide

theorem witness_ReadBusySamplesTheLine : (held quiet).owned = true := rfl

theorem witness_SetGpioWritesTheNamedLine : (held quiet).owned = true := rfl

theorem witness_DelayIsAWaitPoint :
    (held quiet).owned = true ∧ intrAt quiet 0 = false ∧ intrAt (envOf [] [] [true]) 0 = true := by decide

theorem witness_ResetPulsesTheResetLine :
    (held quiet).owned = true ∧ intrAt quiet 0 = false ∧ intrAt quiet 1 = false ∧
    intrAt (envOf [] [] [false, true]) 0 = false ∧ intrAt (envOf [] [] [false, true]) 1 = true := by decide

theorem witness_AcquireTakesTheHandle : (fresh quiet).owned = false := rfl

theorem witness_ReleaseGivesUpTheHandle : (held quiet).owned = true := rfl

theorem witness_TransportNeedsTheHandle : (fresh quiet).owned = false ∧ (held quiet).owned = true := by decide

theorem witness_SendCommandSetsTheLineFirst :
    (held quiet).owned = true ∧ spiAt quiet 0 = true ∧ spiAt (envOf [] [false] []) 0 = false := by decide

theorem witness_SendDataTogglesOncePerCommand :
    (held quiet).mode = .none ∧ (ready quiet).mode ≠ .none ∧
    ((ready quiet).owned = true ∧ (ready quiet).mode = .command ∧ spiAt (ready quiet).env 0 = true) ∧
    ((sleeping quiet).owned = true ∧ (sleeping quiet).mode = .data ∧ spiAt (sleeping quiet).env 0 = true) ∧
    ((ready (envOf [] [false] [])).owned = true ∧ spiAt (ready (envOf [] [false] [])).env 0 = false) ∧
    (sleeping (envOf [] [false] [])).owned = true ∧ spiAt (sleeping (envOf [] [false] [])).env 0 = false := by decide

theorem witness_FramesGoOutWhole :
    (held quiet).owned = true ∧ WritesSucceedFor (writesOf ⟨0xA1, []⟩) (held quiet) ∧
    WritesSucceedFor (writesOf ⟨0xA0, [0x01, 0x02]⟩) (held quiet) := by decide

/-- Both commands, a plane of the panel's dimensions, one byte too few and too many, another command, and a frame of the
right length whose padding bits are 0. -/
theorem witness_PlaneWritesCarryAWholeFrame :
    (held quiet).owned = true ∧ (0xB0 = cfgTest.cmdBlack ∨ 0xB0 = cfgTest.cmdRed) ∧
    (0xB1 = cfgTest.cmdBlack ∨ 0xB1 = cfgTest.cmdRed) ∧
    (∃ p : Plane, p.wellFormed = true ∧ p.w = cfgTest.width.val ∧ p.h = cfgTest.height.val ∧
      packRaw p = [0xFF, 0xFF, 0xFF, 0xFF]) ∧
    WritesSucceedFor 2 (held quiet) ∧ ¬ (0xB2 = cfgTest.cmdBlack ∨ 0xB2 = cfgTest.cmdRed) ∧
    ∀ f ∈ [[0xFF, 0xFF, 0xFF], [0xFF, 0xFF, 0xFF, 0xFF, 0xFF], [0x00, 0x00, 0x00, 0x00]], ¬ ∃ p : Plane,
      p.wellFormed = true ∧ p.w = cfgTest.width.val ∧ p.h = cfgTest.height.val ∧ packRaw p = f := by
  refine ⟨rfl, by decide, by decide, ⟨white, by decide⟩, by decide, by decide, fun f hf => ?_⟩
  rw [← isPackedFrame_iff]
  revert f
  decide

/-! ### Packer -/

theorem witness_PackedFramesHaveTheirLength : pack cfgTest white = some [0xFF, 0xFF, 0xFF, 0xFF] := by decide

/-- The last byte of the last scanline, half of it padding. -/
theorem witness_PackedBytesAreWeightedSums : dot1B.wellFormed = true ∧ 1 < dot1B.h ∧ 1 < (dot1B.w + 7) / 8 := by decide

theorem witness_PackingLosesNothing :
    dot1B.wellFormed = true ∧ 1 < dot1B.h ∧ 11 < dot1B.w ∧ white.wellFormed = true ∧
    packRaw white = packRaw (allInactive cfgTest) := by decide

/-- A uniform plane of each colour, with padding and without. -/
theorem witness_UniformPlanesPackUniformly :
    (white.wellFormed = true ∧ ∀ b ∈ white.px, b = true) ∧
    (blackAll.wellFormed = true ∧ (∀ b ∈ blackAll.px, b = false) ∧ 0 < blackAll.w ∧ blackAll.w % 8 ≠ 0) ∧
    (planeOf 8 1 [0, 0, 0, 0, 0, 0, 0, 0]).wellFormed = true ∧ (planeOf 8 1 [0, 0, 0, 0, 0, 0, 0, 0]).w % 8 = 0 := by
  decide

theorem witness_PackChecksTheDimensions :
    white.w = cfgTest.width.val ∧ white.h = cfgTest.height.val ∧ wide.w ≠ cfgTest.width.val ∧
    wide.h = cfgTest.height.val := by decide

/-! ### Sequencer -/

/-- Ready at the first sample, at the last one allowed, and never. -/
theorem witness_WaitNotBusyPollsTheLine :
    (held quiet).owned = true ∧ cfgTest.nPollMax.val = 3 ∧
    (BusyFor 0 0 (held quiet) ∧ busyAt quiet 0 ≠ cfgTest.busyActive ∧ NoInterruptFor 1 (held quiet)) ∧
    (BusyFor 0 2 (held (envOf [true, true] [] [])) ∧ busyAt (envOf [true, true] [] []) 2 ≠ cfgTest.busyActive ∧
      NoInterruptFor 5 (held (envOf [true, true] [] []))) ∧
    BusyFor 0 3 (held (envOf [true, true, true] [] [])) ∧
    NoInterruptFor (2 * 3 - 1) (held (envOf [true, true, true] [] [])) := by decide

/-- The interrupt at the first sample, at the last sample, and at the last delay. -/
theorem witness_WaitNotBusyIsInterruptible :
    (held quiet).owned = true ∧ cfgTest.nPollMax.val = 3 ∧
    (BusyFor 0 0 (held (envOf [] [] [true])) ∧ intrAt (envOf [] [] [true]) 0 = true) ∧
    (BusyFor 0 2 (held (envOf [true, true] [] [false, false, false, false, true])) ∧
      NoInterruptFor 4 (held (envOf [true, true] [] [false, false, false, false, true])) ∧
      intrAt (envOf [true, true] [] [false, false, false, false, true]) 4 = true) ∧
    BusyFor 0 2 (held (envOf [true, true] [] [false, false, false, true])) ∧
    NoInterruptFor 3 (held (envOf [true, true] [] [false, false, false, true])) ∧
    intrAt (envOf [true, true] [] [false, false, false, true]) 3 = true := by decide

theorem witness_InitEndsReady :
    QuietFor (4 + writesOfAll cfgTest.initSeq) (fresh quiet) ∧ (fresh quiet).pstate = .uninitialized ∧
    (fresh quiet).owned = false ∧ QuietFor (4 + writesOfAll cfgTest.initSeq) (displaying quiet) ∧
    (displaying quiet).pstate = .displaying ∧ (displaying quiet).owned = true ∧
    (displaying quiet).pinCs = !cfgTest.csActive := by decide

theorem witness_DisplayEndsReady :
    ((ready quiet).pstate = .ready ∧ (ready quiet).owned = true ∧ QuietFor 6 (ready quiet)) ∧
    ((displaying quiet).pstate = .displaying ∧ (displaying quiet).owned = true ∧ QuietFor 6 (displaying quiet)) ∧
    dot00.w = cfgTest.width.val ∧ dot00.h = cfgTest.height.val ∧ dot1B.w = cfgTest.width.val ∧
    dot1B.h = cfgTest.height.val := by decide

theorem witness_DisplayBlackEndsReady :
    ((ready quiet).pstate = .ready ∧ (ready quiet).owned = true ∧ QuietFor 4 (ready quiet)) ∧
    ((displaying quiet).pstate = .displaying ∧ (displaying quiet).owned = true ∧ QuietFor 4 (displaying quiet)) ∧
    blackAll.w = cfgTest.width.val ∧ blackAll.h = cfgTest.height.val := by decide

theorem witness_ClearDisplaysInactivePlanes :
    (∃ t, exec .clear (ready quiet) = .next t) ∧
    ((ready quiet).pstate = .ready ∧ (ready quiet).owned = true ∧ QuietFor 6 (ready quiet)) ∧
    (displaying quiet).pstate = .displaying ∧ (displaying quiet).owned = true ∧ QuietFor 6 (displaying quiet) :=
  ⟨next_of_seen (by decide), by decide, by decide⟩

theorem witness_SleepEndsSleeping :
    (ready quiet).pstate = .ready ∧ (ready quiet).owned = true ∧ QuietFor 2 (ready quiet) := by decide

theorem witness_ExitFromEveryState :
    (exited quiet).pstate = .exited ∧ (fresh quiet).pstate = .uninitialized ∧
    ((ready quiet).pstate = .ready ∧ (ready quiet).owned = true) ∧
    ((displaying quiet).pstate = .displaying ∧ (displaying quiet).owned = true) ∧
    (sleeping quiet).pstate = .sleeping ∧ (sleeping quiet).owned = true := by decide

theorem between_fresh : Between (fresh quiet) := by constructor <;> decide
theorem between_ready : Between (ready quiet) := by constructor <;> decide
theorem between_displaying : Between (displaying quiet) := by constructor <;> decide
theorem between_sleeping : Between (sleeping quiet) := by constructor <;> decide

/-- Every row of the table, and the register set as it is between operations in each state with a legal cell. -/
theorem witness_OperationsOutOfStateFailFast :
    ((ready quiet).pstate = .ready ∧ (sleeping quiet).pstate = .sleeping ∧ (exited quiet).pstate = .exited ∧
      (fresh quiet).pstate = .uninitialized ∧ (displaying quiet).pstate ≠ .ready) ∧
    Between (fresh quiet) ∧ Between (ready quiet) ∧ Between (displaying quiet) ∧ Between (sleeping quiet) :=
  ⟨by decide, between_fresh, between_ready, between_displaying, between_sleeping⟩

theorem witness_WrongPlanesAreRejectedFirst :
    (ready quiet).pstate = .ready ∧ (displaying quiet).pstate = .displaying ∧ fits cfgTest wide = false ∧
    fits cfgTest (planeOf 12 1 []) = false := by decide

theorem witness_GateTimeoutSendsNothing :
    (ready (envOf [true, true, true] [] [])).owned = true ∧
    (ready (envOf [true, true, true] [] [])).pstate = .ready ∧
    (displaying (envOf [true, true, true] [] [])).pstate = .displaying ∧ fits cfgTest dot00 = true ∧
    fits cfgTest dot1B = true ∧ BusyFor 0 cfgTest.nPollMax.val (ready (envOf [true, true, true] [] [])) ∧
    NoInterruptFor (2 * cfgTest.nPollMax.val - 1) (ready (envOf [true, true, true] [] [])) := by decide

/-- Both waits, from both states. -/
theorem witness_InitTimeoutsAreFatal :
    ((fresh quiet).pstate = .uninitialized ∧ (fresh quiet).owned = false) ∧
    ((displaying quiet).pstate = .displaying ∧ (displaying quiet).owned = true) ∧
    (∀ s ∈ [fresh (envOf [true, true, true] [] []), displaying (envOf [true, true, true] [] [])],
      BusyFor 0 cfgTest.nPollMax.val s ∧ NoInterruptFor (2 * cfgTest.nPollMax.val + 1) s) ∧
    ∀ s ∈ [fresh (envOf [false, true, true, true] [] []), displaying (envOf [false, true, true, true] [] [])],
      busyAt s.env 0 ≠ cfgTest.busyActive ∧ BusyFor 1 cfgTest.nPollMax.val s ∧
      WritesSucceedFor (writesOfAll cfgTest.initSeq) s ∧ NoInterruptFor (2 * cfgTest.nPollMax.val + 2) s := by decide

theorem witness_RefreshTimeoutLeavesDisplaying :
    (ready (envOf [false, true, true, true] [] [])).pstate = .ready ∧
    (displaying (envOf [false, true, true, true] [] [])).pstate = .displaying ∧
    (ready (envOf [false, true, true, true] [] [])).owned = true ∧ fits cfgTest dot00 = true ∧
    fits cfgTest dot1B = true ∧ busyAt (envOf [false, true, true, true] [] []) 0 ≠ cfgTest.busyActive ∧
    BusyFor 1 cfgTest.nPollMax.val (ready (envOf [false, true, true, true] [] [])) ∧
    WritesSucceedFor 6 (ready (envOf [false, true, true, true] [] [])) ∧
    NoInterruptFor (2 * cfgTest.nPollMax.val) (ready (envOf [false, true, true, true] [] [])) := by decide

/-! ### Errors, rules of the whole machine, invariants -/

/-- Each fatal code. -/
theorem witness_FatalCodesTakeTheFatalPath :
    (∃ t, exec (.writeBytes [0xA0]) (held (envOf [] [false] [])) = .next t ∧
      t.answer = some ⟨.transportError, .none⟩) ∧
    (∃ t, exec .init (fresh (envOf [true, true, true] [] [])) = .next t ∧ t.answer = some ⟨.initError, .none⟩) ∧
    ∃ t, exec (.delay 1) (held (envOf [] [] [true])) = .next t ∧ t.answer = some ⟨.interrupted, .none⟩ :=
  ⟨answered_of_seen (by decide), answered_of_seen (by decide), answered_of_seen (by decide)⟩

theorem witness_NoSurfaceProtocolError :
    isSurface .init = true ∧ ∃ t, exec .init (fresh quiet) = .next t ∧ t.answer = some ⟨.ok, .none⟩ :=
  ⟨rfl, answered_of_seen (by decide)⟩

/-- A step of a dead block, a step in which a block dies, and a reset that strikes. -/
theorem witness_FatalIsSticky :
    (∃ t, step (hosted (.op [0x06]) (dead quiet)) = .next t) ∧ (dead quiet).fatal = true ∧
    (∃ t, step (hosted (.op [0x05]) (ready (envOf [] [false] []))) = .next t ∧
      t.answer = some ⟨.transportError, .none⟩) ∧ (ready quiet).fatal = false ∧
    ResetStrikes (hosted (.blockReset 2) (dead quiet)) :=
  ⟨next_of_seen (by decide), rfl, answered_of_seen (by decide), rfl, 2, [], rfl, .inl rfl⟩

theorem witness_OnlyBlockResetLeavesExited :
    (exited quiet).upc = .idle ∧ (exited quiet).pstate = .exited ∧
    (∃ t, step (hosted (.op [0x01]) (exited quiet)) = .next t) ∧
    ∃ t, step (hosted (.blockReset 0) (exited quiet)) = .next t :=
  ⟨rfl, rfl, next_of_seen (by decide), next_of_seen (by decide)⟩

theorem witness_StatusRegistersShowTheState : ∃ t, step (hosted (.op [0x05]) (ready quiet)) = .next t :=
  next_of_seen (by decide)

theorem witness_StatusReadsAnswerTheRegisters :
    (ready quiet).upc = .idle ∧ ∀ r, (hosted (.readStatus r) (ready quiet)).host = .readStatus r :: [] :=
  ⟨rfl, fun _ => rfl⟩

/-- With red content written before. -/
theorem witness_DisplayBlackLeavesRedAlone :
    (∃ t, exec (.displayBlack blackAll) { ready quiet with trace := evFrames30 } = .next t) ∧
    redContent cfgTest evFrames30 = some [0xFF, 0xFF, 0xFF, 0xEF] ∧ cfgTest.cmdBlack ≠ cfgTest.cmdRed ∧
    cfgTest.refresh.op ≠ cfgTest.cmdRed := ⟨next_of_seen (by decide), by decide, by decide, by decide⟩

theorem witness_OperationsAreBounded :
    (∃ t, exec .waitNotBusy (held (envOf [true, true, true] [] [])) = .next t ∧ t.answer = some ⟨.ok, .timeout⟩) ∧
    (∃ t, exec .init (fresh (envOf [false, true, true, true] [] [])) = .next t) ∧
    (∀ i ∈ [Instr.clear, Instr.display dot00 dot1B, Instr.displayBlack dot00, Instr.sleep, Instr.getbuffer ⟨0, 0, []⟩],
      ∃ t, exec i (ready quiet) = .next t) ∧
    ∃ t, exec .exit (ready quiet) = .next t ∧ t.answer = some ⟨.ok, .none⟩ := by
  refine ⟨answered_of_seen (by decide), next_of_seen (by decide), fun i hi => next_of_seen ?_,
    answered_of_seen (by decide)⟩
  revert i
  decide

theorem witness_PollCountStaysInRange :
    (∃ t, exec .waitNotBusy (held (envOf [true, true, true] [] [])) = .next t) ∧
    (held (envOf [true, true, true] [] [])).k ≤ cfgTest.nPollMax.val := ⟨next_of_seen (by decide), by decide⟩

/-- A step of an operation position by position, one while a reset is counted down, and a reset that strikes in
mid-operation. -/
theorem witness_TraceOnlyGrows :
    (∃ t, step (midway quiet) = .next t) ∧ (∃ t, step (hosted (.blockReset 1) (midway quiet)) = .next t) ∧
    (∃ t, step (hosted (.blockReset 0) (midway quiet)) = .next t) ∧ ResetStrikes (hosted (.blockReset 0) (midway quiet)) :=
  ⟨next_of_seen (by decide), next_of_seen (by decide), next_of_seen (by decide), 0, [], rfl, .inr rfl⟩

theorem witness_NothingWritesTheConfiguration : ∃ t, step (hosted (.op [0x01]) (fresh quiet)) = .next t :=
  next_of_seen (by decide)

theorem witness_ResultRegisterHoldsTheLastCode :
    isSurface .sleep = true ∧ (∃ t, exec .sleep (fresh quiet) = .next t ∧ t.answer = some ⟨.stateError, .none⟩) ∧
    (∀ image, Instr.sleep ≠ .getbuffer image) ∧ isSurface (.getbuffer ⟨0, 0, []⟩) = true ∧
    ∃ t, exec (.getbuffer ⟨0, 0, []⟩) (dead quiet) = .next t ∧ t.answer = some ⟨.ok, .plane ⟨0, 0, []⟩⟩ :=
  ⟨rfl, answered_of_seen (by decide), by simp, rfl, answered_of_seen (by decide)⟩

theorem witness_OnlyLegalTransitions : isSurface .sleep = true ∧ ∃ t, exec .sleep (ready quiet) = .next t :=
  ⟨rfl, next_of_seen (by decide)⟩

theorem witness_RefreshAndSleepFrame :
    ∃ t, exec (.display dot00 dot1B) (ready quiet) = .next t ∧ t.answer = some ⟨.ok, .none⟩ :=
  answered_of_seen (by decide)

theorem witness_RegisterInvariantsAreKept :
    Between (hosted (.op [0x05]) (ready quiet)) ∧ HostDriven (hosted (.op [0x05]) (ready quiet)) ∧
    ∃ t, step (hosted (.op [0x05]) (ready quiet)) = .next t :=
  ⟨by constructor <;> decide, by constructor <;> decide, next_of_seen (by decide)⟩

theorem witness_PinInvariantsAlwaysHold : Always (midway quiet) ∧ ∃ t, step (midway quiet) = .next t :=
  ⟨by constructor <;> decide, next_of_seen (by decide)⟩

theorem witness_PositionsReachTheWholeStep :
    (ready quiet).upc = .idle ∧ ∃ t, step { ready quiet with host := [.op [0x05]] } = .next t :=
  ⟨rfl, next_of_seen (by decide)⟩

end Sys2Proof.Tests
end

namespace Sys2Proof.Machine

/-! ### 10_state.md: the register set at reset, its read-only views, and what a step keeps of it -/

/-- How an operation can have ended, well or by an error: from a state its listing grew out of `s`, either `RES` and the
port's answer alone are written, or the fatal path (60_exceptions.md R268) is taken. -/
inductive Finished (s : State) : State → Prop where
  | answered (u : State) (r : ResultCode) (a : Option Answer) (g : Grown s u) : Finished s { u with res := r, answer := a }
  | died (u : State) (e : ResultCode) (he : e = .transportError ∨ e = .interrupted ∨ e = .initError) (g : Grown s u) :
      Finished s { fatal e u with answer := some ⟨e, .none⟩ }

theorem finished_endRaised {s u : State} (e : ResultCode) (g : Grown s u) : Finished s (endRaised e u) := by
  by_cases he : e = .transportError ∨ e = .interrupted ∨ e = .initError
  · rw [fatal_end he]
    exact .died u e he g
  · have quiet : endRaised e u = { u with res := (endRaised e u).res, answer := some ⟨e, .none⟩ } := by
      cases e with
      | transportError | interrupted | initError => simp at he
      | _ => rfl
    rw [quiet]
    exact .answered u _ _ g

theorem finished_endSurface {s : State} {R : Run} (g : Grown s R.state) : Finished s (endSurface R) := by
  cases R with
  | ok u => exact .answered u .ok (some ⟨.ok, .none⟩) g
  | raised e u => exact finished_endRaised e g

theorem finished_endLayer {s : State} {R : Run} (v : Value) (g : Grown s R.state) : Finished s (endLayer v R) := by
  cases R with
  | ok u => exact .answered u u.res (some ⟨.ok, v⟩) g
  | raised e u => exact finished_endRaised e g

theorem finished_runPlan {p : Plan} {s t : State} (h : runPlan p s = .next t) : Finished s t := by
  cases p with
  | fail e =>
    obtain rfl : endRaised e s = t := by simpa [runPlan] using h
    exact finished_endRaised e (.refl s)
  | refuse r => simp [runPlan] at h
  | run listing =>
    obtain rfl : endSurface (runList listing s) = t := by simpa [runPlan] using h
    exact finished_endSurface (grown_runList listing s)

theorem finished_layerEnd {s t : State} (h : LayerEnd s t) : Finished s t := by
  cases h with
  | run v R hR => exact finished_endLayer v hR.grown
  | rejected => exact .answered s s.res (some ⟨.dimensionError, .none⟩) (.refl s)

/-- The end of any operation, of the host port or of a layer. -/
theorem exec_finished {i : Instr} {s t : State} (h : exec i s = .next t) : Finished s t := by
  cases hi : isSurface i with
  | false => exact finished_layerEnd (layer_end hi h)
  | true =>
    cases i with
    | init => exact finished_runPlan h
    | clear => exact finished_runPlan h
    | display black red => exact finished_runPlan (p := planDisplay black red s) h
    | displayBlack black => exact finished_runPlan (p := planDisplayBlack black s) h
    | sleep => exact finished_runPlan h
    | exit => exact finished_runPlan h
    | getbuffer image =>
      obtain rfl : present .ok (.plane (monoPlane image)) s = t := by simpa [exec, execGetbuffer] using h
      exact .answered s s.res (some ⟨.ok, .plane (monoPlane image)⟩) (.refl s)
    | _ => simp [isSurface] at hi

/-! ### `CFG` (00_scope.md R9) -/

theorem Finished.cfg {s t : State} (h : Finished s t) : t.cfg = s.cfg := by
  cases h with
  | answered u r a g => exact g.cfg
  | died u e he g => rw [fatal_eq]; exact g.cfg

theorem step_cfg {s t : State} (h : step s = .next t) : t.cfg = s.cfg := by
  cases stepped h with
  | exec i a later _ _ _ _ he => exact (exec_finished he).cfg
  | status r later _ _ => rw [readStatus_eq]
  | advance l host _ _ ha _ => exact (moved_advance ha).cfg
  | silent | began | await | reset => rfl

/-! ### `FATAL` (R40) -/

/-- R40 over one step without a block reset: a set `FATAL` stays, and the fatal path alone sets it. -/
structure FatalKept (s t : State) : Prop where
  sticky : s.fatal = true → t.fatal = true
  set_by_fatal_path : s.fatal = false → t.fatal = true →
    t.pstate = .exited ∧ t.owned = false ∧ (t.res = .transportError ∨ t.res = .initError ∨ t.res = .interrupted)

theorem fatalKept_of_eq {s t : State} (h : t.fatal = s.fatal) : FatalKept s t :=
  ⟨h.trans, fun hs ht => by simp [h, hs] at ht⟩

theorem Finished.fatalKept {s t : State} (h : Finished s t) : FatalKept s t := by
  cases h with
  | answered u r a g => exact fatalKept_of_eq g.fatal
  | died u e he g =>
    rw [fatal_eq]
    exact ⟨fun _ => rfl, fun _ _ => ⟨rfl, rfl, by tauto⟩⟩

theorem Moved.fatalKept {s t : State} (h : Moved s t) : FatalKept s t :=
  ⟨h.sticky, fun hs ht => (h.fatal hs ht).2⟩

theorem step_fatalKept_or_reset {s t : State} (h : step s = .next t) :
    FatalKept s t ∨ (ResetStrikes s ∧ t.fatal = false) := by
  cases stepped h with
  | exec i a later _ _ _ _ he =>
    obtain ⟨sticky, set⟩ := (exec_finished he).fatalKept
    exact .inl ⟨sticky, set⟩
  | status r later _ _ => rw [readStatus_eq]; exact .inl (fatalKept_of_eq rfl)
  | advance l host _ _ ha _ =>
    obtain ⟨sticky, set⟩ := (moved_advance ha).fatalKept
    exact .inl ⟨sticky, set⟩
  | silent | began | await => exact .inl (fatalKept_of_eq rfl)
  | reset later strikes _ => exact .inr ⟨strikes, rfl⟩

/-- Settles O44: of the steps that are no block reset each keeps `FATAL` or takes the fatal path. -/
theorem fatalIsSticky : Obligations.FatalIsSticky := by
  refine ⟨rfl, fun _ => rfl, fun s t h => ?_⟩
  rcases step_fatalKept_or_reset h with ⟨sticky, set⟩ | ⟨strikes, cleared⟩
  · exact ⟨fun hs => .inl (sticky hs), set⟩
  · exact ⟨fun _ => .inr strikes, fun _ ht => by simp [cleared] at ht⟩

/-! ### `RES` (R39) -/

/-- `RES` is the code the port presents. -/
def ResIsAnswered (t : State) : Prop := ∃ v, t.answer = some ⟨t.res, v⟩

/-- Only `ProtocolError`, which no surface operation raises, leaves `RES` behind the port's code. -/
theorem resIsAnswered_endRaised {e : ResultCode} (hok : e ≠ .ok) (hproto : e ≠ .protocolError) (s : State) :
    ResIsAnswered (endRaised e s) := by
  cases e with
  | ok => exact absurd rfl hok
  | protocolError => exact absurd rfl hproto
  | _ => exact ⟨.none, rfl⟩

theorem resIsAnswered_endSurfaceOk (s : State) : ResIsAnswered (endSurfaceOk s) := ⟨.none, rfl⟩

theorem InitEnded.resIsAnswered {n : Nat} {s : State} {R : Run} (h : InitEnded n s R) : ResIsAnswered (endSurface R) := by
  cases h with
  | ok t => exact resIsAnswered_endSurfaceOk t
  | died e t he => rcases he with rfl | rfl | rfl <;> exact resIsAnswered_endRaised (by decide) (by decide) t

theorem Ended.resIsAnswered {ops : List Byte} {n : Nat} {during : List PState} {final : PState} {s : State} {R : Run}
    (h : Ended ops n .refreshTimeoutError during final s R) : ResIsAnswered (endSurface R) := by
  cases h with
  | ok t => exact resIsAnswered_endSurfaceOk t
  | timeout t => exact resIsAnswered_endRaised (by decide) (by decide) t
  | died e t he => rcases he with rfl | rfl <;> exact resIsAnswered_endRaised (by decide) (by decide) t

theorem Surfaced.resIsAnswered {i : Instr} {s t : State} (h : Surfaced i s t) (hg : ∀ image, i ≠ .getbuffer image) :
    ResIsAnswered t := by
  cases h with
  | failed e => exact ⟨.none, rfl⟩
  | converted image hi => exact absurd hi (hg image)
  | init R _ _ hr => exact hr.resIsAnswered
  | display R _ _ _ hr => exact hr.resIsAnswered
  | displayBlack R _ _ _ hr => exact hr.resIsAnswered
  | sleep R _ _ _ hr => exact hr.resIsAnswered
  | exit => exact resIsAnswered_endSurfaceOk _

theorem getbuffer_res {image : Image} {s t : State} (h : exec (.getbuffer image) s = .next t) : t.res = s.res := by
  obtain rfl : present .ok (.plane (monoPlane image)) s = t := by simpa [exec, execGetbuffer] using h
  rfl

/-- Settles O54, from the ends a surface operation can have. -/
theorem resultRegisterHoldsTheLastCode : Obligations.ResultRegisterHoldsTheLastCode := by
  refine ⟨rfl, fun i s t a hi h ha => ⟨fun hg => ?_, ?_⟩⟩
  · obtain ⟨v, hv⟩ := (surfaced hi h).resIsAnswered hg
    obtain rfl : ⟨t.res, v⟩ = a := by simpa [hv] using ha
    rfl
  · rintro image rfl
    exact getbuffer_res h

/-! ### The values at reset (R56) -/

/-- Settles O1: each of the three states is the reset state of some configuration, its environment and host apart. -/
theorem resetLeavesTheRegisterValues : Obligations.ResetLeavesTheRegisterValues := by
  refine fun s => ⟨fun t ht => ?_, rfl, rfl⟩
  simp only [List.mem_cons, List.not_mem_nil, or_false] at ht
  rcases ht with rfl | rfl | rfl <;> exact ⟨rfl, rfl, rfl, rfl, rfl, rfl, rfl, rfl, rfl, rfl, rfl, rfl⟩

/-! ### The status registers (R47 to R51) -/

theorem sr0_pstate (s : State) : (sr0 s).extractLsb' 0 3 = pstateCode s.pstate := BitVec.extractLsb'_append_eq_right

theorem sr0_owned (s : State) : (sr0 s).getLsbD 3 = s.owned := by
  unfold sr0
  repeat rw [BitVec.getLsbD_append]
  simp

theorem sr0_mode (s : State) : (sr0 s).extractLsb' 4 2 = modeCode s.mode := by
  unfold sr0
  rw [BitVec.extractLsb'_append_eq_of_le (by decide), BitVec.extractLsb'_append_eq_of_le (by decide)]
  exact BitVec.extractLsb'_append_eq_right

theorem sr0_fatal (s : State) : (sr0 s).getLsbD 6 = s.fatal := by
  unfold sr0
  repeat rw [BitVec.getLsbD_append]
  simp

theorem sr0_bit7 (s : State) : (sr0 s).getLsbD 7 = false := by
  unfold sr0
  repeat rw [BitVec.getLsbD_append]
  simp

theorem sr1_res (s : State) : (sr1 s).extractLsb' 0 4 = resultNumber s.res := BitVec.extractLsb'_append_eq_right

theorem sr1_high (s : State) : (sr1 s).extractLsb' 4 4 = 0#4 := BitVec.extractLsb'_append_eq_left

/-- `SR2`, `SR3` and `SR5` read `CFG` alone. -/
theorem constants_of_cfg {s t : State} (h : t.cfg = s.cfg) : sr2 t = sr2 s ∧ sr3 t = sr3 s ∧ sr5 t = sr5 s := by
  simp only [sr2, sr3, sr5, h, and_self]

/-- Settles O47: `SR0` and `SR1` field by field, and the constants because no step writes `CFG`. -/
theorem statusRegistersShowTheState : Obligations.StatusRegistersShowTheState := by
  refine ⟨by decide, by decide, by decide, rfl, rfl, fun s => ⟨?sr0, ?sr1, ⟨rfl, rfl, rfl⟩, ?reset, ?step⟩⟩
  case sr0 => exact ⟨sr0_pstate s, sr0_owned s, sr0_mode s, sr0_fatal s, sr0_bit7 s⟩
  case sr1 => exact ⟨sr1_res s, sr1_high s⟩
  case reset => exact constants_of_cfg rfl
  case step => exact fun t h => constants_of_cfg (step_cfg h)

end Sys2Proof.Machine

namespace Sys2Proof.Machine

/-! ### Packed bytes (R107) -/

/-- The sum of R107 over the cells themselves, of any plane. -/
theorem packedByteAt_toNat (p : Plane) (r j : Nat) :
    (packedByteAt p r j).toNat = ((List.range 8).map fun k => (cellAt p r (8 * j + k)).toNat * 2 ^ (7 - k)).sum := by
  rw [packedByteAt, cellsByte_toNat]
  simp [List.range_succ, Nat.add_assoc]

/-- Settles O22: the byte at that place of the frame is `packedByteAt`, and its cells are the cells of R107. -/
theorem packedBytesAreWeightedSums : Obligations.PackedBytesAreWeightedSums := by
  intro p r j hw hr hj
  refine ⟨packedByteAt p r j, packRaw_get p r j hr hj, ?_⟩
  simp only [packedByteAt_toNat, cellAt_wf p r _ hw hr]

end Sys2Proof.Machine

namespace Sys2Proof.Machine

/-! ### 40_bus_transport.md: the transport's operations, called with the handle held -/

/-- A layer operation that a fatal code ended (60_exceptions.md R268). -/
theorem endLayer_fatal {e : ResultCode} (v : Value) (he : e = .transportError ∨ e = .interrupted ∨ e = .initError)
    (t : State) : endLayer v (.raised e t) = { fatal e t with answer := some ⟨e, .none⟩ } := fatal_end he t

theorem exec_writeBytes_held {s : State} (h : s.owned = true) (data : List Byte) :
    exec (.writeBytes data) s = .next (endLayer .none (writeBytes data s)) := onBus_held h _

theorem exec_readBusy_held {s : State} (h : s.owned = true) :
    exec .readBusy s = .next (present .ok (.bool (busyNow s)) (readBusyLine s)) := onBus_held h _

theorem exec_setGpio_held {s : State} (h : s.owned = true) (line : GpioLine) (level : Level) :
    exec (.setGpio line level) s = .next (present .ok .none (setGpio line level s)) := onBus_held h _

theorem exec_delay_held {s : State} (h : s.owned = true) (ticks : Nat) :
    exec (.delay ticks) s = .next (endLayer .none (delay ticks s)) := onBus_held h _

theorem exec_reset_held {s : State} (h : s.owned = true) :
    exec .reset s = .next (endLayer .none (runList (listReset s.cfg) s)) := onBus_held h _

theorem exec_release_held {s : State} (h : s.owned = true) :
    exec .release s = .next (present .ok .none (release s)) := onBus_held h _

theorem exec_acquire_free {s : State} (h : s.owned = false) :
    exec .acquire s = .next (present .ok .none (acquire s)) := by
  simp [exec, execAcquire, h, endLayer]

/-- Settles O9: the empty sequence, a write that succeeds, a write that fails. -/
theorem writeBytesIsOneTransaction : Obligations.WriteBytesIsOneTransaction := by
  intro s data hs
  rw [exec_writeBytes_held hs]
  by_cases hd : data = []
  · rw [if_pos hd, hd, writeBytes_nil]
    rfl
  · rw [if_neg hd]
    cases hw : spiAt s.env 0 with
    | true => rw [writeBytes_ok hd hw]; rfl
    | false => rw [writeBytes_fails hd hw, endLayer_fatal _ (.inl rfl)]; rfl

/-- Settles O10: the sample is recorded and is the answer. -/
theorem readBusySamplesTheLine : Obligations.ReadBusySamplesTheLine :=
  fun _ hs => exec_readBusy_held hs

/-- Settles O11, one line after the other. -/
theorem setGpioWritesTheNamedLine : Obligations.SetGpioWritesTheNamedLine :=
  fun _ level hs => ⟨exec_setGpio_held hs .rst level, exec_setGpio_held hs .dc level⟩

/-- Settles O12: the delay interrupted, the delay performed. -/
theorem delayIsAWaitPoint : Obligations.DelayIsAWaitPoint := by
  intro s ticks hs
  rw [exec_delay_held hs]
  cases hi : intrAt s.env 0 with
  | true => rw [delay_interrupted hi, endLayer_fatal _ (.inr (.inl rfl))]; rfl
  | false => rw [delay_ok hi]; rfl

/-! #### The reset pulse (R136) -/

theorem runList_delay_ok {ticks : Nat} {ms : List Micro} {s : State} (h : intrAt s.env 0 = false) :
    runList (.delay ticks :: ms) s = runList ms (afterDelay ticks s) := runList_cons_ok (m := .delay ticks) (delay_ok h)

theorem runList_delay_interrupted {ticks : Nat} {ms : List Micro} {s : State} (h : intrAt s.env 0 = true) :
    runList (.delay ticks :: ms) s = .raised .interrupted (drawIntr s) :=
  runList_cons_raised (m := .delay ticks) (delay_interrupted h)

/-- The pulse cut short at its first delay: the line stays asserted. -/
theorem runList_reset_interrupted_first {s : State} (h : intrAt s.env 0 = true) :
    runList (listReset s.cfg) s = .raised .interrupted { s with
      pinRst := s.cfg.rstActive, trace := s.trace ++ (resetEvents s.cfg).take 1, env := advanceEnv s.env 0 0 1 } := by
  rw [listReset, runList_cons_ok rfl, runList_delay_interrupted (by simpa using h)]
  rfl

/-- The pulse cut short at its second delay: the line is released, `MODE` not yet written. -/
theorem runList_reset_interrupted_second {s : State} (h0 : intrAt s.env 0 = false) (h1 : intrAt s.env 1 = true) :
    runList (listReset s.cfg) s = .raised .interrupted { s with
      pinRst := !s.cfg.rstActive, trace := s.trace ++ (resetEvents s.cfg).take 3, env := advanceEnv s.env 0 0 2 } := by
  rw [listReset, runList_cons_ok rfl, runList_delay_ok (by simpa using h0), runList_cons_ok rfl,
    runList_delay_interrupted (by simpa [afterDelay] using h1)]
  simp [drawIntr, setGpio, emit, afterDelay, resetEvents]

theorem noInterruptFor_two {s : State} (h0 : intrAt s.env 0 = false) (h1 : intrAt s.env 1 = false) :
    NoInterruptFor 2 s
  | 0, _ => h0
  | 1, _ => h1

/-- Settles O13: the pulse cut short at the first delay, at the second, or performed. -/
theorem resetPulsesTheResetLine : Obligations.ResetPulsesTheResetLine := by
  intro s hs
  rw [exec_reset_held hs]
  cases h0 : intrAt s.env 0 with
  | true => rw [runList_reset_interrupted_first h0, endLayer_fatal _ (.inr (.inl rfl))]; rfl
  | false =>
    cases h1 : intrAt s.env 1 with
    | true => rw [runList_reset_interrupted_second h0 h1, endLayer_fatal _ (.inr (.inl rfl))]; rfl
    | false => rw [runList_reset_ok (noInterruptFor_two h0 h1)]; rfl

/-! #### The handle (R137, R138) -/

/-- Settles O14: the operation's own update and its one event. -/
theorem acquireTakesTheHandle : Obligations.AcquireTakesTheHandle :=
  fun _ hs => exec_acquire_free hs

/-- Settles O15 by the release path as one update. -/
theorem releaseGivesUpTheHandle : Obligations.ReleaseGivesUpTheHandle := by
  intro s hs
  rw [exec_release_held hs, release_eq]
  rfl

end Sys2Proof.Machine

namespace Sys2Proof.Machine

/-! ### 41_command_framer.md: a command and its data, called directly -/

theorem exec_sendCommand_held {s : State} (h : s.owned = true) (opcode : Byte) :
    exec (.sendCommand opcode) s = .next (endLayer .none (runList (listSendCommand s.cfg opcode) s)) := onBus_held h _

theorem exec_sendData_held {s : State} (h : s.owned = true) (bytes : List Byte) :
    exec (.sendData bytes) s = .next (endLayer .none (runList (listSendData bytes) s)) := by
  rw [exec, execSendData, onBus_held h, ite_self]

/-- `sendCommand` whose write fails: the line is at the command level, `MODE` not yet written (R151). -/
theorem runList_sendCommand_fails {op : Byte} {s : State} (h : spiAt s.env 0 = false) :
    runList (listSendCommand s.cfg op) s = .raised .transportError { s with
      pinDc := s.cfg.dcCmd, pinCs := !s.cfg.csActive, env := advanceEnv s.env 0 1 0
      trace := s.trace ++ [.gpio .dc s.cfg.dcCmd, .spiFail s.cfg.dcCmd [op]] } := by
  have hw : runMicro (.writeBytes [op]) (setGpio .dc s.cfg.dcCmd s) = _ :=
    writeBytes_fails (List.cons_ne_nil _ _) (by simpa using h)
  rw [listSendCommand, runList_cons_ok rfl, runList_cons_raised hw]
  simp [afterWrite, setGpio, emit]

/-- Settles O17: the write that succeeds, the write that fails. -/
theorem sendCommandSetsTheLineFirst : Obligations.SendCommandSetsTheLineFirst := by
  intro s opcode hs
  rw [exec_sendCommand_held hs]
  cases hw : spiAt s.env 0 with
  | true => rw [runList_sendCommand_ok hw]; rfl
  | false => rw [runList_sendCommand_fails hw, endLayer_fatal _ (.inl rfl)]; rfl

/-! #### Data (R152) -/

theorem hasContext_iff (s : State) : hasContext s = true ↔ s.mode ≠ .none := by simp [hasContext]

/-- The context is checked before the emptiness of the bytes, and before the handle. -/
theorem exec_sendData_noContext {s : State} (hm : s.mode = .none) (bytes : List Byte) :
    exec (.sendData bytes) s = .next (endRaised .protocolError s) := by
  have hc : hasContext s = false := by simp [hasContext, hm]
  have hr : runMicro .needContext s = .raised .protocolError s := by simp [runMicro, hc]
  rw [exec, execSendData, hc, listSendData, runList_cons_raised hr]
  rfl

theorem runMicro_needContext {s : State} (hm : s.mode ≠ .none) : runMicro .needContext s = .ok s := by
  simp [runMicro, (hasContext_iff s).2 hm]

theorem exec_sendData_nil {s : State} (hm : s.mode ≠ .none) :
    exec (.sendData []) s = .next (present .ok .none s) := by
  rw [exec, execSendData, (hasContext_iff s).2 hm, listSendData, runList_cons_ok (runMicro_needContext hm)]
  rfl

/-- Data after data is the write alone: the line is not driven again. -/
theorem runList_sendData_again {data : List Byte} {s : State} (hd : data ≠ []) (hm : s.mode = .data) :
    runList (listSendData data) s = writeBytes data s := by
  have hl : runMicro .dataLine s = .ok s := by simp [runMicro, hm]
  rw [listSendData, if_neg hd, runList_cons_ok (runMicro_needContext (by simp [hm])), runList_cons_ok hl, runList_cons,
    runMicro]
  cases writeBytes data s <;> rfl

/-- Settles O18: no context, no data, and then the first data after a command and the next, each with its write
succeeding and failing. -/
theorem sendDataTogglesOncePerCommand : Obligations.SendDataTogglesOncePerCommand := by
  intro s bytes
  refine ⟨fun hm => exec_sendData_noContext hm bytes, exec_sendData_nil, ?firstOk, ?againOk, ?firstFails, ?againFails⟩ <;>
    intro hs hm hd hw <;> rw [exec_sendData_held hs]
  case firstOk => rw [runList_sendData_ok hd hm hw, dataEvents, if_neg hd]; rfl
  case againOk => rw [runList_sendData_again hd hm, writeBytes_ok hd hw]; rfl
  case firstFails => rw [runList_sendData_fails hd hm hw, endLayer_fatal _ (.inl rfl)]
  case againFails => rw [runList_sendData_again hd hm, writeBytes_fails hd hw, endLayer_fatal _ (.inl rfl)]; rfl

end Sys2Proof.Machine

namespace Sys2Proof.Machine

/-! ### Packed frames: their length, and the frames of uniform planes (R174, R175) -/

theorem packRaw_length (p : Plane) : (packRaw p).length = (p.w + 7) / 8 * p.h :=
  flatMap_range_length _ _ _ (packedLine_length p)

theorem fits_iff {c : Cfg} {p : Plane} : fits c p = true ↔ p.w = c.width.val ∧ p.h = c.height.val := by simp [fits]

/-- Settles O21: the scanlines have equal length, and `pack` accepts the panel's dimensions alone. -/
theorem packedFramesHaveTheirLength : Obligations.PackedFramesHaveTheirLength := by
  refine ⟨packRaw_length, fun c p f hf => ?_⟩
  obtain ⟨hfits, rfl, -⟩ := pack_fits hf
  obtain ⟨hw, hh⟩ := fits_iff.1 hfits
  rw [packRaw_length, hw, hh]

/-- Reading a list whose every element is the default. -/
theorem getD_of_forall_eq {l : List Bit} {d : Bit} (h : ∀ b ∈ l, b = d) (i : Nat) : l.getD i d = d := by
  rw [List.eq_replicate_of_mem h, List.getD_eq_getElem?_getD, List.getElem?_getD_replicate_default_eq]

/-- A function with one value on `0 .. n - 1`. -/
theorem map_range_eq_replicate {α : Type} {n : Nat} {f : Nat → α} {a : α} (h : ∀ i < n, f i = a) :
    (List.range n).map f = List.replicate n a := by
  rw [List.map_congr_left fun i hi => h i (List.mem_range.1 hi), List.map_const', List.length_range]

/-! #### All pixels inactive -/

theorem cellAt_of_inactive {p : Plane} (hp : ∀ b ∈ p.px, b = true) (r x : Nat) : cellAt p r x = true := by
  rw [cellAt, pixelAt, getD_of_forall_eq hp, ite_self]

theorem byteCell_ones : ∀ k < 8, byteCell 0xFF#8 k = true := by decide

theorem packRaw_of_inactive {p : Plane} (hp : ∀ b ∈ p.px, b = true) :
    packRaw p = List.replicate ((p.w + 7) / 8 * p.h) 0xFF#8 := by
  refine List.eq_replicate_iff.2 ⟨packRaw_length p, fun b hb => ?_⟩
  obtain ⟨r, -, hb⟩ := List.mem_flatMap.1 hb
  obtain ⟨j, -, rfl⟩ := List.mem_map.1 hb
  exact packedByteAt_eq fun k hk => (cellAt_of_inactive hp r _).trans (byteCell_ones k hk).symm

/-! #### All pixels active: only the padding cells are 1 -/

theorem byteCell_zero (k : Nat) : byteCell 0x00#8 k = false := BitVec.getLsbD_zero

/-- The byte whose last `8 - m` cells are 1. -/
theorem byteCell_padding {m k : Nat} (hk : k < 8) :
    byteCell (BitVec.ofNat 8 (2 ^ (8 - m) - 1)) k = decide (m ≤ k) := by
  rw [byteCell, BitVec.getLsbD_ofNat, Nat.testBit_two_pow_sub_one, ← Bool.decide_and, decide_eq_decide]
  omega

/-- The last byte of an all-active scanline of width `w` (R175). -/
def lastActiveByte (w : Nat) : Byte := if w % 8 = 0 then 0x00#8 else BitVec.ofNat 8 (2 ^ (8 - w % 8) - 1)

section
variable {p : Plane} (hw : p.wellFormed = true) (hp : ∀ b ∈ p.px, b = false)
include hw hp

theorem cellAt_of_active {r : Nat} (hr : r < p.h) (x : Nat) : cellAt p r x = decide (p.w ≤ x) := by
  rw [cellAt_wf p r x hw hr, getD_of_forall_eq hp]
  by_cases hx : x < p.w
  · simp [hx]
  · simp [hx, Nat.le_of_not_lt hx]

/-- A byte with no padding cell. -/
theorem packedByteAt_of_active {r j : Nat} (hr : r < p.h) (hj : 8 * j + 8 ≤ p.w) : packedByteAt p r j = 0x00#8 :=
  packedByteAt_eq fun k hk => by
    rw [cellAt_of_active hw hp hr, byteCell_zero, decide_eq_false_iff_not]
    omega

theorem packedByteAt_last_of_active {r j : Nat} (hr : r < p.h) (hj : (p.w + 7) / 8 = j + 1) :
    packedByteAt p r j = lastActiveByte p.w := by
  unfold lastActiveByte
  split
  case isTrue hm => exact packedByteAt_of_active hw hp hr (by omega)
  case isFalse hm =>
    refine packedByteAt_eq fun k hk => ?_
    rw [cellAt_of_active hw hp hr, byteCell_padding hk, decide_eq_decide]
    omega

theorem packedLine_of_active {r : Nat} (hr : r < p.h) (h0 : 0 < p.w) :
    packedLine p r = List.replicate ((p.w + 7) / 8 - 1) 0x00#8 ++ [lastActiveByte p.w] := by
  obtain ⟨n, hn⟩ : ∃ n, (p.w + 7) / 8 = n + 1 := ⟨(p.w + 7) / 8 - 1, by omega⟩
  have hfull : (List.range n).map (packedByteAt p r) = List.replicate n 0x00#8 :=
    map_range_eq_replicate fun j hj => packedByteAt_of_active hw hp hr (by omega)
  rw [packedLine, ceilDiv8, hn, List.range_succ, List.map_append, hfull, List.map_singleton,
    packedByteAt_last_of_active hw hp hr hn, Nat.add_sub_cancel]

theorem packRaw_of_active (h0 : 0 < p.w) :
    packRaw p =
      (List.replicate p.h (List.replicate ((p.w + 7) / 8 - 1) 0x00#8 ++ [lastActiveByte p.w])).flatten := by
  rw [packRaw, List.flatMap_def, map_range_eq_replicate fun r hr => packedLine_of_active hw hp hr h0]

end

/-- Settles O24: an inactive plane's cells are all 1, an active plane's cells are 1 in the padding alone. -/
theorem uniformPlanesPackUniformly : Obligations.UniformPlanesPackUniformly :=
  fun _ hw => ⟨packRaw_of_inactive, packRaw_of_active hw⟩

end Sys2Proof.Machine

namespace Sys2Proof.Machine

/-! ### 43_panel_driver.md R193: the table of legal transitions, cell by cell -/

/-- The row of table R193 that an operation is checked by; `getbuffer`, legal in every state, has none. -/
inductive TableRow : Instr → Checked → Prop where
  | init : TableRow .init .init
  | clear : TableRow .clear .clear
  | display (black red : Plane) : TableRow (.display black red) .display
  | displayBlack (black : Plane) : TableRow (.displayBlack black) .displayBlack
  | sleep : TableRow .sleep .sleep
  | exit : TableRow .exit .exit

theorem planTwoPlanes_illegal {op : Checked} {e : ResultCode} {s : State} (he : checkState op s.pstate = some e)
    (b r : Plane) : planTwoPlanes op b r s = .fail e := by
  simp [planTwoPlanes, he]

/-- An illegal cell: the code the table names is raised before anything else is done, the planes not looked at. -/
theorem exec_illegal {i : Instr} {c : Checked} {e : ResultCode} {s : State} (hi : TableRow i c)
    (he : checkState c s.pstate = some e) : exec i s = .next (endRaised e s) := by
  cases hi with
  | init => simp [exec, execInit, planInit, he, runPlan]
  | clear => simp [exec, execClear, planClear, planTwoPlanes_illegal he, runPlan]
  | display b r => simp [exec, execDisplay, planDisplay, planTwoPlanes_illegal he, runPlan]
  | displayBlack b => simp [exec, execDisplayBlack, planDisplayBlack, he, runPlan]
  | sleep => simp [exec, execSleep, planSleep, he, runPlan]
  | exit => simp [exec, execExit, planExit, he, runPlan]

theorem exec_stateError {i : Instr} {c : Checked} {s : State} (hi : TableRow i c)
    (he : checkState c s.pstate = some .stateError) :
    exec i s = .next { s with res := .stateError, answer := some ⟨.stateError, .none⟩ } := exec_illegal hi he

theorem exec_alreadyExited {i : Instr} {c : Checked} {s : State} (hi : TableRow i c)
    (he : checkState c s.pstate = some .alreadyExited) :
    exec i s = .next { s with res := .alreadyExited, answer := some ⟨.alreadyExited, .none⟩ } := exec_illegal hi he

/-- The three refreshes are legal in the same states. -/
theorem tableRow_refresh {i : Instr} {black red : Plane}
    (hi : i ∈ [Instr.clear, Instr.display black red, Instr.displayBlack black]) :
    ∃ c, TableRow i c ∧ ∀ p, checkState c p = checkState .display p := by
  simp only [List.mem_cons, List.not_mem_nil, or_false] at hi
  rcases hi with rfl | rfl | rfl
  · exact ⟨_, .clear, fun p => by cases p <;> rfl⟩
  · exact ⟨_, .display black red, fun _ => rfl⟩
  · exact ⟨_, .displayBlack black, fun p => by cases p <;> rfl⟩

/-- The operation ends, and with none of the two codes that an illegal cell answers. -/
def EndsLegally (o : Host.Outcome State Fault Refusal) : Prop :=
  ∃ t a, o = .next t ∧ t.answer = some a ∧ a.code ≠ .stateError ∧ a.code ≠ .alreadyExited

theorem endsLegally_present {code : ResultCode} (hs : code ≠ .stateError) (ha : code ≠ .alreadyExited) (v : Value)
    (s : State) : EndsLegally (.next (present code v s)) := ⟨_, ⟨code, v⟩, rfl, rfl, hs, ha⟩

theorem Ended.endsLegally {ops : List Byte} {n : Nat} {during : List PState} {final : PState} {s : State} {R : Run}
    (h : Ended ops n .refreshTimeoutError during final s R) : EndsLegally (.next (endSurface R)) := by
  cases h with
  | ok t => exact endsLegally_present (by decide) (by decide) _ _
  | timeout t => exact endsLegally_present (by decide) (by decide) _ _
  | died e t he => rcases he with rfl | rfl <;> exact endsLegally_present (by decide) (by decide) _ _

theorem InitEnded.endsLegally {n : Nat} {s : State} {R : Run} (h : InitEnded n s R) :
    EndsLegally (.next (endSurface R)) := by
  cases h with
  | ok t => exact endsLegally_present (by decide) (by decide) _ _
  | died e t he => rcases he with rfl | rfl | rfl <;> exact endsLegally_present (by decide) (by decide) _ _

/-- Every legal cell but those of `init` stands in a state in which the block holds the handle (R37). -/
theorem holds_of_legal {c : Checked} {p : PState} (hl : checkState c p = none) (hc : c ≠ .init) : holds p = true := by
  cases p with
  | ready | displaying | sleeping => rfl
  | uninitialized => cases c <;> simp [checkState] at hl hc
  | exited => cases c <;> simp [checkState] at hl

theorem planInit_legal {s : State} (hl : checkState .init s.pstate = none) (ho : s.owned = holds s.pstate) :
    planInit s = .run (listInit s.cfg) := by
  cases hp : s.pstate with
  | uninitialized | displaying => simp [planInit, planOnBus, checkState, hp, ho, holds]
  | ready | sleeping | exited => simp [hp, checkState] at hl

theorem endsLegally_dimensionError (s : State) : EndsLegally (runPlan (.fail .dimensionError) s) :=
  endsLegally_present (by decide) (by decide) _ _

theorem endsLegally_twoPlanes {op : Checked} {s : State} (hl : checkState op s.pstate = none) (ho : s.owned = true)
    (b r : Plane) : EndsLegally (runPlan (planTwoPlanes op b r s) s) := by
  cases hb : pack s.cfg b with
  | none => simpa [planTwoPlanes, hl, hb] using endsLegally_dimensionError s
  | some fb =>
    cases hr : pack s.cfg r with
    | none => simpa [planTwoPlanes, hl, hb, hr] using endsLegally_dimensionError s
    | some fr =>
      have run : planTwoPlanes op b r s = .run (listDisplay s.cfg fb fr) := by
        simp [planTwoPlanes, hl, hb, hr, planOnBus, ho]
      obtain ⟨-, -, fb_ne⟩ := pack_fits hb
      obtain ⟨-, -, fr_ne⟩ := pack_fits hr
      rw [run]
      exact (ended_display fb_ne fr_ne).endsLegally

theorem endsLegally_displayBlack {s : State} (hl : checkState .displayBlack s.pstate = none) (ho : s.owned = true)
    (b : Plane) : EndsLegally (runPlan (planDisplayBlack b s) s) := by
  cases hb : pack s.cfg b with
  | none => simpa [planDisplayBlack, hl, hb] using endsLegally_dimensionError s
  | some fb =>
    have run : planDisplayBlack b s = .run (listDisplayBlack s.cfg fb) := by
      simp [planDisplayBlack, hl, hb, planOnBus, ho]
    obtain ⟨-, -, fb_ne⟩ := pack_fits hb
    rw [run]
    exact (ended_displayBlack fb_ne).endsLegally

/-- A legal cell: with the handle held as R55 (b) has it, the operation is not refused, and its code comes from the
planes' dimensions or from the run of its listing. -/
theorem exec_legal {i : Instr} {c : Checked} {s : State} (hi : TableRow i c) (hl : checkState c s.pstate = none)
    (hs : Between s) : EndsLegally (exec i s) := by
  have held (hc : c ≠ .init) : s.owned = true := hs.owned_iff_holds.trans (holds_of_legal hl hc)
  cases hi with
  | init =>
    have run : exec .init s = .next (endSurface (runList (listInit s.cfg) s)) := by
      simp [exec, execInit, planInit_legal hl hs.owned_iff_holds, runPlan]
    rw [run]
    exact (ended_init s).endsLegally
  | clear => exact endsLegally_twoPlanes hl (held (by decide)) _ _
  | display b r => exact endsLegally_twoPlanes hl (held (by decide)) b r
  | displayBlack b => exact endsLegally_displayBlack hl (held (by decide)) b
  | sleep =>
    have run : exec .sleep s = .next (endSurface (runList (listSleep s.cfg) s)) := by
      simp [exec, execSleep, planSleep, planOnBus, hl, held, runPlan]
    rw [run]
    exact ended_sleep.endsLegally
  | exit =>
    have run : exec .exit s = .next (endSurfaceOk (afterExit s)) := by
      simp [exec, execExit, planExit, planOnBus, hl, held, runPlan, runList_exit, endSurface]
    rw [run]
    exact endsLegally_present (by decide) (by decide) _ _

/-- Settles O36: each cell of the table is a value of `checkState`, `exec_illegal` and `exec_legal` say what the two
kinds of cell do, and `getbuffer` has no row. -/
theorem operationsOutOfStateFailFast : Obligations.OperationsOutOfStateFailFast := by
  refine fun s black red image => ⟨fun hp => ?init, fun hp i hi => ?refresh, fun hp => ?sleep,
    fun hp => ?exitEarly, fun hp => ?exitAgain, fun hs i hi => ?legal⟩
  case init => exact exec_stateError .init (by rcases hp with hp | hp | hp <;> rw [hp] <;> rfl)
  case refresh =>
    obtain ⟨c, row, same⟩ := tableRow_refresh hi
    exact exec_stateError row (by rcases hp with hp | hp | hp <;> rw [same, hp] <;> rfl)
  case sleep => exact exec_stateError .sleep (by cases hq : s.pstate <;> simp [hq, checkState] at hp ⊢)
  case exitEarly => exact exec_stateError .exit (by rw [hp]; rfl)
  case exitAgain => exact exec_alreadyExited .exit (by rw [hp]; rfl)
  case legal =>
    rcases hi with rfl | hi
    · exact endsLegally_present (by decide) (by decide) _ s
    · obtain ⟨c, row, legal⟩ : ∃ c, TableRow i c ∧ checkState c s.pstate = none := by
        simp only [List.mem_cons, List.not_mem_nil, or_false] at hi
        rcases hi with ⟨hp, rfl⟩ | ⟨hp, rfl | rfl | rfl | rfl | rfl⟩ | ⟨hp, rfl | rfl | rfl | rfl | rfl⟩ | ⟨hp, rfl⟩
          <;> exact ⟨_, by constructor, by rw [hp]; rfl⟩
      exact exec_legal row legal hs

end Sys2Proof.Machine

namespace Sys2Proof.Machine

/-! ### `GETBUFFER` (44_surface_api.md R243) -/

@[simp] theorem toMono_bit (b : Bit) : toMono (.bit b) = b := rfl

/-- No case on the state: table R193 has no row for `GETBUFFER`, and it has no listing that could fail. -/
@[simp] theorem exec_getbuffer (image : Image) (s : State) :
    exec (.getbuffer image) s = .next (present .ok (.plane (monoPlane image)) s) := rfl

/-- Settles O46: in every state the answer is `monoPlane` of the source, and `present` writes the answer alone. -/
theorem getbufferIsAPureConversion : Obligations.GetbufferIsAPureConversion :=
  ⟨toMono_bit, fun s image => by rw [exec_getbuffer, present, monoPlane]⟩

end Sys2Proof.Machine

namespace Sys2Proof.Machine

/-! ### Planes of the wrong size (60_exceptions.md R264) -/

theorem pack_eq_none {c : Cfg} {p : Plane} (h : fits c p = false) : pack c p = none := by simp [pack, h]

theorem planTwoPlanes_wrongPlane {op : Checked} {s : State} {b r : Plane} (hl : checkState op s.pstate = none)
    (hw : fits s.cfg b = false ∨ fits s.cfg r = false) : planTwoPlanes op b r s = .fail .dimensionError := by
  rcases hw with hb | hr
  · simp [planTwoPlanes, hl, pack_eq_none hb]
  · cases hb : pack s.cfg b with
    | none => simp [planTwoPlanes, hl, hb]
    | some fb => simp [planTwoPlanes, hl, hb, pack_eq_none hr]

theorem planDisplayBlack_wrongPlane {s : State} {b : Plane} (hl : checkState .displayBlack s.pstate = none)
    (hw : fits s.cfg b = false) : planDisplayBlack b s = .fail .dimensionError := by
  simp [planDisplayBlack, hl, pack_eq_none hw]

/-- Settles O37: the plan fails in the packing, before it asks for the handle or runs a listing, so the end is
`endRaised .dimensionError` of the starting state itself. -/
theorem wrongPlanesAreRejectedFirst : Obligations.WrongPlanesAreRejectedFirst := by
  intro s black red hp
  have legal : checkState .display s.pstate = none := by rcases hp with hp | hp <;> rw [hp] <;> rfl
  have legalBlack : checkState .displayBlack s.pstate = none := by rcases hp with hp | hp <;> rw [hp] <;> rfl
  refine ⟨fun hw => ?display, fun hw => ?displayBlack⟩
  case display =>
    calc exec (.display black red) s
      _ = runPlan (planTwoPlanes .display black red s) s := rfl
      _ = .next (endRaised .dimensionError s) := by rw [planTwoPlanes_wrongPlane legal hw]; rfl
  case displayBlack =>
    calc exec (.displayBlack black) s
      _ = runPlan (planDisplayBlack black s) s := rfl
      _ = .next (endRaised .dimensionError s) := by rw [planDisplayBlack_wrongPlane legalBlack hw]; rfl

end Sys2Proof.Machine

namespace Sys2Proof

/-! ### 30_encoding.md: the decoder and the encoder undo one another -/

theorem decodePlane_encodePlane {p : Plane} (hw : p.wellFormed = true) (rest : List Byte) :
    decodePlane (encodePlane p ++ rest) = .ok (p, rest) := by
  have hl : p.px.length = p.w * p.h := by simpa [Plane.wellFormed] using hw
  simp [decodePlane, encodePlane, List.append_assoc, ← hl]

theorem decodeImage_encodeImage {m : Image} (hw : m.wellFormed = true) (rest : List Byte) :
    decodeImage (encodeImage m ++ rest) = .ok (m, rest) := by
  have hl : m.px.length = m.w * m.h := by simpa [Image.wellFormed] using hw
  simp [decodeImage, encodeImage, List.append_assoc, ← hl]

@[simp] theorem decodeFrame_encodeFrame (f : CommandFrame) (rest : List Byte) :
    decodeFrame (encodeFrame f ++ rest) = .ok (f, rest) := by
  simp [decodeFrame, encodeFrame]

theorem packedByteOf_cellsByte (a b c d e f g h : Bit) :
    packedByteOf (Machine.cellsByte a b c d e f g h) = .packedByte a b c d e f g h := by
  have cells := byteCells_cellsByte a b c d e f g h
  simp only [Machine.byteCells, List.cons.injEq, and_true] at cells
  obtain ⟨h0, h1, h2, h3, h4, h5, h6, h7⟩ := cells
  rw [packedByteOf, h0, h1, h2, h3, h4, h5, h6, h7]

/-- What the decoder hands back where the format delimits itself: operand by operand, each part read back. -/
theorem decode_encode_append {i : Instr} (hw : i.wellFormed = true) (hc : formatOf i ≠ .wireCmdFrame)
    (hp : formatOf i ≠ .wirePlaneWrite) (rest : List Byte) :
    decode (formatOf i) (encode i ++ rest) = .ok (i, rest) := by
  cases i with
  | init | clear | sleep | exit | readBusy | reset | acquire | release | sendCommand | allInactive | waitNotBusy => rfl
  | display black red =>
    obtain ⟨hb, hr⟩ : black.wellFormed = true ∧ red.wellFormed = true := by simpa [Instr.wellFormed] using hw
    show thenDec (decodePlane (encodePlane black ++ encodePlane red ++ rest)) _ = _
    rw [List.append_assoc, decodePlane_encodePlane hb, thenDec_ok, decodePlane_encodePlane hr, thenDec_ok]
  | displayBlack plane | pack plane | packRaw plane =>
    show thenDec (decodePlane (encodePlane plane ++ rest)) _ = _
    rw [decodePlane_encodePlane hw, thenDec_ok]
  | getbuffer image =>
    show thenDec (decodeImage (encodeImage image ++ rest)) _ = _
    rw [decodeImage_encodeImage hw, thenDec_ok]
  | writeBytes data | sendData data =>
    show thenDec (decodeBytes (encodeBytes data ++ rest)) _ = _
    rw [decodeBytes_encodeBytes, thenDec_ok]
  | setGpio line level =>
    show thenDec (decodeLine (lineCode line :: levelByte level :: rest)) _ = _
    rw [decodeLine_lineCode, thenDec_ok, decodeLevel_levelByte, thenDec_ok]
  | delay ticks =>
    show thenDec (decodeNat (encodeNat ticks ++ rest)) _ = _
    rw [decodeNat_encodeNat, thenDec_ok]
  | sendFrame frame | cfgFrame frame =>
    show thenDec (decodeFrame (encodeFrame frame ++ rest)) _ = _
    rw [decodeFrame_encodeFrame, thenDec_ok]
  | packedByte a b c d e f g h =>
    show Except.ok (packedByteOf (Machine.cellsByte a b c d e f g h), rest) = _
    rw [packedByteOf_cellsByte]
  | wireCmdFrame => exact absurd rfl hc
  | wirePlaneWrite => exact absurd rfl hp

/-- Settles O7: where the format delimits itself by `decode_encode_append`; a frame or a plane write on the wire is all
the bytes there are. -/
theorem decodeUndoesEncode : Obligations.DecodeUndoesEncode := by
  refine fun i hw => ⟨?_, decode_encode_append hw⟩
  cases i with
  | wireCmdFrame | wirePlaneWrite => rfl
  | _ => simpa only [List.append_nil] using decode_encode_append hw (by simp [formatOf]) (by simp [formatOf]) []

/-! #### The other direction -/

/-- The bytes are the instruction's own in that format, and what follows them. -/
def Spells (f : Format) (bs : List Byte) (i : Instr) (rest : List Byte) : Prop :=
  i.wellFormed = true ∧ formatOf i = f ∧ bs = encode i ++ rest

theorem byte_eq_of_toNat {b : Byte} {n : Nat} (h : b.toNat = n) : b = BitVec.ofNat 8 n := by
  rw [← h, BitVec.ofNat_toNat, BitVec.setWidth_eq]

theorem spells_of_decodeOperands {code : Byte} {bs rest : List Byte} {i : Instr}
    (h : decodeOperands code bs = .ok (i, rest)) : Spells .op (code :: bs) i rest := by
  unfold decodeOperands at h
  split at h
  case h_1 hn | h_2 hn | h_5 hn | h_6 hn | h_9 hn | h_11 hn | h_13 hn | h_14 hn | h_20 hn | h_21 hn =>
    cases h
    exact ⟨rfl, rfl, by rw [byte_eq_of_toNat hn]; rfl⟩
  case h_3 hn =>
    obtain ⟨black, after, hb, h⟩ := thenDec_eq_ok h
    obtain ⟨red, _, hr, h⟩ := thenDec_eq_ok h
    cases h
    obtain ⟨wb, rfl⟩ := decodePlane_eq_ok hb
    obtain ⟨wr, rfl⟩ := decodePlane_eq_ok hr
    exact ⟨by simp [Instr.wellFormed, wb, wr], rfl, by rw [byte_eq_of_toNat hn]; simp [encode]⟩
  case h_4 hn | h_18 hn | h_19 hn =>
    obtain ⟨plane, _, hp, h⟩ := thenDec_eq_ok h
    cases h
    obtain ⟨wp, rfl⟩ := decodePlane_eq_ok hp
    exact ⟨wp, rfl, by rw [byte_eq_of_toNat hn]; rfl⟩
  case h_7 hn =>
    obtain ⟨image, _, hi, h⟩ := thenDec_eq_ok h
    cases h
    obtain ⟨wi, rfl⟩ := decodeImage_eq_ok hi
    exact ⟨wi, rfl, by rw [byte_eq_of_toNat hn]; rfl⟩
  case h_8 hn | h_16 hn =>
    obtain ⟨data, _, hd, h⟩ := thenDec_eq_ok h
    cases h
    exact ⟨rfl, rfl, by rw [byte_eq_of_toNat hn, decodeBytes_eq_ok hd]; rfl⟩
  case h_10 hn =>
    obtain ⟨line, _, hl, h⟩ := thenDec_eq_ok h
    obtain ⟨level, _, hv, h⟩ := thenDec_eq_ok h
    cases h
    exact ⟨rfl, rfl, by rw [byte_eq_of_toNat hn, decodeLine_eq_ok hl, decodeLevel_eq_ok hv]; rfl⟩
  case h_12 hn =>
    obtain ⟨ticks, _, ht, h⟩ := thenDec_eq_ok h
    cases h
    exact ⟨rfl, rfl, by rw [byte_eq_of_toNat hn, decodeNat_eq_ok ht]; rfl⟩
  case h_15 hn =>
    obtain ⟨opcode, _, ho, h⟩ := thenDec_eq_ok h
    cases h
    exact ⟨rfl, rfl, by rw [byte_eq_of_toNat hn, decodeByte_eq_ok ho]; rfl⟩
  case h_17 hn =>
    obtain ⟨frame, _, hf, h⟩ := thenDec_eq_ok h
    cases h
    exact ⟨rfl, rfl, by rw [byte_eq_of_toNat hn, decodeFrame_eq_ok hf]; rfl⟩
  case h_22 => cases h

theorem encode_packedByteOf (b : Byte) : encode (packedByteOf b) = [b] :=
  congrArg (fun b => [b]) (cellsByte_byteCell b)

/-- Settles O8: format by format; the operation codes are `spells_of_decodeOperands`. -/
theorem encodeUndoesDecode : Obligations.EncodeUndoesDecode := by
  intro f bs rest i h
  cases f with
  | op =>
    obtain ⟨code, operands, hc, h⟩ := thenDec_eq_ok h
    rw [decodeByte_eq_ok hc]
    exact spells_of_decodeOperands h
  | wireCmdFrame | wirePlaneWrite =>
    obtain ⟨op, data, ho, h⟩ := thenDec_eq_ok h
    cases h
    exact ⟨rfl, rfl, by rw [decodeByte_eq_ok ho, List.append_nil]; rfl⟩
  | packedByte =>
    obtain ⟨b, _, hb, h⟩ := thenDec_eq_ok h
    cases h
    exact ⟨rfl, rfl, by rw [decodeByte_eq_ok hb, encode_packedByteOf]; rfl⟩
  | cfgFrame =>
    obtain ⟨frame, _, hf, h⟩ := thenDec_eq_ok h
    cases h
    exact ⟨rfl, rfl, decodeFrame_eq_ok hf⟩

end Sys2Proof

namespace Sys2Proof.Machine

/-! ### The plan of a surface operation, run whole and position by position (10_state.md R36) -/

theorem busOk_initTail (c : Cfg) :
    busOk true (listReset c ++ .wait .initError :: c.initSeq.flatMap (listSendFrame c)
      ++ [.wait .initError, .setState .ready]) = true := by
  rw [List.append_assoc, List.cons_append]
  exact busOk_frames c c.initSeq [.wait .initError, .setState .ready] rfl

theorem busOk_display (c : Cfg) (black red : List Byte) : busOk true (listDisplay c black red) = true := by
  simp only [listDisplay, List.cons_append, List.append_assoc]
  exact busOk_plane c c.cmdBlack black _ (busOk_plane c c.cmdRed red _ (busOk_frame c c.refresh _ rfl))

theorem busOk_displayBlack (c : Cfg) (black : List Byte) : busOk true (listDisplayBlack c black) = true := by
  simp only [listDisplayBlack, List.cons_append, List.append_assoc]
  exact busOk_plane c c.cmdBlack black _ (busOk_frame c c.refresh _ rfl)

theorem busOk_sleep (c : Cfg) : busOk true (listSleep c) = true := busOk_frame c c.sleep [.setState .sleeping] rfl

/-- The listing, taken position by position from `s`, ends as it does when run whole. -/
def PositionsAgree (listing : List Micro) (s : State) : Prop :=
  s.host = [] → Reach (atPosition listing s) (atIdle (endSurface (runList listing s)))

theorem positionsAgree_of_busOk {listing : List Micro} {s : State} (ho : s.owned = true)
    (hb : busOk true listing = true) : PositionsAgree listing s :=
  fun hh => reach_list listing true s hh (fun _ => ho) hb

theorem inited_owned {s : State}
    (hs : s.owned = false ∧ s.pstate = .uninitialized ∨ s.owned = true ∧ s.pstate = .displaying) :
    (inited s).owned = true := by
  rcases hs with ⟨-, hp⟩ | ⟨ho, hp⟩ <;> simp [inited, *]

theorem grown_inited (s : State) : Grown s (inited s) := grown_runMicro .acquireIfUninitialized s

/-- `init` takes the handle at its first position; from there it is held. -/
theorem positionsAgree_init {s : State}
    (hs : s.owned = false ∧ s.pstate = .uninitialized ∨ s.owned = true ∧ s.pstate = .displaying) :
    PositionsAgree (listInit s.cfg) s := by
  intro hh
  have first : runMicro .acquireIfUninitialized s = .ok (inited s) := rfl
  simp only [listInit, List.cons_append]
  rw [runList_cons_ok first]
  refine (reach_micro hh (m := .acquireIfUninitialized) nofun nofun nofun).trans ?_
  rw [first]
  exact reach_list _ true (inited s) ((grown_inited s).host.trans hh) (fun _ => inited_owned hs) (busOk_initTail s.cfg)

/-- What a plan that runs a listing tells of the state: the block has not exited, and the listing may be taken position
by position. -/
def SoundPlan (p : Plan) (s : State) : Prop :=
  ∀ listing, p = .run listing → s.pstate ≠ .exited ∧ PositionsAgree listing s

theorem soundPlan_init (s : State) : SoundPlan (planInit s) s := by
  rintro listing hp
  rcases planInit_cases s with h | ⟨r, h⟩ | ⟨hs, h⟩ <;> cases h.symm.trans hp
  exact ⟨by rcases hs with ⟨-, hs⟩ | ⟨-, hs⟩ <;> simp [hs], positionsAgree_init hs⟩

theorem soundPlan_twoPlanes {op : Checked} (hop : op = .clear ∨ op = .display) (black red : Plane) (s : State) :
    SoundPlan (planTwoPlanes op black red s) s := by
  rintro listing hp
  rcases planTwoPlanes_cases op black red s hop with ⟨e, h, -⟩ | ⟨h, -⟩ | ⟨ho, hs, -, -, h⟩ <;> cases h.symm.trans hp
  exact ⟨by rcases hs with hs | hs <;> simp [hs], positionsAgree_of_busOk ho (busOk_display _ _ _)⟩

theorem soundPlan_displayBlack (black : Plane) (s : State) : SoundPlan (planDisplayBlack black s) s := by
  rintro listing hp
  rcases planDisplayBlack_cases black s with ⟨e, h, -⟩ | ⟨h, -⟩ | ⟨ho, hs, -, h⟩ <;> cases h.symm.trans hp
  exact ⟨by rcases hs with hs | hs <;> simp [hs], positionsAgree_of_busOk ho (busOk_displayBlack _ _)⟩

theorem soundPlan_sleep (s : State) : SoundPlan (planSleep s) s := by
  rintro listing hp
  rcases planSleep_cases s with h | ⟨h, -⟩ | ⟨ho, hs, h⟩ <;> cases h.symm.trans hp
  exact ⟨by simp [hs], positionsAgree_of_busOk ho (busOk_sleep _)⟩

theorem soundPlan_exit (s : State) : SoundPlan (planExit s) s := by
  rintro listing hp
  rcases planExit_cases s with (h | h) | ⟨h, -⟩ | ⟨ho, hs, h⟩ <;> cases h.symm.trans hp
  exact ⟨by rcases hs with hs | hs | hs <;> simp [hs], positionsAgree_of_busOk ho rfl⟩

/-- A surface operation other than `getbuffer` is a plan, run whole by `exec` and begun by `beginOp`. -/
theorem surface_plan {i : Instr} (hi : isSurface i = true) (s : State) :
    (∃ image, i = .getbuffer image) ∨
    ∃ p, exec i s = runPlan p s ∧ beginOp i s = beginPlan p s ∧ SoundPlan p s := by
  cases i with
  | init => exact .inr ⟨planInit s, rfl, rfl, soundPlan_init s⟩
  | clear => exact .inr ⟨planClear s, rfl, rfl, soundPlan_twoPlanes (.inl rfl) _ _ s⟩
  | display black red => exact .inr ⟨planDisplay black red s, rfl, rfl, soundPlan_twoPlanes (.inr rfl) _ _ s⟩
  | displayBlack black => exact .inr ⟨planDisplayBlack black s, rfl, rfl, soundPlan_displayBlack black s⟩
  | sleep => exact .inr ⟨planSleep s, rfl, rfl, soundPlan_sleep s⟩
  | exit => exact .inr ⟨planExit s, rfl, rfl, soundPlan_exit s⟩
  | getbuffer image => exact .inl ⟨image, rfl⟩
  | _ => cases hi

theorem Finished.upc {s t : State} (h : Finished s t) : t.upc = s.upc := by
  cases h with
  | answered u r a g => exact g.upc
  | died u e he g => rw [fatal_eq]; exact g.upc

theorem Finished.host {s t : State} (h : Finished s t) : t.host = s.host := by
  cases h with
  | answered u r a g => exact g.host
  | died u e he g => rw [fatal_eq]; exact g.host

theorem atIdle_of_idle {s : State} (h : s.upc = .idle) : atIdle s = s := by rw [atIdle, ← h]

/-- From an idle block, an operation begun reaches the end it has when run whole. -/
theorem beginOp_reaches {i : Instr} {s t : State} (hi : isSurface i = true) (hu : s.upc = .idle) (hh : s.host = [])
    (h : exec i s = .next t) : ∃ u, beginOp i s = .next u ∧ Reach u t := by
  have idle : t.upc = .idle := (exec_finished h).upc.trans hu
  rcases surface_plan hi s with ⟨image, rfl⟩ | ⟨p, whole, begun, sound⟩
  · exact ⟨t, h, .refl t⟩
  · rw [whole] at h
    cases p with
    | fail e => exact ⟨t, begun.trans h, .refl t⟩
    | refuse r => cases h
    | run listing =>
      refine ⟨atPosition listing s, begun, ?_⟩
      cases h
      rw [← atIdle_of_idle idle]
      exact (sound listing rfl).2 hh

theorem step_op {s : State} (hu : s.upc = .idle) {bytes : List Byte} {later : List HostAction}
    (hh : s.host = .op bytes :: later) :
    step s = onHostPort (decode .op bytes) fun i => exec i { s with host := later } := by
  simp only [step, hu, idleStep, hh, hostStep]

theorem step_begin {s : State} (hu : s.upc = .idle) {bytes : List Byte} {later : List HostAction}
    (hh : s.host = .begin bytes :: later) :
    step s = onHostPort (decode .op bytes) fun i => beginOp i { s with host := later } := by
  simp only [step, hu, idleStep, hh, hostStep]

/-- The host port answers for a surface operation only. -/
theorem onHostPort_next {d : Dec Instr} {go : Instr → Host.Outcome State Fault Refusal} {t : State}
    (h : onHostPort d go = .next t) : ∃ i rest, d = .ok (i, rest) ∧ isSurface i = true ∧ go i = .next t := by
  match d with
  | .error e => cases h
  | .ok (i, rest) =>
    simp only [onHostPort] at h
    split at h
    case isTrue hi => exact ⟨i, rest, rfl, hi, h⟩
    case isFalse => cases h

theorem onHostPort_surface {i : Instr} (hi : isSurface i = true) (rest : List Byte)
    (go : Instr → Host.Outcome State Fault Refusal) : onHostPort (.ok (i, rest)) go = go i := if_pos hi

/-- Settles O60: the first step begins the operation's listing (or ends it as the whole step does), and `reach_list`
takes the listing to its end. -/
theorem positionsReachTheWholeStep : Obligations.PositionsReachTheWholeStep := by
  intro s t bytes hu h
  obtain ⟨i, rest, hd, hi, he⟩ := onHostPort_next ((step_op (s := { s with host := [.op bytes] }) hu rfl).symm.trans h)
  obtain ⟨u, begun, reached⟩ := beginOp_reaches (s := { s with host := [] }) hi hu rfl he
  have first : step { s with host := [.begin bytes] } = .next u := by
    rw [step_begin (s := { s with host := [.begin bytes] }) hu rfl, hd, onHostPort_surface hi]
    exact begun
  exact (reach_step first).trans reached

end Sys2Proof.Machine

namespace Sys2Proof.Machine

/-! ### The end of any operation: what its listing did, and which code it ended with -/

/-- The codes whose effect is the fatal path (60_exceptions.md R267, R269, R270). -/
def IsFatal (e : ResultCode) : Prop := e = .transportError ∨ e = .interrupted ∨ e = .initError

/-- What no part of an operation before its end breaks. -/
structure Ran (s u : State) : Prop where
  grown : Grown s u
  k : s.k ≤ s.cfg.nPollMax.val → u.k ≤ s.cfg.nPollMax.val
  pins : PinsOk s → PinsOk u

theorem Ran.refl (s : State) : Ran s s := ⟨.refl s, id, id⟩

/-- How an operation ends: with a code that is not fatal, its effect on the registers no more than `RES`; or with the
fatal path, from a state that is Exited only if the first was. -/
inductive ExecEnd (s : State) : State → Prop where
  | answered (u : State) (r c : ResultCode) (v : Value) (ran : Ran s u) (hc : ¬ IsFatal c)
      (stays : s.pstate = .exited → u.pstate = .exited) : ExecEnd s { u with res := r, answer := some ⟨c, v⟩ }
  | died (u : State) (e : ResultCode) (he : IsFatal e) (ran : Ran s u)
      (same : u.pstate = .exited ↔ s.pstate = .exited) : ExecEnd s { fatal e u with answer := some ⟨e, .none⟩ }

theorem endRaised_of_not_fatal {e : ResultCode} (he : ¬ IsFatal e) (u : State) :
    endRaised e u = { u with res := (endRaised e u).res, answer := some ⟨e, .none⟩ } := by
  cases e with
  | transportError | interrupted | initError => exact absurd (by simp [IsFatal]) he
  | _ => rfl

theorem execEnd_endRaised {s u : State} (e : ResultCode) (ran : Ran s u)
    (same : u.pstate = .exited ↔ s.pstate = .exited) : ExecEnd s (endRaised e u) := by
  by_cases he : IsFatal e
  · rw [fatal_end he]; exact .died u e he ran same
  · rw [endRaised_of_not_fatal he]; exact .answered u _ e .none ran he same.2

theorem execEnd_present {s u : State} (v : Value) (ran : Ran s u) (stays : s.pstate = .exited → u.pstate = .exited) :
    ExecEnd s (present .ok v u) := .answered u u.res .ok v ran (by simp [IsFatal]) stays

theorem execEnd_endSurfaceOk {s u : State} (ran : Ran s u) (stays : s.pstate = .exited → u.pstate = .exited) :
    ExecEnd s (endSurfaceOk u) := .answered u .ok .ok .none ran (by simp [IsFatal]) stays

theorem Ran.of_parked {s u : State} (grown : Grown s u) (k : s.k ≤ s.cfg.nPollMax.val → u.k ≤ s.cfg.nPollMax.val)
    (owned : u.owned = s.owned) (driven : u.driven = s.driven)
    (parked : s.pinCs = (!s.cfg.csActive) → u.pinCs = (!s.cfg.csActive)) : Ran s u := by
  refine ⟨grown, k, fun ⟨hd, hc⟩ => ⟨?_, fun ho => ?_⟩⟩
  · rw [driven, owned, hd]
  · rw [grown.cfg]
    exact parked (hc (owned.symm.trans ho))

theorem Worked.ran {ops : List Byte} {n : Nat} {s u : State} (w : Worked ops n s u) : Ran s u := by
  obtain ⟨l, hl, -⟩ := w.trace
  exact .of_parked ⟨w.cfg, w.host, w.upc, w.answer, w.res, w.fatal, l, hl⟩ w.k w.owned w.driven w.parked

theorem InitWorked.ran {n : Nat} {s u : State} (w : InitWorked n s u) : Ran s u := by
  obtain ⟨l, hl, -⟩ := w.trace
  exact .of_parked ⟨w.cfg, w.host, w.upc, w.answer, w.res, w.fatal, l, hl⟩ w.k w.owned w.driven w.parked

theorem inited_k (s : State) : (inited s).k = s.k := by unfold inited; split <;> rfl

theorem Ran.of_inited {s u : State} (ran : Ran (inited s) u) : Ran s u := by
  obtain ⟨grown, k, pins⟩ := ran
  rw [inited_k, (grown_inited s).cfg] at k
  exact ⟨(grown_inited s).trans grown, k, fun h => pins (pinsOk_runMicro .acquireIfUninitialized h)⟩

theorem Ended.execEnd {ops : List Byte} {n : Nat} {e : ResultCode} {during : List PState} {final : PState} {s : State}
    {R : Run} (h : Ended ops n e during final s R) (hs : s.pstate ≠ .exited) (hd : .exited ∉ during) :
    ExecEnd s (endSurface R) := by
  have alive {u : State} (hu : u.pstate ∈ s.pstate :: during) : u.pstate = .exited ↔ s.pstate = .exited := by
    refine ⟨fun hx => ?_, fun hx => absurd hx hs⟩
    rw [hx] at hu
    rcases List.mem_cons.1 hu with hu | hu
    · exact hu.symm
    · exact absurd hu hd
  cases h with
  | ok t w => exact execEnd_endSurfaceOk w.ran fun hx => absurd hx hs
  | timeout t w p => exact execEnd_endRaised e w.ran (alive p)
  | died e t _ w p => exact execEnd_endRaised e w.ran (alive p)

theorem InitEnded.execEnd {n : Nat} {s : State} {R : Run} (h : InitEnded n (inited s) R) (hs : s.pstate ≠ .exited) :
    ExecEnd s (endSurface R) := by
  cases h with
  | ok t w => exact execEnd_endSurfaceOk w.ran.of_inited fun hx => absurd hx hs
  | died e t _ w p => exact execEnd_endRaised e w.ran.of_inited (by rw [p, inited_pstate])

theorem ran_afterExit (s : State) : Ran s (afterExit s) :=
  ⟨⟨rfl, rfl, rfl, rfl, rfl, rfl, _, List.append_assoc _ _ _⟩, id, fun _ => ⟨rfl, nofun⟩⟩

theorem Surfaced.execEnd {i : Instr} {s t : State} (h : Surfaced i s t) : ExecEnd s t := by
  cases h with
  | failed e he =>
    exact .answered s e e .none (.refl s) (by rcases he with rfl | ⟨rfl, -⟩ | ⟨rfl, -⟩ <;> simp [IsFatal]) id
  | converted image => exact execEnd_present _ (.refl s) id
  | init R _ hs hr => exact hr.execEnd (by rcases hs with ⟨-, hs⟩ | ⟨-, hs⟩ <;> simp [hs])
  | display R _ _ hs hr => exact hr.execEnd (by rcases hs with hs | hs <;> simp [hs]) (by decide)
  | displayBlack R _ _ hs hr => exact hr.execEnd (by rcases hs with hs | hs <;> simp [hs]) (by decide)
  | sleep R _ _ hs hr => exact hr.execEnd (by simp [hs]) (by decide)
  | exit => exact execEnd_endSurfaceOk (ran_afterExit s) fun _ => rfl

theorem Layered.ran {s : State} {R : Run} (h : Layered s R) : Ran s R.state := ⟨h.grown, h.k, h.pins⟩

theorem LayerEnd.execEnd {s t : State} (h : LayerEnd s t) : ExecEnd s t := by
  cases h with
  | run v R hR =>
    have same : R.state.pstate = .exited ↔ s.pstate = .exited := by rw [hR.pstate]
    cases R with
    | ok u => exact execEnd_present v hR.ran same.2
    | raised e u => exact execEnd_endRaised e hR.ran same
  | rejected => exact .answered s s.res .dimensionError .none (.refl s) (by simp [IsFatal]) id

/-- The end of any operation, of the host port or of a layer, and with any code. -/
theorem exec_end {i : Instr} {s t : State} (h : exec i s = .next t) : ExecEnd s t := by
  cases hi : isSurface i with
  | true => exact (surfaced hi h).execEnd
  | false => exact (layer_end hi h).execEnd

/-! ### The pin invariants (R42, R55 (e), 60_exceptions.md R268) -/

theorem ExecEnd.pinsOk {s t : State} (h : ExecEnd s t) (hs : PinsOk s) : PinsOk t := by
  cases h with
  | answered u r c v ran => exact ran.pins hs
  | died u e => rw [fatal_eq]; exact ⟨rfl, nofun⟩

theorem ExecEnd.exited {s t : State} (h : ExecEnd s t) (hs : s.pstate = .exited) : t.pstate = .exited := by
  cases h with
  | answered u r c v ran hc stays => exact stays hs
  | died u e => rw [fatal_eq]

/-- An operation begun in Exited ends in that step. -/
theorem beginOp_exited {i : Instr} {s t : State} (hi : isSurface i = true) (hp : s.pstate = .exited)
    (h : beginOp i s = .next t) : exec i s = .next t := by
  rcases surface_plan hi s with ⟨image, rfl⟩ | ⟨p, whole, begun, sound⟩
  · exact h
  · rw [begun] at h
    cases p with
    | fail e => exact whole.trans h
    | refuse r => cases h
    | run listing => exact absurd hp (sound listing rfl).1

/-- From an idle block in Exited a step is an operation's whole end, or the block reset, or leaves the registers. -/
theorem step_exited {s t : State} (hu : s.upc = .idle) (hp : s.pstate = .exited) (h : step s = .next t) :
    (t.pstate = .exited ∧ t.upc = .idle) ∨ ∃ n later, s.host = .blockReset n :: later := by
  have ended {i : Instr} {later : List HostAction} (h : exec i { s with host := later } = .next t) :
      t.pstate = .exited ∧ t.upc = .idle := ⟨(exec_end h).exited hp, (exec_finished h).upc.trans hu⟩
  cases stepped h with
  | silent => exact .inl ⟨hp, hu⟩
  | exec i a later _ _ _ _ he => exact .inl (ended he)
  | began a later l b _ hh ha =>
    subst ha
    rw [step_begin hu hh] at h
    obtain ⟨i, _, -, hi, hb⟩ := onHostPort_next h
    exact .inl (ended (later := later) (beginOp_exited hi hp hb))
  | await => exact .inl ⟨hp, hu⟩
  | status r later => rw [readStatus_eq]; exact .inl ⟨hp, hu⟩
  | reset later _ hh => obtain ⟨n, hh⟩ := hh; exact .inr ⟨n, later, hh⟩
  | advance l host _ hl => rw [hu] at hl; cases hl

/-- Settles O45: this is `step_exited`. -/
theorem onlyBlockResetLeavesExited : Obligations.OnlyBlockResetLeavesExited := fun _ _ => step_exited

theorem step_pinsOk {s t : State} (hs : PinsOk s) (h : step s = .next t) : PinsOk t := by
  cases stepped h with
  | silent | began | await => exact hs
  | exec i a later _ _ _ _ he => exact (exec_end he).pinsOk hs
  | status r later => rw [readStatus_eq]; exact hs
  | reset => exact ⟨rfl, nofun⟩
  | advance l host _ _ ha => exact (moved_advance ha).pins hs

theorem step_blockReset {s : State} (hu : s.upc = .idle) {n : Nat} {later : List HostAction}
    (hh : s.host = .blockReset n :: later) : step s = .next (blockReset { s with host := later }) := by
  simp only [step, hu, idleStep, hh, hostStep]

theorem step_fatal_is_final {s t : State} (hs : s.fatal = true → s.pstate = .exited ∧ s.upc = .idle)
    (h : step s = .next t) (ht : t.fatal = true) : t.pstate = .exited ∧ t.upc = .idle := by
  cases hf : s.fatal with
  | true =>
    obtain ⟨hp, hu⟩ := hs hf
    rcases step_exited hu hp h with final | ⟨n, later, hh⟩
    · exact final
    · rw [step_blockReset hu hh] at h
      cases h
      exact absurd ht Bool.false_ne_true
  | false =>
    cases stepped h with
    | silent | began | await => exact absurd (hf.symm.trans ht) Bool.false_ne_true
    | exec i a later _ hu _ _ he =>
      have finished := exec_finished he
      exact ⟨(finished.fatalKept.set_by_fatal_path hf ht).1, finished.upc.trans hu⟩
    | status r later => rw [readStatus_eq] at ht; exact absurd (hf.symm.trans ht) Bool.false_ne_true
    | reset => exact absurd ht Bool.false_ne_true
    | advance l host _ _ ha =>
      obtain ⟨idle, exited, -⟩ := (moved_advance ha).fatal hf ht
      exact ⟨exited, idle⟩

/-- Settles O59: `step_pinsOk` and `step_fatal_is_final` together. -/
theorem pinInvariantsAlwaysHold : Obligations.PinInvariantsAlwaysHold := by
  intro s t hs h
  obtain ⟨driven, parked⟩ := step_pinsOk ⟨hs.driven_eq_owned, hs.cs_parked⟩ h
  exact ⟨driven, parked, step_fatal_is_final hs.fatal_is_final h⟩

end Sys2Proof.Machine

namespace Sys2Proof.Machine

/-! ### The register invariants between operations (R55) -/

theorem between_resetWith (c : Cfg) : Between (State.resetWith c) :=
  ⟨rfl, rfl, fun _ => rfl, nofun, nofun, nofun, nofun, nofun⟩

/-- A block that holds the handle in a state in which it should. -/
theorem between_of_held {s : State} (hd : s.driven = true) (ho : s.owned = true) (hp : holds s.pstate = true)
    (settled : Settled s) (hc : s.pinCs = !s.cfg.csActive) (hf : s.fatal = false) : Between s where
  driven_eq_owned := hd.trans ho.symm
  owned_iff_holds := ho.trans hp.symm
  mode_none_of_free h := by rw [ho] at h; cases h
  dc_of_data _ := settled.1
  dc_of_command _ := settled.2
  cs_parked _ := hc
  exited_of_fatal h := by rw [hf] at h; cases h
  free_of_exited h := by rw [h] at hp; cases hp

/-- A block that has exited and given up everything. -/
theorem between_of_exited {s : State} (hd : s.driven = false) (ho : s.owned = false) (hp : s.pstate = .exited)
    (hm : s.mode = .none) : Between s where
  driven_eq_owned := hd.trans ho.symm
  owned_iff_holds := by rw [ho, hp]; rfl
  mode_none_of_free _ := hm
  dc_of_data h := by rw [ho] at h; cases h
  dc_of_command h := by rw [ho] at h; cases h
  cs_parked h := by rw [ho] at h; cases h
  exited_of_fatal _ := hp
  free_of_exited _ := ho

/-- The invariants say nothing of `RES`, the port's answer, the environment and the host's script. -/
theorem Between.frame {s : State} (h : Between s) (r : ResultCode) (a : Option Answer) (e : Env) (l : List HostAction) :
    Between { s with res := r, answer := a, env := e, host := l } :=
  ⟨h.driven_eq_owned, h.owned_iff_holds, h.mode_none_of_free, h.dc_of_data, h.dc_of_command, h.cs_parked,
    h.exited_of_fatal, h.free_of_exited⟩

theorem between_fatal {e : ResultCode} (he : IsFatal e) (u : State) : Between (endRaised e u) := by
  rw [fatal_end he, fatal_eq]
  exact between_of_exited rfl rfl rfl rfl

theorem Between.settled {s : State} (h : Between s) (ho : s.owned = true) : Settled s :=
  ⟨h.dc_of_data ho, h.dc_of_command ho⟩

theorem Between.alive {s : State} (h : Between s) (hp : s.pstate ≠ .exited) : s.fatal = false := by
  cases hf : s.fatal with
  | false => rfl
  | true => exact absurd (h.exited_of_fatal hf) hp

theorem Ended.between {ops : List Byte} {n : Nat} {during : List PState} {final : PState} {s : State} {R : Run}
    (h : Ended ops n .refreshTimeoutError during final s R) (hs : Between s) (ho : s.owned = true)
    (hd : ∀ p ∈ s.pstate :: during, holds p = true) (hf : holds final = true) : Between (endSurface R) := by
  have alive : s.fatal = false := hs.alive fun hp => by have := hd s.pstate (by simp); rw [hp] at this; cases this
  have held {m : Nat} {t : State} (w : Worked ops m s t) (hp : holds t.pstate = true) (settled : Settled t) :
      Between t :=
    between_of_held (w.driven.trans (hs.driven_eq_owned.trans ho)) (w.owned.trans ho) hp settled
      (by rw [w.cfg]; exact w.parked (hs.cs_parked ho)) (w.fatal.trans alive)
  cases h with
  | ok t w p settled => exact (held w (p ▸ hf) settled).frame _ _ t.env t.host
  | timeout t w p settled => exact (held w (hd _ p) (settled (hs.settled ho))).frame _ _ t.env t.host
  | died e t he w p => exact between_fatal (he.imp_right .inl) t

theorem inited_parked {s : State} (hs : Between s) (ho : (inited s).owned = true) :
    (inited s).driven = true ∧ (inited s).pinCs = !(inited s).cfg.csActive := by
  have pins : PinsOk (inited s) :=
    pinsOk_runMicro .acquireIfUninitialized (s := s) ⟨hs.driven_eq_owned, hs.cs_parked⟩
  exact ⟨pins.1.trans ho, pins.2 ho⟩

theorem InitEnded.between {n : Nat} {s : State} {R : Run} (h : InitEnded n (inited s) R) (hs : Between s)
    (ho : (inited s).owned = true) (hp : s.pstate ≠ .exited) : Between (endSurface R) := by
  obtain ⟨driven, parked⟩ := inited_parked hs ho
  cases h with
  | ok t w p settled =>
    have held : Between t := between_of_held (w.driven.trans driven) (w.owned.trans ho) (by rw [p]; rfl) settled
      (by rw [w.cfg]; exact w.parked parked) (w.fatal.trans ((grown_inited s).fatal.trans (hs.alive hp)))
    exact held.frame _ _ t.env t.host
  | died e t he => exact between_fatal he t

theorem Surfaced.between {i : Instr} {s t : State} (h : Surfaced i s t) (hs : Between s) : Between t := by
  have refreshed {R : Run} {ops : List Byte} {n : Nat} (ho : s.owned = true)
      (hp : s.pstate = .ready ∨ s.pstate = .displaying)
      (hr : Ended ops n .refreshTimeoutError [.displaying] .ready s R) : Between (endSurface R) :=
    hr.between hs ho (by rcases hp with hp | hp <;> simp [hp, holds]) rfl
  cases h with
  | failed e => exact hs.frame _ _ s.env s.host
  | converted image => exact hs.frame _ _ s.env s.host
  | init R _ hp hr => exact hr.between hs (inited_owned hp) (by rcases hp with ⟨-, hp⟩ | ⟨-, hp⟩ <;> simp [hp])
  | display R _ ho hp hr => exact refreshed ho hp hr
  | displayBlack R _ ho hp hr => exact refreshed ho hp hr
  | sleep R _ ho hp hr => exact hr.between hs ho (by simp [hp, holds]) rfl
  | exit => exact between_of_exited rfl rfl rfl rfl

/-- Settles O57: by `Surfaced.between` where the host's action is an operation; no other whole action but the block
reset touches the registers. -/
theorem registerInvariantsAreKept : Obligations.RegisterInvariantsAreKept := by
  intro s t hs ⟨idle, whole⟩ h
  have rest {a : HostAction} {later : List HostAction} (hh : s.host = a :: later) :
      wholeAction a = true ∧ ∀ b ∈ later, wholeAction b = true := by simpa [hh] using whole
  cases stepped h with
  | silent => exact ⟨hs, idle, whole⟩
  | exec i a later _ _ hh hi he =>
    obtain ⟨ha, hl⟩ := rest hh
    have surface : isSurface i = true := by
      rcases hi with hi | ⟨f, b, rfl⟩
      · exact hi
      · cases ha
    have finished := exec_finished he
    exact ⟨(surfaced surface he).between (hs.frame s.res s.answer s.env later), finished.upc.trans idle,
      by rw [finished.host]; exact hl⟩
  | began a later l b _ hh ha => subst ha; cases (rest hh).1
  | await later _ hh => exact ⟨hs.frame s.res s.answer s.env later, idle, (rest hh).2⟩
  | status r later _ hh =>
    rw [readStatus_eq]
    exact ⟨hs.frame s.res _ _ later, idle, (rest hh).2⟩
  | reset later _ hh =>
    obtain ⟨n, hh⟩ := hh
    exact ⟨(between_resetWith s.cfg).frame .ok none s.env later, rfl, (rest hh).2⟩
  | advance l host _ hl => rw [idle] at hl; cases hl

end Sys2Proof.Machine

namespace Sys2Proof.Machine

/-! ### Fatal ends (60_exceptions.md R267, R269, R270) -/

/-- Settles O42: of the ends of an operation only `ExecEnd.died` has a fatal code, and its state is `fatal_eq`'s. -/
theorem fatalCodesTakeTheFatalPath : Obligations.FatalCodesTakeTheFatalPath := by
  intro i s t a h ha hc
  cases exec_end h with
  | answered u r c v ran hn =>
    cases ha
    exact absurd (hc.imp_right .symm) hn
  | died u e he ran same =>
    cases ha
    obtain ⟨l, hl⟩ := ran.grown.trace
    have cfg := ran.grown.cfg
    rw [fatal_eq]
    exact ⟨rfl, rfl, rfl, rfl, rfl, rfl, by simp only [cfg], by simp only [cfg], l,
      by simp only [hl, cfg, stateEvents, same]⟩

/-! ### The codes of surface operations (41_command_framer.md R154) -/

/-- The code a run ends with. -/
def Run.code : Run → ResultCode
  | .ok _ => .ok
  | .raised e _ => e

@[simp] theorem endSurface_answer (R : Run) : (endSurface R).answer = some ⟨R.code, .none⟩ := by cases R <;> rfl

theorem Ended.code {ops : List Byte} {n : Nat} {e : ResultCode} {during : List PState} {final : PState} {s : State}
    {R : Run} (h : Ended ops n e during final s R) : R.code ∈ [.ok, e, .transportError, .interrupted] := by
  cases h with
  | ok t => simp [Run.code]
  | timeout t => simp [Run.code]
  | died e t he => rcases he with rfl | rfl <;> simp [Run.code]

theorem InitEnded.code {n : Nat} {s : State} {R : Run} (h : InitEnded n s R) :
    R.code ∈ [.ok, .transportError, .interrupted, .initError] := by
  cases h with
  | ok t => simp [Run.code]
  | died e t he => rcases he with rfl | rfl | rfl <;> simp [Run.code]

/-- The codes of the host port: all but `ProtocolError`. -/
theorem Surfaced.code {i : Instr} {s t : State} (h : Surfaced i s t) :
    ∃ c v, t.answer = some ⟨c, v⟩ ∧ c ≠ .protocolError := by
  have run {R : Run} {l : List ResultCode} (hR : R.code ∈ l) (hl : .protocolError ∉ l) :
      ∃ c v, (endSurface R).answer = some ⟨c, v⟩ ∧ c ≠ .protocolError :=
    ⟨R.code, .none, endSurface_answer R, fun hp => hl (hp ▸ hR)⟩
  cases h with
  | failed e he => exact ⟨e, .none, rfl, by rcases he with rfl | ⟨rfl, -⟩ | ⟨rfl, -⟩ <;> decide⟩
  | converted image => exact ⟨.ok, _, rfl, by decide⟩
  | init R _ _ hr => exact run hr.code (by decide)
  | display R _ _ _ hr => exact run hr.code (by decide)
  | displayBlack R _ _ _ hr => exact run hr.code (by decide)
  | sleep R _ _ _ hr => exact run hr.code (by decide)
  | exit => exact ⟨.ok, .none, rfl, by decide⟩

/-- Settles O43 by `Surfaced.code`. -/
theorem noSurfaceProtocolError : Obligations.NoSurfaceProtocolError := by
  intro i s t a hi h ha
  obtain ⟨c, v, hc, hp⟩ := (surfaced hi h).code
  cases hc.symm.trans ha
  exact hp

/-! ### What every step keeps: `K` in range, the beginning of `TRACE`, `CFG` (R41, R45, 00_scope.md R9) -/

theorem ExecEnd.k {s t : State} (h : ExecEnd s t) (hk : s.k ≤ s.cfg.nPollMax.val) : t.k ≤ s.cfg.nPollMax.val := by
  cases h with
  | answered u r c v ran => exact ran.k hk
  | died u e he ran => rw [fatal_eq]; exact ran.k hk

/-- Settles O51 by `ExecEnd.k`. -/
theorem pollCountStaysInRange : Obligations.PollCountStaysInRange := fun _ _ _ h => (exec_end h).k

theorem Finished.trace {s t : State} (h : Finished s t) : ∃ l, t.trace = s.trace ++ l := by
  cases h with
  | answered u r a g => exact g.trace
  | died u e he g =>
    obtain ⟨l, hl⟩ := g.trace
    exact ⟨l ++ (releaseEvents u.cfg ++ stateEvents u.pstate .exited), by rw [fatal_eq]; simp [hl]⟩

/-- Settles O52: of the steps only the block reset does not append. -/
theorem traceOnlyGrows : Obligations.TraceOnlyGrows := by
  intro s t h
  cases stepped h with
  | silent | began | await => exact .inl ⟨[], (List.append_nil _).symm⟩
  | exec i a later _ _ _ _ he => exact .inl (exec_finished he).trace
  | status r later => rw [readStatus_eq]; exact .inl ⟨[], (List.append_nil _).symm⟩
  | reset later strikes => exact .inr ⟨rfl, strikes⟩
  | advance l host _ _ ha => exact .inl (moved_advance ha).trace

/-- Settles O53: this is `step_cfg`. -/
theorem nothingWritesTheConfiguration : Obligations.NothingWritesTheConfiguration := fun _ _ => step_cfg

/-! ### The transitions of `PSTATE` (R34, R193) -/

theorem endRaised_pstate_of_fatal {e : ResultCode} (he : IsFatal e) (u : State) : (endRaised e u).pstate = .exited := by
  rw [fatal_end he, fatal_eq]

theorem Ended.pstate {ops : List Byte} {n : Nat} {during : List PState} {final : PState} {s : State} {R : Run}
    (h : Ended ops n .refreshTimeoutError during final s R) :
    (endSurface R).pstate ∈ s.pstate :: final :: .exited :: during := by
  cases h with
  | ok t w p => simp [endSurface, endSurfaceOk, p]
  | timeout t w p =>
    have : (endSurface (.raised .refreshTimeoutError t)).pstate = t.pstate := rfl
    simp only [List.mem_cons] at p ⊢
    tauto
  | died e t he =>
    have : (endSurface (.raised e t)).pstate = .exited := endRaised_pstate_of_fatal (he.imp_right .inl) t
    simp [this]

theorem InitEnded.pstate {n : Nat} {s : State} {R : Run} (h : InitEnded n s R) :
    (endSurface R).pstate = .ready ∨ (endSurface R).pstate = .exited := by
  cases h with
  | ok t w p => exact .inl p
  | died e t he => exact .inr (endRaised_pstate_of_fatal he t)

/-- Settles O55 from the ends of each listing. -/
theorem onlyLegalTransitions : Obligations.OnlyLegalTransitions := by
  intro i s t hi h
  have refreshed {R : Run} {ops : List Byte} {n : Nat}
      (hr : Ended ops n .refreshTimeoutError [.displaying] .ready s R) :
      (endSurface R).pstate = s.pstate ∨
      ((endSurface R).pstate = .ready ∨ (endSurface R).pstate = .displaying ∨ (endSurface R).pstate = .exited) := by
    have := hr.pstate
    simp only [List.mem_cons, List.not_mem_nil, or_false] at this
    tauto
  cases surfaced hi h with
  | failed | converted => exact .inl rfl
  | init R hi hs hr => exact .inr (.inl ⟨hi, hs.imp And.right And.right, hr.pstate⟩)
  | display R hi _ hs hr =>
    exact (refreshed hr).imp_right fun ht => .inr (.inl ⟨hi.imp_right .inl, hs, ht⟩)
  | displayBlack R hi _ hs hr =>
    exact (refreshed hr).imp_right fun ht => .inr (.inl ⟨.inr (.inr hi), hs, ht⟩)
  | sleep R hi _ hs hr =>
    have := hr.pstate
    simp only [List.mem_cons, List.not_mem_nil, or_false] at this
    exact this.imp_right fun ht => .inr (.inr (.inl ⟨hi, hs, ht⟩))
  | exit hi _ hs => exact .inr (.inr (.inr (.inr ⟨hi, hs, rfl⟩)))

/-! ### The frame of the refreshes and of `sleep` -/

/-- What `clear`, `display`, `displayBlack` and `sleep` leave alone unless they take the fatal path. -/
def LinesKept (s t : State) : Prop :=
  t.pinRst = s.pinRst ∧ t.owned = s.owned ∧ t.driven = s.driven ∧ t.fatal = s.fatal

theorem Ended.linesKept {ops : List Byte} {n : Nat} {during : List PState} {final : PState} {s : State} {R : Run}
    (h : Ended ops n .refreshTimeoutError during final s R) (ht : R.code ≠ .transportError)
    (hi : R.code ≠ .interrupted) : LinesKept s (endSurface R) := by
  cases h with
  | ok t w => exact ⟨w.pinRst, w.owned, w.driven, w.fatal⟩
  | timeout t w => exact ⟨w.pinRst, w.owned, w.driven, w.fatal⟩
  | died e t he =>
    rcases he with rfl | rfl
    · exact absurd rfl ht
    · exact absurd rfl hi

/-- Settles O56: the configuration, `UPC` and the script as after any operation, the rest by `Ended.linesKept`. -/
theorem refreshAndSleepFrame : Obligations.RefreshAndSleepFrame := by
  intro i s t black red hi h
  have finished := exec_finished h
  refine ⟨finished.cfg, finished.upc, finished.host, fun hc => ?_⟩
  have ended {R : Run} {ops : List Byte} {n : Nat} {during : List PState} {final : PState}
      (hc : ∀ c ∈ [ResultCode.transportError, .interrupted], (endSurface R).answer ≠ some ⟨c, .none⟩)
      (hr : Ended ops n .refreshTimeoutError during final s R) : LinesKept s (endSurface R) :=
    hr.linesKept (fun e => hc .transportError (by simp) (by rw [endSurface_answer, e]))
      (fun e => hc .interrupted (by simp) (by rw [endSurface_answer, e]))
  simp only [List.mem_cons, List.not_mem_nil, or_false] at hi
  have surface : isSurface i = true := by rcases hi with rfl | rfl | rfl | rfl <;> rfl
  cases surfaced surface h with
  | failed | converted => exact ⟨rfl, rfl, rfl, rfl⟩
  | init R hi' | exit hi' => subst hi'; simp at hi
  | display R _ _ _ hr | displayBlack R _ _ _ hr | sleep R _ _ _ hr => exact ended hc hr

/-! ### What an operation appends to `TRACE`; `displayBlack` and the red plane (R202, R52) -/

theorem releaseEvents_noWrite (c : Cfg) (p q : PState) :
    ∀ e ∈ releaseEvents c ++ stateEvents p q, isWrite e = false := by
  unfold releaseEvents stateEvents
  split <;> simp [isWrite]

theorem fatal_trace (e : ResultCode) (u : State) :
    (fatal e u).trace = u.trace ++ (releaseEvents u.cfg ++ stateEvents u.pstate .exited) := by
  rw [fatal_eq, List.append_assoc]

theorem releaseEvents_length_le (c : Cfg) (p q : PState) : (releaseEvents c ++ stateEvents p q).length ≤ 4 := by
  unfold releaseEvents stateEvents
  split <;> simp

/-- What a listing's end appends: what the listing did, and four events more at most. -/
theorem Ended.wrote {ops : List Byte} {n : Nat} {during : List PState} {final : PState} {s : State} {R : Run}
    (h : Ended ops n .refreshTimeoutError during final s R) :
    ∃ l, (endSurface R).trace = s.trace ++ l ∧ Wrote s.cfg ops (n + 4) l := by
  cases h with
  | ok t w =>
    obtain ⟨l, hl, hw⟩ := w.trace
    exact ⟨l, hl, hw.mono (by omega)⟩
  | timeout t w =>
    obtain ⟨l, hl, hw⟩ := w.trace
    exact ⟨l, hl, hw.mono (by omega)⟩
  | died e t he w =>
    obtain ⟨l, hl, hw⟩ := w.trace
    have released : Wrote s.cfg ops 4 (releaseEvents t.cfg ++ stateEvents t.pstate .exited) :=
      wrote_noWrite (releaseEvents_length_le _ _ _) (releaseEvents_noWrite _ _ _)
    refine ⟨_, ?_, hw.append released⟩
    rw [endSurface, fatal_end (he.imp_right .inl)]
    simp only [fatal_trace, hl, List.append_assoc]

theorem Surfaced.displayBlack_wrote {black : Plane} {s t : State} (h : Surfaced (.displayBlack black) s t) :
    ∃ l, t.trace = s.trace ++ l ∧
      Wrote s.cfg [s.cfg.cmdBlack, s.cfg.refresh.op] (2 * (2 * s.cfg.nPollMax.val - 1) + 1 + 8 + 4) l := by
  cases h with
  | failed | converted => exact ⟨[], (List.append_nil _).symm, wrote_noWrite (by simp) (by simp)⟩
  | displayBlack R _ _ _ hr => exact hr.wrote
  | init R hi | sleep R hi | exit hi => cases hi
  | display R hi => rcases hi with hi | ⟨_, _, hi⟩ <;> cases hi

theorem redContent_append {c : Cfg} {l : List Event} (h : RedSame c l) (trace : List Event) :
    redContent c (trace ++ l) = redContent c trace := by
  rw [redContent, List.foldl_append, h, redContent]

/-- Settles O49: the commands that may stand in the events appended are the black plane's and the refresh's. -/
theorem displayBlackLeavesRedAlone : Obligations.DisplayBlackLeavesRedAlone := by
  intro s t black h hb hr
  obtain ⟨l, hl, wrote⟩ := (surfaced rfl h).displayBlack_wrote
  have red : s.cfg.cmdRed ∉ [s.cfg.cmdBlack, s.cfg.refresh.op] := by simp [hb.symm, hr.symm]
  rw [hl]
  exact ⟨⟨l, rfl, fun e he => Bool.eq_false_iff.2 fun hc => red (wrote.only e he _ hc)⟩,
    redContent_append (wrote.red red) _⟩

end Sys2Proof.Machine

namespace Sys2Proof.Machine

/-! ### Bounds on the events an operation appends (43_panel_driver.md R212) -/

/-- `t`'s trace is at most `n` events longer than `s`'s. -/
def Appends (n : Nat) (s t : State) : Prop := t.trace.length ≤ s.trace.length + n

theorem appends_of_append {n : Nat} {s t : State} {l : List Event} (h : t.trace = s.trace ++ l) (hl : l.length ≤ n) :
    Appends n s t := by
  rw [Appends, h, List.length_append]
  omega

theorem Ended.appends {ops : List Byte} {n : Nat} {during : List PState} {final : PState} {s : State} {R : Run}
    (h : Ended ops n .refreshTimeoutError during final s R) : Appends (n + 4) s (endSurface R) := by
  obtain ⟨l, hl, wrote⟩ := h.wrote
  exact appends_of_append hl wrote.len

theorem InitEnded.appends {n : Nat} {s : State} {R : Run} (h : InitEnded n s R) : Appends (n + 4) s (endSurface R) := by
  cases h with
  | ok t w =>
    obtain ⟨l, hl, hn⟩ := w.trace
    exact appends_of_append hl (by omega)
  | died e t he w =>
    obtain ⟨l, hl, hn⟩ := w.trace
    refine appends_of_append (l := l ++ (releaseEvents t.cfg ++ stateEvents t.pstate .exited)) ?_ ?_
    · rw [endSurface, fatal_end he]
      simp only [fatal_trace, hl, List.append_assoc]
    · have := releaseEvents_length_le t.cfg t.pstate .exited
      rw [List.length_append]
      omega

theorem appends_inited (s : State) : Appends 1 s (inited s) := by
  unfold inited
  split <;> simp [Appends]

/-- The events each operation of the host port may append. -/
def eventBound (c : Cfg) : Instr → Nat
  | .init => 1 + 4 + 4 * c.initSeq.length + 2 * (2 * c.nPollMax.val - 1) + 4
  | .clear | .display _ _ => 2 * (2 * c.nPollMax.val - 1) + 1 + 12 + 4
  | .displayBlack _ => 2 * (2 * c.nPollMax.val - 1) + 1 + 8 + 4
  | .sleep => (2 * c.nPollMax.val - 1) + 4 + 4
  | .exit => 4
  | _ => 0

theorem stateEvents_exited {p : PState} (hp : p = .ready ∨ p = .displaying ∨ p = .sleeping) :
    stateEvents p .exited = [.pstate .exited] := by
  rcases hp with rfl | rfl | rfl <;> rfl

theorem exit_trace {s : State} (hs : s.pstate = .ready ∨ s.pstate = .displaying ∨ s.pstate = .sleeping) :
    (endSurfaceOk (afterExit s)).trace.length = s.trace.length + 4 := by
  show (s.trace ++ releaseEvents s.cfg ++ stateEvents s.pstate .exited).length = _
  rw [stateEvents_exited hs]
  simp [releaseEvents]

theorem Surfaced.appends {i : Instr} {s t : State} (h : Surfaced i s t) : Appends (eventBound s.cfg i) s t := by
  cases h with
  | failed | converted => exact Nat.le_add_right _ _
  | init R hi _ hr =>
    subst hi
    have run := hr.appends
    have start := appends_inited s
    simp only [Appends, eventBound] at run start ⊢
    omega
  | display R hi _ _ hr => rcases hi with rfl | ⟨_, _, rfl⟩ <;> exact hr.appends
  | displayBlack R hi _ _ hr => obtain ⟨_, rfl⟩ := hi; exact hr.appends
  | sleep R hi _ _ hr => subst hi; exact hr.appends
  | exit hi _ hs => subst hi; exact (exit_trace hs).le

/-- A successful `exit` releases and enters Exited. -/
theorem Surfaced.exit_appends {s t : State} (h : Surfaced .exit s t) (hok : t.answer = some ⟨.ok, .none⟩) :
    t.trace.length = s.trace.length + 4 := by
  cases h with
  | failed e he =>
    obtain rfl : e = .ok := by simpa using hok
    simp at he
  | exit _ _ hs => exact exit_trace hs
  | converted _ hi | init R hi | sleep R hi => cases hi
  | display R hi => rcases hi with hi | ⟨_, _, hi⟩ <;> cases hi
  | displayBlack R hi => obtain ⟨_, hi⟩ := hi; cases hi

/-- A wait that is not interrupted takes no fatal path. -/
theorem waitNotBusy_appends {s t : State} (h : exec .waitNotBusy s = .next t) (hok : ∃ v, t.answer = some ⟨.ok, v⟩) :
    Appends (2 * s.cfg.nPollMax.val - 1) s t := by
  have ended : endWait (waitNotBusy s) = t := by
    simp only [exec, execWaitNotBusy, onBus] at h
    split at h <;> cases h
    rfl
  obtain ⟨l, hl, hn, -⟩ := (polled_waitNotBusy s).trace
  cases hw : waitNotBusy s with
  | interrupted u =>
    obtain ⟨v, hv⟩ := hok
    rw [hw] at ended
    subst ended
    cases hv
  | ready u | timeout u =>
    rw [hw] at ended hl
    subst ended
    exact appends_of_append hl hn

/-- Settles O50: `Surfaced.appends` for the operations of the host port, the polls of a wait for `WaitNotBusy`. -/
theorem operationsAreBounded : Obligations.OperationsAreBounded := by
  intro s t black red image
  have bound {i : Instr} (hi : isSurface i = true) (h : exec i s = .next t) : Appends (eventBound s.cfg i) s t :=
    (surfaced hi h).appends
  refine ⟨waitNotBusy_appends, bound (i := .init) rfl, ?refreshes, bound (i := .displayBlack black) rfl,
    bound (i := .sleep) rfl, bound (i := .exit) rfl, fun h => (surfaced rfl h).exit_appends, ?getbuffer⟩
  case refreshes =>
    intro i hi h
    simp only [List.mem_cons, List.not_mem_nil, or_false] at hi
    rcases hi with rfl | rfl
    · exact bound (i := .clear) rfl h
    · exact bound (i := .display black red) rfl h
  case getbuffer =>
    intro h
    cases h
    rfl

end Sys2Proof.Machine

namespace Sys2Proof.Machine

/-! ### Plane writes and packing (30_encoding.md R103, 42_frame_packer.md R171, R172, R178) -/

theorem isPlaneWrite_iff {c : Cfg} {op : Byte} {frame : List Byte} : isPlaneWrite c op frame = true ↔
    (op = c.cmdBlack ∨ op = c.cmdRed) ∧
      ∃ p : Plane, p.wellFormed = true ∧ p.w = c.width.val ∧ p.h = c.height.val ∧ packRaw p = frame := by
  rw [isPlaneWrite, Bool.and_eq_true, isPackedFrame_iff, Bool.or_eq_true, beq_iff_eq, beq_iff_eq]

/-- A frame with data sent whole, as one update. -/
theorem afterFrame_of_data {f : CommandFrame} (hd : f.data ≠ []) (s : State) : afterFrame f s = { s with
    mode := .data, pinDc := dcData s.cfg, pinCs := !s.cfg.csActive, env := advanceEnv s.env 0 2 0
    trace := s.trace ++
      [.gpio .dc s.cfg.dcCmd, .spi s.cfg.dcCmd [f.op], .gpio .dc (dcData s.cfg), .spi (dcData s.cfg) f.data] } := by
  simp [afterFrame, modeAfter, dcAfter, writesOf, frameEvents, commandEvents, dataEvents, hd]

/-- Settles O20: `isPlaneWrite_iff` says which bytes go out, `planeWrite_ok` how. -/
theorem planeWritesCarryAWholeFrame : Obligations.PlaneWritesCarryAWholeFrame := by
  refine fun s op frame ho => ⟨fun hop hp hw => ?sent, fun hn => ?refused⟩
  case sent =>
    obtain ⟨p, -, pw, ph, rfl⟩ := id hp
    have ne : packRaw p ≠ [] := packRaw_ne s.cfg p (fits_iff.2 ⟨pw, ph⟩)
    rw [exec, execWirePlaneWrite, if_pos (isPlaneWrite_iff.2 ⟨hop, hp⟩), onBus_held ho, planeWrite_ok ne hw,
      afterFrame_of_data (f := ⟨op, packRaw p⟩) ne]
    rfl
  case refused =>
    rw [exec, execWirePlaneWrite, if_neg (mt isPlaneWrite_iff.1 hn)]

/-- A cell of the plane is its bit of the packed byte it stands in. -/
theorem packRaw_cell (p : Plane) {r x : Nat} (hr : r < p.h) (hx : x < p.w) :
    ∃ b, (packRaw p)[r * ((p.w + 7) / 8) + x / 8]? = some b ∧ byteCell b (x % 8) = cellAt p r x := by
  refine ⟨_, packRaw_get p r (x / 8) hr (by omega), ?_⟩
  have cell := frameCell_packRaw p r x hr (by unfold ceilDiv8; omega)
  rwa [frameCell, List.getD_eq_getElem?_getD, ceilDiv8, packRaw_get p r (x / 8) hr (by omega), Option.getD_some] at cell

theorem pixel_index_lt {p : Plane} (hw : p.wellFormed = true) {r c : Nat} (hr : r < p.h) (hc : c < p.w) :
    r * p.w + c < p.px.length := by
  have len : p.px.length = p.w * p.h := by simpa [Plane.wellFormed] using hw
  calc r * p.w + c < r * p.w + p.w := by omega
    _ = p.w * (r + 1) := by ring
    _ ≤ p.px.length := len ▸ Nat.mul_le_mul_left _ hr

theorem pixel_eq_cellAt {p : Plane} (hw : p.wellFormed = true) {r c : Nat} (hr : r < p.h) (hc : c < p.w) :
    p.px[r * p.w + c]? = some (cellAt p r c) := by
  have lt := pixel_index_lt hw hr hc
  rw [cellAt, if_pos hc, pixelAt, List.getD_eq_getElem _ _ lt, List.getElem?_eq_getElem lt]

theorem packRaw_pixel {p : Plane} (hw : p.wellFormed = true) {r c : Nat} (hr : r < p.h) (hc : c < p.w) :
    ∃ b, (packRaw p)[r * ((p.w + 7) / 8) + c / 8]? = some b ∧ p.px[r * p.w + c]? = some (b.getLsbD (7 - c % 8)) := by
  obtain ⟨b, hb, cell⟩ := packRaw_cell p hr hc
  exact ⟨b, hb, by rw [pixel_eq_cellAt hw hr hc, ← cell]; rfl⟩

theorem plane_eq_of_packRaw {p q : Plane} (hp : p.wellFormed = true) (hq : q.wellFormed = true) (hw : p.w = q.w)
    (hh : p.h = q.h) (h : packRaw p = packRaw q) : p = q := by
  obtain ⟨w, h', px⟩ := p
  obtain ⟨_, _, qx⟩ := q
  cases hw
  cases hh
  have plen : px.length = w * h' := by simpa [Plane.wellFormed] using hp
  have qlen : qx.length = w * h' := by simpa [Plane.wellFormed] using hq
  rw [Plane.mk.injEq]
  refine ⟨rfl, rfl, List.ext_getElem? fun i => ?_⟩
  by_cases hi : i < w * h'
  · have hr : i / w < h' := Nat.div_lt_of_lt_mul hi
    have hc : i % w < w := Nat.mod_lt _ (Nat.pos_of_mul_pos_right (Nat.zero_lt_of_lt hi))
    obtain ⟨b, hb, pixel⟩ := packRaw_pixel hp hr hc
    obtain ⟨b', hb', pixel'⟩ := packRaw_pixel hq hr hc
    cases (h ▸ hb).symm.trans hb'
    have at_i : i / w * w + i % w = i := Nat.div_add_mod' i w
    simp only [at_i] at pixel pixel'
    rw [pixel, pixel']
  · rw [List.getElem?_eq_none (by omega), List.getElem?_eq_none (by omega)]

/-- Settles O23: each pixel is read off the frame, and so the frame determines the plane. -/
theorem packingLosesNothing : Obligations.PackingLosesNothing :=
  ⟨fun _ _ _ hw hr hc => packRaw_pixel hw hr hc, fun _ _ hp hq hw hh h => plane_eq_of_packRaw hp hq hw hh h⟩

/-- Settles O25: `pack` accepts the panel's dimensions alone. -/
theorem packChecksTheDimensions : Obligations.PackChecksTheDimensions := by
  refine fun s p => ⟨fun hw hh => ?fits, fun hn => ?rejected⟩
  case fits =>
    have : pack s.cfg p = some (packRaw p) := if_pos (fits_iff.2 ⟨hw, hh⟩)
    rw [exec, execPack, this]
    rfl
  case rejected =>
    have : fits s.cfg p = false := Bool.eq_false_iff.2 fun hf => by have := fits_iff.1 hf; tauto
    rw [exec, execPack, pack_eq_none this]
    rfl

theorem packRaw_allInactive (c : Cfg) :
    packRaw (allInactive c) = List.replicate ((c.width.val + 7) / 8 * c.height.val) 0xFF#8 :=
  packRaw_of_inactive fun _ hb => List.eq_of_mem_replicate hb

theorem pack_allInactive (c : Cfg) :
    pack c (allInactive c) = some (List.replicate ((c.width.val + 7) / 8 * c.height.val) 0xFF#8) := by
  rw [pack, if_pos (fits_inactive c), packRaw_allInactive]

/-- Settles O26: the plane is `allInactive`, and every cell of its frame is 1. -/
theorem allInactivePacksToOnes : Obligations.AllInactivePacksToOnes := fun s => ⟨rfl, pack_allInactive s.cfg⟩

/-- Settles O27: neither operation looks at the state. -/
theorem packRawAndPackedByteAnswer : Obligations.PackRawAndPackedByteAnswer :=
  fun _ _ a b c d e f g h => ⟨rfl, cellsByte a b c d e f g h, by simp [cellsByte_toNat], rfl⟩

/-! ### Frames sent by a direct call (R153; log entry 8) -/

/-- The three rows that send a frame. -/
theorem exec_frame_held {s : State} (ho : s.owned = true) {f : CommandFrame} {i : Instr}
    (hi : i ∈ [Instr.sendFrame f, .wireCmdFrame f, .cfgFrame f]) :
    exec i s = .next (endLayer .none (runList (listSendFrame s.cfg f) s)) := by
  simp only [List.mem_cons, List.not_mem_nil, or_false] at hi
  rcases hi with rfl | rfl | rfl <;> exact onBus_held ho _

/-- Settles O19: a frame has the two ends of `sendFrame_cases`, and goes out whole if its writes succeed. -/
theorem framesGoOutWhole : Obligations.FramesGoOutWhole := by
  refine fun s f ho i hi => ⟨fun hw => ?_, ?_⟩ <;> rw [exec_frame_held ho hi]
  · rw [runList_sendFrame_ok hw, endLayer, afterFrame, frameEvents, ← List.append_assoc]
    rfl
  · rcases sendFrame_cases f (rfl : s.cfg = s.cfg) with h | ⟨t, h, -⟩ <;> rw [h]
    · exact ⟨_, rfl, .inl rfl⟩
    · exact ⟨_, rfl, .inr rfl⟩

/-- Settles O16: `onBus` and `acquire` ask for the handle before anything else. -/
theorem transportNeedsTheHandle : Obligations.TransportNeedsTheHandle :=
  fun _ _ _ _ _ ho => ⟨onBus_free ho _, onBus_free ho _, onBus_free ho _, onBus_free ho _, onBus_free ho _,
    onBus_free ho _, fun _ ht => if_pos ht⟩

end Sys2Proof.Machine

namespace Sys2Proof.Machine

/-! ### `WAIT_NOT_BUSY` (43_panel_driver.md R190) -/

theorem exec_waitNotBusy_held {s : State} (h : s.owned = true) :
    exec .waitNotBusy s = .next (endWait (poll s.cfg.nPollMax.pred (clearK s))) := onBus_held h _

theorem pos_val_eq (p : Pos) : p.val = p.pred + 1 := rfl

/-- Settles O28: the first ready sample, or none of them. -/
theorem waitNotBusyPollsTheLine : Obligations.WaitNotBusyPollsTheLine := by
  refine fun s ho => ⟨fun n hn hb hr hi => ?ready, fun hb hi => ?timeout⟩ <;> rw [exec_waitNotBusy_held ho]
  case ready =>
    rw [poll_ready_after (s := clearK s) (Nat.le_of_lt_succ hn) hb hr hi]
    simp [endWait, present, clearK]
  case timeout =>
    have samples : 2 * s.cfg.nPollMax.val - 1 = 2 * s.cfg.nPollMax.pred + 1 := by rw [pos_val_eq]; omega
    rw [samples] at hi ⊢
    rw [poll_timeout (s := clearK s) hb hi]
    simp [endWait, present, clearK, pos_val_eq]

/-- Settles O29: the interrupt at a sample, and at the delay after it. -/
theorem waitNotBusyIsInterruptible : Obligations.WaitNotBusyIsInterruptible := by
  refine fun s n ho hn => ⟨fun hb hi h => ?sample, fun hn' hb hi h => ?delay⟩ <;>
    rw [exec_waitNotBusy_held ho]
  case sample =>
    rw [poll_interrupted_at_sample (s := clearK s) (Nat.le_of_lt_succ hn) hb hi h, endWait,
      fatal_end (.inr (.inl rfl))]
    simp [clearK]
  case delay =>
    rw [poll_interrupted_at_delay (s := clearK s) (Nat.lt_of_succ_lt_succ hn') hb hi h, endWait,
      fatal_end (.inr (.inl rfl))]
    simp [clearK]

/-! ### The operations whose checks pass: the run of their listing -/

theorem exec_display_run {s : State} {black red : Plane} (hp : s.pstate = .ready ∨ s.pstate = .displaying)
    (ho : s.owned = true) (hb : fits s.cfg black = true) (hr : fits s.cfg red = true) :
    exec (.display black red) s =
      .next (endSurface (runList (listDisplay s.cfg (packRaw black) (packRaw red)) s)) := by
  rw [exec, execDisplay, planDisplay_run hp ho hb hr, runPlan]

theorem exec_displayBlack_run {s : State} {black : Plane} (hp : s.pstate = .ready ∨ s.pstate = .displaying)
    (ho : s.owned = true) (hb : fits s.cfg black = true) :
    exec (.displayBlack black) s = .next (endSurface (runList (listDisplayBlack s.cfg (packRaw black)) s)) := by
  rw [exec, execDisplayBlack, planDisplayBlack_run hp ho hb, runPlan]

theorem exec_sleep_run {s : State} (hp : s.pstate = .ready) (ho : s.owned = true) :
    exec .sleep s = .next (endSurface (runList (listSleep s.cfg) s)) := by
  simp [exec, execSleep, planSleep, hp, checkState, planOnBus, ho, runPlan]

theorem exec_exit_run {s : State} (hp : s.pstate = .ready ∨ s.pstate = .displaying ∨ s.pstate = .sleeping)
    (ho : s.owned = true) : exec .exit s = .next (endSurfaceOk (afterExit s)) := by
  rcases hp with hp | hp | hp <;>
    simp [exec, execExit, planExit, hp, checkState, planOnBus, ho, runPlan, runList_exit, endSurface]

/-- `init` once the handle is held, from its reset pulse on. -/
theorem exec_init_run {s : State}
    (hs : s.owned = false ∧ s.pstate = .uninitialized ∨ s.owned = true ∧ s.pstate = .displaying) :
    exec .init s = .next (endSurface (runList (listReset s.cfg ++ .wait .initError ::
      s.cfg.initSeq.flatMap (listSendFrame s.cfg) ++ [.wait .initError, .setState .ready]) (inited s))) := by
  have plan : planInit s = .run (listInit s.cfg) := by
    rcases hs with ⟨ho, hp⟩ | ⟨ho, hp⟩ <;> simp [planInit, planOnBus, checkState, ho, hp]
  rw [exec, execInit, plan]
  rfl

theorem inited_of_uninitialized {s : State} (h : s.pstate = .uninitialized) : inited s = acquire s := if_pos h

theorem inited_of_displaying {s : State} (h : s.pstate = .displaying) : inited s = s := if_neg (by simp [h])

/-- `clear` and `display` are legal in the same states, so `clear` is a display of inactive planes (R195). -/
theorem exec_clear (s : State) : exec .clear s = exec (.display (allInactive s.cfg) (allInactive s.cfg)) s := by
  have same : checkState .clear s.pstate = checkState .display s.pstate := by cases s.pstate <;> rfl
  simp only [exec, execClear, planClear, execDisplay, planDisplay, planTwoPlanes, same]

/-! ### Good runs in a quiet environment -/

theorem QuietFor.writes {n m : Nat} {s : State} (h : QuietFor n s) (hm : m ≤ n) : WritesSucceedFor m s :=
  fun j hj => (h j (by omega)).2.1

theorem QuietFor.noInterrupt {n m : Nat} {s : State} (h : QuietFor n s) (hm : m ≤ n) : NoInterruptFor m s :=
  fun j hj => (h j (by omega)).2.2

theorem QuietFor.intr {n j : Nat} {s : State} (h : QuietFor n s) (hj : j < n) : intrAt s.env j = false := (h j hj).2.2

theorem QuietFor.ready {n j : Nat} {s : State} (h : QuietFor n s) (hj : j < n) : busyAt s.env j ≠ s.cfg.busyActive :=
  (h j hj).1

/-- The last wait of an operation, ready at once, and the entry into Ready. -/
theorem runList_lastWait_ready {e : ResultCode} {s : State} (hi : intrAt s.env 0 = false)
    (hb : busyAt s.env 0 ≠ s.cfg.busyActive) :
    runList [.wait e, .setState .ready] s =
      .ok (setState .ready { s with k := 0, trace := s.trace ++ [.busy false], env := advanceEnv s.env 1 0 1 }) := by
  rw [runList_cons_ok (runMicro_wait_ready_now hi hb)]
  rfl

/-- Settles O30 by `init_tail` from the state in which the handle is held. -/
theorem initEndsReady : Obligations.InitEndsReady := by
  refine fun s hq => ⟨fun hp ho => ?first, fun hp ho hc => ?again⟩
  case first =>
    rw [exec_init_run (.inl ⟨ho, hp⟩), inited_of_uninitialized hp,
      init_tail (acquire s) s.cfg rfl rfl (hq.ready (by omega)) (hq.ready (by omega)) (hq.writes (by simp))
        (hq.noInterrupt (by simp))]
    simp [endSurface, endSurfaceOk, present, setState_eq, stateEvents, hp, initEvents, acquire, emit]
  case again =>
    rw [exec_init_run (.inr ⟨ho, hp⟩), inited_of_displaying hp,
      init_tail s s.cfg rfl hc (hq.ready (by omega)) (hq.ready (by omega)) (hq.writes (by simp))
        (hq.noInterrupt (by simp))]
    simp [endSurface, endSurfaceOk, present, setState_eq, stateEvents, hp, initEvents]

/-- The state before the last wait of a refresh whose gate read ready: `writes` and the refresh frame have gone out. -/
def refreshed (writes : List CommandFrame) (s : State) : State := { s with
  pstate := .displaying, k := 0
  pinDc := dcAfter s.cfg s.cfg.refresh, pinCs := !s.cfg.csActive, mode := modeAfter s.cfg.refresh
  trace := s.trace ++ .busy false :: stateEvents s.pstate .displaying ++ writes.flatMap (frameEvents s.cfg)
    ++ frameEvents s.cfg s.cfg.refresh
  env := advanceEnv s.env 1 (2 * writes.length + writesOf s.cfg.refresh) 1 }

theorem runList_display_upto_lastWait {s : State} {black red : List Byte} (hB : black ≠ []) (hR : red ≠ [])
    (hr : busyAt s.env 0 ≠ s.cfg.busyActive) (hi : intrAt s.env 0 = false) (hw : WritesSucceedFor 6 s) :
    runList (listDisplay s.cfg black red) s = runList [.wait .refreshTimeoutError, .setState .ready]
      (refreshed [⟨s.cfg.cmdBlack, black⟩, ⟨s.cfg.cmdRed, red⟩] s) := by
  have writes := writesOf_le s.cfg.refresh
  rw [listDisplay, display_upto s black red hB hR hr hi fun j hj => hw j (by omega)]
  simp [refreshed]

theorem runList_displayBlack_upto_lastWait {s : State} {black : List Byte} (hB : black ≠ [])
    (hr : busyAt s.env 0 ≠ s.cfg.busyActive) (hi : intrAt s.env 0 = false) (hw : WritesSucceedFor 4 s) :
    runList (listDisplayBlack s.cfg black) s = runList [.wait .refreshTimeoutError, .setState .ready]
      (refreshed [⟨s.cfg.cmdBlack, black⟩] s) := by
  have writes := writesOf_le s.cfg.refresh
  rw [listDisplayBlack, dblack_upto s black hB hr hi fun j hj => hw j (by omega)]
  simp [refreshed]

theorem refreshed_ready {s : State} (writes : List CommandFrame) (hi : intrAt s.env 1 = false)
    (hb : busyAt s.env 1 ≠ s.cfg.busyActive) :
    endSurface (runList [.wait .refreshTimeoutError, .setState .ready] (refreshed writes s)) = { s with
      pstate := .ready, res := .ok, k := 0
      pinDc := dcAfter s.cfg s.cfg.refresh, pinCs := !s.cfg.csActive, mode := modeAfter s.cfg.refresh
      trace := s.trace ++ .busy false :: stateEvents s.pstate .displaying ++ writes.flatMap (frameEvents s.cfg)
        ++ frameEvents s.cfg s.cfg.refresh ++ [.busy false, .pstate .ready]
      env := advanceEnv s.env 2 (2 * writes.length + writesOf s.cfg.refresh) 2
      answer := some ⟨.ok, .none⟩ } := by
  rw [runList_lastWait_ready (by simpa [refreshed] using hi) (by simpa [refreshed] using hb)]
  simp [endSurface, endSurfaceOk, present, setState_eq, stateEvents, refreshed]

/-- Settles O31: the listing up to the last wait, and that wait ready. -/
theorem displayEndsReady : Obligations.DisplayEndsReady := by
  intro s black red hp ho hbw hbh hrw hrh hq
  have hb := fits_iff.2 ⟨hbw, hbh⟩
  have hr := fits_iff.2 ⟨hrw, hrh⟩
  rw [exec_display_run hp ho hb hr, runList_display_upto_lastWait (packRaw_ne _ _ hb) (packRaw_ne _ _ hr)
    (hq.ready (by decide)) (hq.intr (by decide)) (hq.writes (by decide)),
    refreshed_ready _ (hq.intr (by decide)) (hq.ready (by decide))]
  simp [displayEvents]

/-- Settles O32, as O31 with one plane. -/
theorem displayBlackEndsReady : Obligations.DisplayBlackEndsReady := by
  intro s black hp ho hbw hbh hq
  have hb := fits_iff.2 ⟨hbw, hbh⟩
  rw [exec_displayBlack_run hp ho hb, runList_displayBlack_upto_lastWait (packRaw_ne _ _ hb)
    (hq.ready (by decide)) (hq.intr (by decide)) (hq.writes (by decide)),
    refreshed_ready _ (hq.intr (by decide)) (hq.ready (by decide))]
  simp [displayBlackEvents]

/-- Of the surface operations only `display` and `displayBlack` can fail in the packing. -/
theorem exec_clear_answer {s t : State} (h : exec .clear s = .next t) :
    t.answer ≠ some ⟨.dimensionError, .none⟩ := by
  cases surfaced (i := .clear) rfl h with
  | failed e he =>
    rcases he with rfl | ⟨-, hi⟩ | ⟨-, _, _, hi | hi⟩
    · simp
    all_goals cases hi
  | display R _ _ _ hr =>
    intro ha
    have code := hr.code
    have dim : R.code = .dimensionError := by simpa using ha
    simp [dim] at code
  | converted _ hi | init R hi | sleep R hi | exit hi => cases hi
  | displayBlack R hi => obtain ⟨_, hi⟩ := hi; cases hi

/-- Settles O33: `exec_clear`, and O31 for the two inactive planes. -/
theorem clearDisplaysInactivePlanes : Obligations.ClearDisplaysInactivePlanes := by
  refine fun s => ⟨exec_clear s, fun t => exec_clear_answer, fun hp ho hq => ?_⟩
  rw [exec_clear, displayEndsReady s _ _ hp ho rfl rfl rfl rfl hq, packRaw_allInactive]

/-- Settles O34: the gate ready, the frame sent, and the entry into Sleeping. -/
theorem sleepEndsSleeping : Obligations.SleepEndsSleeping := by
  intro s hp ho hq
  rw [exec_sleep_run hp ho, listSleep, List.cons_append,
    runList_cons_ok (runMicro_wait_ready_now (hq.intr (by decide)) (hq.ready (by decide))),
    sendFrame_append (by rfl) (fun j hj => by simpa using hq.writes (writesOf_le s.cfg.sleep) j hj)]
  simp [runList_setState, endSurface, endSurfaceOk, present, setState_eq, stateEvents, hp, afterFrame]

/-! ### Waits that time out (R192, 60_exceptions.md R266, R267) -/

/-- A wait that times out ends its operation. -/
theorem runList_wait_timeout {e : ResultCode} {rest : List Micro} {s : State} (hb : BusyFor 0 s.cfg.nPollMax.val s)
    (hi : NoInterruptFor (2 * s.cfg.nPollMax.val - 1) s) :
    runList (.wait e :: rest) s = .raised e { s with
      k := s.cfg.nPollMax.val
      trace := s.trace ++ timeoutEvents s.cfg (s.cfg.nPollMax.val - 1)
      env := advanceEnv s.env s.cfg.nPollMax.val 0 (2 * s.cfg.nPollMax.val - 1) } :=
  runList_cons_raised (timeout_wait hb hi)

/-- The operations whose first listing step is the gate. -/
theorem exec_gated {s : State} {black red : Plane} {i : Instr} (ho : s.owned = true)
    (hi : (s.pstate = .ready ∨ s.pstate = .displaying) ∧ fits s.cfg black = true ∧ fits s.cfg red = true ∧
        i ∈ [Instr.clear, Instr.display black red, Instr.displayBlack black]
      ∨ s.pstate = .ready ∧ i = .sleep) :
    ∃ rest, exec i s = .next (endSurface (runList (.wait .refreshTimeoutError :: rest) s)) := by
  rcases hi with ⟨hp, hb, hr, hi⟩ | ⟨hp, rfl⟩
  · simp only [List.mem_cons, List.not_mem_nil, or_false] at hi
    rcases hi with rfl | rfl | rfl
    · exact ⟨_, (exec_clear s).trans (exec_display_run hp ho (fits_inactive _) (fits_inactive _))⟩
    · exact ⟨_, exec_display_run hp ho hb hr⟩
    · exact ⟨_, exec_displayBlack_run hp ho hb⟩
  · exact ⟨_, exec_sleep_run hp ho⟩

/-- Settles O38: the four listings begin with the gate. -/
theorem gateTimeoutSendsNothing : Obligations.GateTimeoutSendsNothing := by
  intro s black red i ho hi hb hn
  obtain ⟨rest, run⟩ := exec_gated ho hi
  rw [run, runList_wait_timeout hb hn]
  rfl

/-- The state after an `InitError` raised `l` events and the draws to `e` after `u`, with `K` at `k`. -/
def initFailed (u : State) (k : Nat) (l : List Event) (e : Env) : State := { u with
  pstate := .exited, owned := false, driven := false, mode := .none, fatal := true, res := .initError
  pinRst := u.cfg.safeRst, pinDc := u.cfg.safeDc, pinCs := !u.cfg.csActive, k := k
  trace := u.trace ++ l ++ releaseEvents u.cfg ++ stateEvents u.pstate .exited
  env := e, answer := some ⟨.initError, .none⟩ }

/-- The gate of `init` times out after the reset pulse. -/
theorem init_gate_timeout {u : State} (hb : BusyFor 0 u.cfg.nPollMax.val u)
    (hi : NoInterruptFor (2 * u.cfg.nPollMax.val + 1) u) (rest : List Micro) :
    endSurface (runList (listReset u.cfg ++ .wait .initError :: rest) u) =
      initFailed u u.cfg.nPollMax.val (resetEvents u.cfg ++ timeoutEvents u.cfg (u.cfg.nPollMax.val - 1))
        (advanceEnv u.env u.cfg.nPollMax.val 0 (2 * u.cfg.nPollMax.val + 1)) := by
  have N := pos_val_eq u.cfg.nPollMax
  rw [runList_append_ok (runList_reset_ok fun j hj => hi j (by omega)),
    runList_wait_timeout (fun j hj => by simpa using hb j hj)
      (fun j hj => by simpa using hi (2 + j) (by simp only at hj; omega)),
    endSurface, fatal_end (.inr (.inr rfl)), fatal_eq]
  have draws : 2 + (2 * u.cfg.nPollMax.val - 1) = 2 * u.cfg.nPollMax.val + 1 := by omega
  simp [initFailed, draws]

/-- The second wait of `init` times out, the whole set-up sequence sent. -/
theorem init_lastWait_timeout {u : State} (hr : busyAt u.env 0 ≠ u.cfg.busyActive)
    (hb : BusyFor 1 u.cfg.nPollMax.val u) (hw : WritesSucceedFor (writesOfAll u.cfg.initSeq) u)
    (hi : NoInterruptFor (2 * u.cfg.nPollMax.val + 2) u) :
    endSurface (runList (listReset u.cfg ++ .wait .initError :: u.cfg.initSeq.flatMap (listSendFrame u.cfg)
        ++ [.wait .initError, .setState .ready]) u) =
      initFailed u u.cfg.nPollMax.val (resetEvents u.cfg ++ .busy false :: u.cfg.initSeq.flatMap (frameEvents u.cfg)
          ++ timeoutEvents u.cfg (u.cfg.nPollMax.val - 1))
        (advanceEnv u.env (1 + u.cfg.nPollMax.val) (writesOfAll u.cfg.initSeq) (2 * u.cfg.nPollMax.val + 2)) := by
  have N := pos_val_eq u.cfg.nPollMax
  rw [init_upto u u.cfg rfl hr hw (fun j hj => hi j (by omega)),
    runList_wait_timeout (fun j hj => by simpa using hb j hj)
      (fun j hj => by simpa using hi (3 + j) (by simp only at hj; omega)),
    endSurface, fatal_end (.inr (.inr rfl)), fatal_eq]
  have draws : 3 + (2 * u.cfg.nPollMax.val - 1) = 2 * u.cfg.nPollMax.val + 2 := by omega
  simp [initFailed, draws]

/-- A failed `init`, from the state before it took the handle. -/
theorem initFailed_inited {s : State}
    (hs : s.owned = false ∧ s.pstate = .uninitialized ∨ s.owned = true ∧ s.pstate = .displaying) (k : Nat)
    (l : List Event) (e : Env) : initFailed (inited s) k l e = { s with
      pstate := .exited, owned := false, driven := false, mode := .none, fatal := true, res := .initError
      pinRst := s.cfg.safeRst, pinDc := s.cfg.safeDc, pinCs := !s.cfg.csActive, k := k
      trace := s.trace ++ (if s.pstate = .uninitialized then [.acquire] else []) ++ l ++ releaseEvents s.cfg
        ++ [.pstate .exited]
      env := e, answer := some ⟨.initError, .none⟩ } := by
  rcases hs with ⟨-, hp⟩ | ⟨-, hp⟩
  · simp [inited_of_uninitialized hp, initFailed, hp, stateEvents, acquire, emit]
  · simp [inited_of_displaying hp, initFailed, hp, stateEvents]

theorem inited_cfg (s : State) : (inited s).cfg = s.cfg := (grown_inited s).cfg

theorem inited_env (s : State) : (inited s).env = s.env := by unfold inited; split <;> rfl

/-- Settles O39: the two waits, each from the state in which the handle is held. -/
theorem initTimeoutsAreFatal : Obligations.InitTimeoutsAreFatal := by
  intro s hs
  replace hs : s.owned = false ∧ s.pstate = .uninitialized ∨ s.owned = true ∧ s.pstate = .displaying :=
    hs.imp And.symm And.symm
  have run := exec_init_run hs
  rw [← inited_cfg s] at run
  refine ⟨fun hb hi => ?gate, fun hr hb hw hi => ?last⟩ <;> rw [run]
  case gate =>
    rw [List.append_assoc, List.cons_append,
      init_gate_timeout (by simpa only [inited_cfg, inited_env, BusyFor] using hb)
        (by simpa only [inited_cfg, inited_env, NoInterruptFor] using hi), initFailed_inited hs, inited_cfg, inited_env]
    simp only [List.append_assoc]
  case last =>
    rw [init_lastWait_timeout (by simpa only [inited_cfg, inited_env] using hr)
        (by simpa only [inited_cfg, inited_env, BusyFor] using hb)
        (by simpa only [inited_cfg, inited_env, WritesSucceedFor] using hw)
        (by simpa only [inited_cfg, inited_env, NoInterruptFor] using hi), initFailed_inited hs, inited_cfg, inited_env]
    simp only [List.append_assoc, List.cons_append]

/-! #### The wait after the refresh command (R195 to R197) -/

theorem refreshed_timeout {s : State} (writes : List CommandFrame) (hb : BusyFor 1 s.cfg.nPollMax.val s)
    (hi : NoInterruptFor (2 * s.cfg.nPollMax.val) s) :
    endSurface (runList [.wait .refreshTimeoutError, .setState .ready] (refreshed writes s)) = { s with
      pstate := .displaying, res := .refreshTimeoutError, k := s.cfg.nPollMax.val
      pinDc := dcAfter s.cfg s.cfg.refresh, pinCs := !s.cfg.csActive, mode := modeAfter s.cfg.refresh
      trace := s.trace ++ .busy false :: stateEvents s.pstate .displaying ++ writes.flatMap (frameEvents s.cfg)
        ++ frameEvents s.cfg s.cfg.refresh ++ timeoutEvents s.cfg (s.cfg.nPollMax.val - 1)
      env := advanceEnv s.env (1 + s.cfg.nPollMax.val) (2 * writes.length + writesOf s.cfg.refresh)
        (2 * s.cfg.nPollMax.val)
      answer := some ⟨.refreshTimeoutError, .none⟩ } := by
  have N := pos_val_eq s.cfg.nPollMax
  rw [runList_wait_timeout (fun j hj => by simpa [refreshed] using hb j hj)
    (fun j hj => by simpa [refreshed] using hi (1 + j) (by simp only [refreshed] at hj; omega))]
  have draws : 1 + (2 * s.cfg.nPollMax.val - 1) = 2 * s.cfg.nPollMax.val := by omega
  simp [endSurface, endRaised, errorEffect, present, refreshed, draws]

/-- The operations that write the planes `writes` and refresh, from their gate to their last wait. -/
theorem exec_refresh_upto_lastWait {s : State} {black red : Plane} {i : Instr} {writes : List CommandFrame}
    (hi : i = .display black red ∧ fits s.cfg black = true ∧ fits s.cfg red = true ∧
        writes = [⟨s.cfg.cmdBlack, packRaw black⟩, ⟨s.cfg.cmdRed, packRaw red⟩]
      ∨ i = .clear ∧
        writes = [⟨s.cfg.cmdBlack, List.replicate ((s.cfg.width.val + 7) / 8 * s.cfg.height.val) 0xFF#8⟩,
          ⟨s.cfg.cmdRed, List.replicate ((s.cfg.width.val + 7) / 8 * s.cfg.height.val) 0xFF#8⟩]
      ∨ i = .displayBlack black ∧ fits s.cfg black = true ∧ writes = [⟨s.cfg.cmdBlack, packRaw black⟩])
    (hp : s.pstate = .ready ∨ s.pstate = .displaying) (ho : s.owned = true)
    (hr : busyAt s.env 0 ≠ s.cfg.busyActive) (hn : intrAt s.env 0 = false) (hw : WritesSucceedFor 6 s) :
    exec i s =
      .next (endSurface (runList [.wait .refreshTimeoutError, .setState .ready] (refreshed writes s))) := by
  have display {b r : Plane} (hB : fits s.cfg b = true) (hR : fits s.cfg r = true) : exec (.display b r) s =
      .next (endSurface (runList [.wait .refreshTimeoutError, .setState .ready]
        (refreshed [⟨s.cfg.cmdBlack, packRaw b⟩, ⟨s.cfg.cmdRed, packRaw r⟩] s))) := by
    rw [exec_display_run hp ho hB hR,
      runList_display_upto_lastWait (packRaw_ne _ _ hB) (packRaw_ne _ _ hR) hr hn hw]
  rcases hi with ⟨rfl, hB, hR, rfl⟩ | ⟨rfl, rfl⟩ | ⟨rfl, hB, rfl⟩
  · exact display hB hR
  · rw [exec_clear, display (fits_inactive _) (fits_inactive _), packRaw_allInactive]
  · rw [exec_displayBlack_run hp ho hB,
      runList_displayBlack_upto_lastWait (packRaw_ne _ _ hB) hr hn fun j hj => hw j (by omega)]

/-- Settles O40: the operation up to its last wait, and that wait timed out. -/
theorem refreshTimeoutLeavesDisplaying : Obligations.RefreshTimeoutLeavesDisplaying := by
  intro s black red i writes hi hp ho hr hb hw hn
  have first : intrAt s.env 0 = false := hn 0 (by simp [pos_val_eq])
  rw [exec_refresh_upto_lastWait hi hp ho hr first hw, refreshed_timeout writes hb hn]

/-! ### `exit`, the fatal path, and the reset state -/

/-- Settles O35: the two illegal cells of the table, and the listing of `exit`, which takes no draw. -/
theorem exitFromEveryState : Obligations.ExitFromEveryState := by
  refine fun s => ⟨fun hp => ?again, fun hp => ?early, fun hp ho => ?legal⟩
  case again => exact exec_alreadyExited .exit (by rw [hp]; rfl)
  case early => exact exec_stateError .exit (by rw [hp]; rfl)
  case legal =>
    rw [exec_exit_run hp ho, endSurfaceOk, afterExit, stateEvents_exited hp]
    rfl

/-- Settles O41 by the fatal path as one update. -/
theorem fatalPathReleasesEverything : Obligations.FatalPathReleasesEverything := fun s code => fatal_eq code s

theorem always_resetWith (c : Cfg) : Always (State.resetWith c) := ⟨rfl, nofun, nofun⟩

theorem hostDriven_resetWith (c : Cfg) : HostDriven (State.resetWith c) := ⟨rfl, nofun⟩

/-- Settles O58: the handle is free, `FATAL` clear and the script empty, whatever the configuration. -/
theorem resetMeetsTheInvariants : Obligations.ResetMeetsTheInvariants := by
  have all (c : Cfg) : Between (State.resetWith c) ∧ HostDriven (State.resetWith c) ∧ Always (State.resetWith c) :=
    ⟨between_resetWith c, hostDriven_resetWith c, always_resetWith c⟩
  exact ⟨all, all Config.cfg⟩

end Sys2Proof.Machine

namespace Sys2Proof.Machine

/-! ### The port (44_surface_api.md, 70_reset_and_hazards.md): what a step does around an operation -/

theorem step_silent {s : State} (hu : s.upc = .idle) (hh : s.host = []) : step s = .next s := by
  simp only [step, hu, idleStep, hh]

theorem step_harness {s : State} (hu : s.upc = .idle) {f : Format} {bytes : List Byte} {later : List HostAction}
    (hh : s.host = .harness f bytes :: later) : step s = harnessCall (decode f bytes) { s with host := later } := by
  simp only [step, hu, idleStep, hh, hostStep]

theorem step_readStatus {s : State} (hu : s.upc = .idle) {r : StatusReg} {later : List HostAction}
    (hh : s.host = .readStatus r :: later) : step s = .next (readStatus r { s with host := later }) := by
  simp only [step, hu, idleStep, hh, hostStep]

/-- Settles O2: the strike is a block reset of the state with the action taken. -/
theorem blockResetCutsAnOperationShort : Obligations.BlockResetCutsAnOperationShort := by
  intro s listing later hu hh
  have strikes : step s = .next (blockReset { s with host := later }) := by
    simp only [step, hu, runningStep, hh]
  exact ⟨_, strikes, rfl, rfl, rfl, rfl, rfl, rfl, rfl, rfl, rfl, rfl, rfl, rfl, rfl, rfl, rfl, rfl⟩

/-- Settles O3: no action, an operation on the host port, a harness call. -/
theorem stepRunsTheDecodedOperation : Obligations.StepRunsTheDecodedOperation := by
  refine ⟨fun s => step_silent, fun s bytes rest later i hu => ⟨fun hh hd hi => ?port, fun f hh hd => ?harness⟩⟩
  case port => rw [step_op hu hh, hd, onHostPort_surface hi]
  case harness => rw [step_harness hu hh, hd, harnessCall]

/-- The host port refuses whatever the action would do with a surface operation. -/
theorem onHostPort_error (e : DecodeError) (go : Instr → Host.Outcome State Fault Refusal) :
    onHostPort (.error e) go = .refused (refusalOf e) := rfl

theorem onHostPort_layer {i : Instr} (hi : isSurface i = false) (rest : List Byte)
    (go : Instr → Host.Outcome State Fault Refusal) : onHostPort (.ok (i, rest)) go = .refused .layerOpOnHostPort :=
  if_neg (by simp [hi])

theorem decode_op_reserved {code : Byte} (h : ∀ i, opCode i ≠ some code) (operands : List Byte) :
    decode .op (code :: operands) = .error (.reservedCode code) := decodeOperands_reserved operands h

/-- Settles O4: both actions go through `onHostPort`. -/
theorem hostPortRefusesOtherCodes : Obligations.HostPortRefusesOtherCodes := by
  intro s code operands later hu a ha hh
  obtain ⟨go, hs⟩ : ∃ go, step s = onHostPort (decode .op (code :: operands)) go := by
    simp only [List.mem_cons, List.not_mem_nil, or_false] at ha
    rcases ha with rfl | rfl
    · exact ⟨_, step_op hu hh⟩
    · exact ⟨_, step_begin hu hh⟩
  refine ⟨fun hc => ?reserved, fun i rest hd hi => ?layer⟩ <;> rw [hs]
  case reserved => rw [decode_op_reserved hc, onHostPort_error, refusalOf]
  case layer => rw [hd, onHostPort_layer hi]

/-- Settles O5: of the actions only waiting and the reset input are not refused. -/
theorem portIsBusyWhileAnOperationRuns : Obligations.PortIsBusyWhileAnOperationRuns := by
  intro s listing a later hu hh hw hr
  cases a with
  | await => exact absurd rfl hw
  | blockReset n => exact absurd rfl (hr n)
  | op | begin | harness | readStatus => simp only [step, hu, runningStep, hh]

/-- Settles O6: the decoder run on each of the 21 words. -/
theorem tableCodesDecode : Obligations.TableCodesDecode := by
  unfold Obligations.TableCodesDecode
  decide

/-! ### Status reads (10_state.md R46, R50) -/

theorem sr4_pins (s : State) : (sr4 s).getLsbD 0 = (s.driven && s.pinRst) ∧ (sr4 s).getLsbD 1 = (s.driven && s.pinDc) ∧
    (sr4 s).getLsbD 2 = (s.driven && s.pinCs) ∧ (sr4 s).getLsbD 3 = busyAt s.env 0 ∧ (sr4 s).getLsbD 4 = s.driven := by
  unfold sr4
  repeat rw [BitVec.getLsbD_append]
  simp

theorem sr4_high (s : State) : (sr4 s).extractLsb' 5 3 = 0#3 := by
  unfold sr4
  repeat rw [BitVec.extractLsb'_append_eq_of_le (by decide)]
  rfl

/-- Settles O48: the fields of `SR4`, and `readStatus` for each register. -/
theorem statusReadsAnswerTheRegisters : Obligations.StatusReadsAnswerTheRegisters := by
  intro s
  obtain ⟨rst, dc, cs, busy, driven⟩ := sr4_pins s
  refine ⟨⟨rst, dc, cs, busy, driven, sr4_high s⟩, fun later hu => ⟨?_, ?_, ?_, ?_, ?_, ?_⟩⟩ <;>
    exact fun hh => step_readStatus hu hh

end Sys2Proof.Machine
